-- ==== Sys2Proof/Word.lean ====
section
/-! DEFINITION. The value types of the machine. A register, a bus word, a frequency word or a delay-line entry
is a bit pattern whose width is a parameter of the instance (spec/00_scope.md R6, R10 to R12); a sample is a
signed integer (R8, R18). -/

namespace Sys2Proof

/-- A pattern of `w` bits, bit 0 the least significant (R18). `+` on it is the modular addition `+_N` of R18. -/
abbrev Word (w : Nat) := BitVec w

/-- A signed sample or table entry, held as the integer the rules compute with (R18, R120, R188). -/
abbrev Sample := Int

end Sys2Proof
end

