-- ==== Sys2Proof/Config.lean ====
section
/-! DEFINITION. The configuration of an instance: the parameters of spec/00_scope.md R6 to R14, the configuration
errors of spec/60_exceptions.md R290 to R293, the sine table's rule (spec/40_nco_core.md R120), and the free values
for what the spec leaves unspecified (`ANY`, R18; spec/93_implementation_defined.md U6, U7). -/

namespace Sys2Proof

/-- The parameters of an instance as they are asked for, before any check (R6 to R14). The defaults are the
spec's; the fields without one are OPEN (spec/92_eei_decisions.md D30). `bankBits` and `delay` are integers, so
that the values R291 and R293 reject can be written down. -/
structure Config where
  /-- `W` (R6). -/
  w : Nat := 32
  /-- `LUT_AW` (R7). -/
  lutAw : Nat
  /-- `SAMPLE_W` (R8). -/
  sampleW : Nat
  /-- `PULSE_LEN` (R10). -/
  pulseLen : Nat
  /-- `PULSE_CNT_W` (R10). -/
  pulseCntW : Nat := 32
  /-- `HOP_CNT_W` (R11). -/
  hopCntW : Nat := 32
  /-- `BANK_BITS` (R12). -/
  bankBits : Int
  /-- `BANK_DEPTH` (R12). -/
  bankDepth : Nat := 512
  /-- `DATA_W` (R12). -/
  dataW : Nat
  /-- `DELAY` (R12). -/
  delay : Int
  /-- `OUT_REG` (R13). -/
  outReg : Bool := false
  /-- `MODE_SWITCH_RESET` (R13). -/
  modeSwitchReset : Bool := false
  /-- `SAMPLE_CNT_EN` (R13). -/
  sampleCntEn : Bool := false
  /-- `TABLE` (R14). -/
  table : List Sample
deriving DecidableEq, Repr

namespace Config

/-- `SIZE = 2^LUT_AW` (R7). -/
def size (p : Config) : Nat := 2 ^ p.lutAw

/-- `AMP = 2^(SAMPLE_W-1) - 1` (R8). -/
def amp (p : Config) : Int := 2 ^ (p.sampleW - 1) - 1

/-- `NB = 2^BANK_BITS` (R12). -/
def nb (p : Config) : Nat := 2 ^ p.bankBits.toNat

/-- `TOTAL = NB * BANK_DEPTH` (R12). -/
def total (p : Config) : Nat := p.nb * p.bankDepth

end Config

/-- The configuration errors (spec/60_exceptions.md R290; the codes are the spec's names, D35). -/
inductive ConfigError
  /-- Delay out of range (R291). -/
  | ce1
  /-- Table too small (R292). -/
  | ce2
  /-- Any other parameter constraint broken (R293). -/
  | ce3
deriving DecidableEq, Repr

namespace Config

/-- Every configuration error of these parameters. R290 checks all constraints and does not say which error is
reported when several hold (U13), so all are listed. -/
def errors (p : Config) : List ConfigError :=
  (if p.delay ≤ 0 ∨ (p.total : Int) ≤ p.delay then [.ce1] else []) ++
  (if p.lutAw < 2 then [.ce2] else []) ++
  (if p.w < p.lutAw ∨ p.w < 3 ∨ p.sampleW < 2 ∨ 2 ^ p.pulseCntW ≤ p.pulseLen ∨ p.bankBits < 0 ∨
      p.bankDepth < 1 ∨ p.dataW < 1 then [.ce3] else [])

/-- `TABLE` holds what R120 says: `SIZE` entries, entry `i` the integer nearest to `sin(2*pi*i/SIZE) * AMP`.
Mathlib's `round` takes a half up; no half occurs (R122), so the tie rule does not matter. -/
def TableOk (p : Config) : Prop :=
  p.table.length = p.size ∧
    ∀ i : Nat, i < p.size →
      p.table.getD i 0 = round (Real.sin (2 * Real.pi * (i : ℝ) / (p.size : ℝ)) * (p.amp : ℝ))

end Config

/-- The configuration of a constructed instance: parameters with no configuration error (R290), and the table of
R120. An instance with any other configuration does not exist, so no `Cfg` does. -/
structure Cfg where
  /-- The parameters. -/
  raw : Config
  /-- No configuration error (R290 to R293). -/
  noError : raw.errors = []
  /-- The table is the one R120 gives. -/
  tableOk : raw.TableOk
deriving DecidableEq, Repr

namespace Cfg

/-- `W`. -/
abbrev w (c : Cfg) : Nat := c.raw.w
/-- `LUT_AW`. -/
abbrev lutAw (c : Cfg) : Nat := c.raw.lutAw
/-- `SIZE`. -/
abbrev size (c : Cfg) : Nat := c.raw.size
/-- `SAMPLE_W`. -/
abbrev sampleW (c : Cfg) : Nat := c.raw.sampleW
/-- `AMP`. -/
abbrev amp (c : Cfg) : Int := c.raw.amp
/-- `PULSE_LEN`. -/
abbrev pulseLen (c : Cfg) : Nat := c.raw.pulseLen
/-- `PULSE_CNT_W`. -/
abbrev pulseCntW (c : Cfg) : Nat := c.raw.pulseCntW
/-- `HOP_CNT_W`. -/
abbrev hopCntW (c : Cfg) : Nat := c.raw.hopCntW
/-- `NB`. -/
abbrev nb (c : Cfg) : Nat := c.raw.nb
/-- `BANK_DEPTH`. -/
abbrev bankDepth (c : Cfg) : Nat := c.raw.bankDepth
/-- `TOTAL`. -/
abbrev total (c : Cfg) : Nat := c.raw.total
/-- `DATA_W`. -/
abbrev dataW (c : Cfg) : Nat := c.raw.dataW
/-- `DELAY`, a positive number in a constructed instance (R291). -/
abbrev delay (c : Cfg) : Nat := c.raw.delay.toNat
/-- `OUT_REG`. -/
abbrev outReg (c : Cfg) : Bool := c.raw.outReg
/-- `MODE_SWITCH_RESET`. -/
abbrev modeSwitchReset (c : Cfg) : Bool := c.raw.modeSwitchReset
/-- `SAMPLE_CNT_EN`. -/
abbrev sampleCntEn (c : Cfg) : Bool := c.raw.sampleCntEn
/-- `TABLE`. -/
abbrev table (c : Cfg) : List Sample := c.raw.table

end Cfg

/-- Construction of an instance's configuration: it fails with the configuration errors, or gives the checked
configuration (R290: no instance comes into existence on an error). -/
def construct (p : Config) (t : p.TableOk) : Except (List ConfigError) Cfg :=
  if h : p.errors = [] then .ok ⟨p, h, t⟩ else .error p.errors

/-! ## Free values -/

/-- The content of delay-memory entry `p` that nothing has written since construction: one draw per entry, stable
(spec/10_state.md R39, U7). Log 8. -/
opaque Config.anyEntry (dataW p : Nat) : Word dataW

/-- The content of `bank_q[b]` before its first load (R42, U7). Log 9. -/
opaque Config.anyBankQ (dataW b : Nat) : Word dataW

/-- The `n`-th draw of what the delay line's multiplexer carries in a tick after a tick without a read
(spec/46_banked_delay_line.md R236, U6). Log 10. -/
opaque Config.anyMux (dataW n : Nat) : Word dataW

/-! ## Configuration T of spec/95_test_vectors.md -/

/-- The parameters of configuration T ("the small test configuration" of spec/95_test_vectors.md). -/
def Config.paramsT : Config where
  lutAw := 3
  sampleW := 8
  pulseLen := 3
  bankBits := 1
  bankDepth := 4
  dataW := 36
  delay := 3
  sampleCntEn := true
  table := [0, 90, 127, 90, 0, -90, -127, -90]

/-- `127 * sin(pi/4) = 89.80...` rounds to 90 (R120's worked example). -/
theorem Config.round_half_sqrt_two : round (Real.sqrt 2 / 2 * 127) = 90 := by
  have h1 : (1.41 : ℝ) < Real.sqrt 2 := by
    rw [Real.lt_sqrt (by norm_num)]; norm_num
  have h2 : Real.sqrt 2 < 1.42 := by
    rw [Real.sqrt_lt' (by norm_num)]; norm_num
  rw [round_eq, Int.floor_eq_iff]
  constructor <;> push_cast <;> linarith

theorem Config.round_neg_half_sqrt_two : round (-(Real.sqrt 2 / 2) * 127) = -90 := by
  have h1 : (1.41 : ℝ) < Real.sqrt 2 := by
    rw [Real.lt_sqrt (by norm_num)]; norm_num
  have h2 : Real.sqrt 2 < 1.42 := by
    rw [Real.sqrt_lt' (by norm_num)]; norm_num
  rw [round_eq, Int.floor_eq_iff]
  constructor <;> push_cast <;> linarith

/-- The sine at the eight points of a table of eight entries. -/
theorem Config.sin_eighths (i : Nat) (h : i < 8) :
    Real.sin (2 * Real.pi * (i : ℝ) / 8) =
      [0, Real.sqrt 2 / 2, 1, Real.sqrt 2 / 2, 0, -(Real.sqrt 2 / 2), -1, -(Real.sqrt 2 / 2)].getD i 0 := by
  have e5 : (2 * Real.pi * 5 / 8 : ℝ) = Real.pi / 4 + Real.pi := by ring
  have e6 : (2 * Real.pi * 6 / 8 : ℝ) = Real.pi / 2 + Real.pi := by ring
  have e7 : (2 * Real.pi * 7 / 8 : ℝ) = -(Real.pi / 4) + 2 * Real.pi := by ring
  have e1 : (2 * Real.pi / 8 : ℝ) = Real.pi / 4 := by ring
  have e2 : (2 * Real.pi * 2 / 8 : ℝ) = Real.pi / 2 := by ring
  have e3 : (2 * Real.pi * 3 / 8 : ℝ) = Real.pi - Real.pi / 4 := by ring
  have e4 : (2 * Real.pi * 4 / 8 : ℝ) = Real.pi := by ring
  interval_cases i
  · simp
  · simp [e1]
  · simp [e2]
  · simp [e3, Real.sin_pi_sub]
  · simp [e4]
  · simp [e5, Real.sin_add_pi]
  · simp [e6, Real.sin_add_pi]
  · simp [e7, Real.sin_add_two_pi, Real.sin_neg]

/-- The table listed for configuration T is the one R120 gives for `LUT_AW = 3`, `SAMPLE_W = 8`, whatever the
other parameters are. -/
theorem Config.tableOk_of_eighths (p : Config) (hl : p.lutAw = 3) (hs : p.sampleW = 8)
    (ht : p.table = [0, 90, 127, 90, 0, -90, -127, -90]) : p.TableOk := by
  have hsz : p.size = 8 := by simp [Config.size, hl]
  have hamp : p.amp = 127 := by simp [Config.amp, hs]
  refine ⟨by simp [ht, hsz], ?_⟩
  rw [hsz, hamp, ht]
  intro i hi
  have hsin := Config.sin_eighths i hi
  push_cast
  rw [hsin]
  have hr : round (127 : ℝ) = 127 := by exact_mod_cast round_intCast (127 : Int)
  have hr' : round (-127 : ℝ) = -127 := by exact_mod_cast round_intCast (-127 : Int)
  have a := Config.round_half_sqrt_two
  have b := Config.round_neg_half_sqrt_two
  interval_cases i <;> simp_all

/-- Configuration T of spec/95_test_vectors.md, checked. -/
def Cfg.t : Cfg := ⟨Config.paramsT, by decide, Config.tableOk_of_eighths _ rfl rfl rfl⟩

end Sys2Proof
end

