-- ==== Sys2Proof/Syntax.lean ====
section
/-! DEFINITION. The operations of CORE, one constructor per row of spec/opcode_table.json, and what the environment
presents on the input ports in one tick. An operation is one value of one per-tick input field
(spec/30_encoding.md R90); an operand is the number on the field's port (R91, R98, R99). -/

namespace Sys2Proof

/-- The operations (R106). A `data` operand is the number on `bus_wdata`; a read carries it too, though it is
ignored (R92), so that no bit of a bus word is dropped. -/
inductive Instr
  /-- Write of the control word (R261), for the control words with two or three command bits set. -/
  | wrCtrl (data : Nat)
  /-- Write of `tw_min` (R262). -/
  | wrTwmin (data : Nat)
  /-- Write of `tw_max` (R263). -/
  | wrTwmax (data : Nat)
  /-- Write of `chirp_step` (R264). -/
  | wrStep (data : Nat)
  /-- Read of the status word (R265), also the idle bus (`NOP`, R92). -/
  | rdStatus (data : Nat)
  /-- Read of `tw_min` (R266). -/
  | rdTwmin (data : Nat)
  /-- Read of `tw_max` (R267). -/
  | rdTwmax (data : Nat)
  /-- Read of `chirp_step` (R268). -/
  | rdStep (data : Nat)
  /-- A bus word with `addr[0] = 1` (R63, R106); `addrHi` is `addr[3:1]`. -/
  | busMisalignedA (we : Bool) (addrHi : BitVec 3) (data : Nat)
  /-- A bus word with `addr[1:0] = 10` (R63, R106); `addrHi` is `addr[3:2]`. -/
  | busMisalignedB (we : Bool) (addrHi : BitVec 2) (data : Nat)
  /-- Control word with only `start_continuous` set (R155); `upper` is `data[W-1:3]`, ignored (R93). -/
  | startCont (upper : Nat)
  /-- Control word with only `stop_continuous` set (R155). -/
  | stopCont (upper : Nat)
  /-- Control word with only `start_timed_pulse` set (R156). -/
  | startPulse (upper : Nat)
  /-- Control word with no command bit set (R261). -/
  | ctrlNop (upper : Nat)
  /-- `mode = 00` (R202). -/
  | modeIdle
  /-- `mode = 01` (R203). -/
  | modeChirp
  /-- `mode = 10` (R204). -/
  | modeDual
  /-- `mode = 11` (R205). -/
  | modeRsvd3
  /-- `ready_in = 0` (R212). -/
  | stall
  /-- `ready_in = 1` (R213). -/
  | accept
  /-- `hop_en = 0`; the word and bound inputs are ignored (R145). -/
  | hopHold
  /-- `hop_en = 1` with its operand ports (R141). -/
  | hopRun (fw0 fw1 fw2 bound : Nat)
  /-- `dl_wr_en = 0`, `dl_rd_en = 0` (R232). -/
  | dlIdle
  /-- `dl_wr_en = 0`, `dl_rd_en = 1` (R233). -/
  | dlRd
  /-- `dl_wr_en = 1`, `dl_rd_en = 0` with `dl_din` (R234). -/
  | dlWr (din : Nat)
  /-- `dl_wr_en = 1`, `dl_rd_en = 1` with `dl_din` (R235). -/
  | dlWrrd (din : Nat)
  /-- `rst = 0` (R17). -/
  | run
  /-- `rst = 1` (R320). -/
  | reset
deriving DecidableEq, Repr

/-- The six independent input fields of a tick (R90). -/
inductive Field
  | bus
  | mode
  | rdy
  | hop
  | dl
  | rst
deriving DecidableEq, Repr

/-- The field an operation is a value of (R106). -/
def Instr.field : Instr → Field
  | .wrCtrl _ | .wrTwmin _ | .wrTwmax _ | .wrStep _ => .bus
  | .rdStatus _ | .rdTwmin _ | .rdTwmax _ | .rdStep _ => .bus
  | .busMisalignedA _ _ _ | .busMisalignedB _ _ _ => .bus
  | .startCont _ | .stopCont _ | .startPulse _ | .ctrlNop _ => .bus
  | .modeIdle | .modeChirp | .modeDual | .modeRsvd3 => .mode
  | .stall | .accept => .rdy
  | .hopHold | .hopRun _ _ _ _ => .hop
  | .dlIdle | .dlRd | .dlWr _ | .dlWrrd _ => .dl
  | .run | .reset => .rst

/-- What stands on the ports of one field in one tick, as numbers (R90): the bus word (R91), the one- and two-bit
codes (R96 to R100), and the operand ports of the hop and delay-line fields (R98, R99). The hardware tells the
fields apart by their ports; no word carries a format tag. -/
inductive Raw
  | bus (word : Nat)
  | mode (word : Nat)
  | rdy (word : Nat)
  | hop (word fw0 fw1 fw2 bound : Nat)
  | dl (word din : Nat)
  | rst (word : Nat)
deriving DecidableEq, Repr

/-- The operand ports of the hop field and its enable (R98). -/
structure HopLine where
  word : Nat
  fw0 : Nat
  fw1 : Nat
  fw2 : Nat
  bound : Nat
deriving DecidableEq, Repr

/-- The delay-line field: the two enables and `dl_din` (R99). -/
structure DlLine where
  word : Nat
  din : Nat
deriving DecidableEq, Repr

/-- The line of one tick (spec/30_encoding.md R104): for each field at most one value (an input has one value per
tick, R336). A field left out keeps its level, or takes its default where R104 calls it a pulse field. Log 2. -/
structure Line where
  bus : Option Nat := none
  mode : Option Nat := none
  rdy : Option Nat := none
  hop : Option HopLine := none
  dl : Option DlLine := none
  rst : Option Nat := none
deriving DecidableEq, Repr

namespace Line

/-- The fields a line presents, in the order of R90's table with `rst` last. -/
def raws (l : Line) : List Raw :=
  (l.bus.map Raw.bus).toList ++ (l.mode.map Raw.mode).toList ++ (l.rdy.map Raw.rdy).toList ++
  (l.hop.map fun h => Raw.hop h.word h.fw0 h.fw1 h.fw2 h.bound).toList ++
  (l.dl.map fun d => Raw.dl d.word d.din).toList ++ (l.rst.map Raw.rst).toList

/-- The line that presents one field only. -/
def only : Raw → Line
  | .bus x => { bus := some x }
  | .mode x => { mode := some x }
  | .rdy x => { rdy := some x }
  | .hop x f0 f1 f2 b => { hop := some ⟨x, f0, f1, f2, b⟩ }
  | .dl x d => { dl := some ⟨x, d⟩ }
  | .rst x => { rst := some x }

end Line

/-- Why the words of a line are no operation: a number that does not fit the port it stands on (R338). -/
inductive Reject
  /-- A bus word of more than `W+5` bits (R91). -/
  | busWordTooWide
  /-- A mode code of more than 2 bits (R96). -/
  | modeCodeTooWide
  /-- A ready code of more than 1 bit (R97). -/
  | readyCodeTooWide
  /-- A hop code of more than 1 bit, or a frequency word or bound wider than its port (R98, R15). -/
  | hopFieldTooWide
  /-- A delay-line code of more than 2 bits, or a `dl_din` wider than its port (R99, R15). -/
  | delayFieldTooWide
  /-- A reset code of more than 1 bit (R100). -/
  | resetCodeTooWide
deriving DecidableEq, Repr

end Sys2Proof
end

