-- ==== Sys2Proof/Machine/State.lean ====
section
/-! DEFINITION. The state of CORE (spec/10_state.md R20 to R45), the model's own fields beside it (the input ports,
the output ports of the last tick, the coming lines, the count of free draws), and the state after reset (R45,
spec/70_reset_and_hazards.md R320, R324). -/

namespace Sys2Proof.Machine

/-- The control register file (R21 to R24). -/
structure CtrlRegs (w : Nat) where
  /-- The command latch (R21). -/
  cmd : BitVec 3
  /-- R22. -/
  twMin : Word w
  /-- R23. -/
  twMax : Word w
  /-- R24. -/
  chirpStep : Word w
deriving DecidableEq, Repr

/-- The run-state latches and the pulse timer (R26 to R28). -/
structure RunState (pw : Nat) where
  /-- ContinuousRunning (R26). -/
  cont : Bool
  /-- TimedPulseActive (R27). -/
  pulse : Bool
  /-- R28. -/
  pulseCnt : Word pw
deriving DecidableEq, Repr

/-- The synthesis accumulators and the sample counter (R30 to R34). -/
structure SynthAcc (w : Nat) where
  /-- R30. -/
  freqAcc : Word w
  /-- R31. -/
  phaseC : Word w
  /-- R32. -/
  phase1 : Word w
  /-- R33. -/
  phase2 : Word w
  /-- R34; stays 0 in an instance without the counter. Log 14. -/
  sampleCnt : Word w
deriving DecidableEq, Repr

/-- The hop controller and its phase (R35 to R37). -/
structure HopNco (w hw : Nat) where
  /-- R35. -/
  hopState : BitVec 2
  /-- R36. -/
  dwellCnt : Word hw
  /-- R37. -/
  hopPhase : Word w
deriving DecidableEq, Repr

/-- The written entries of the delay memory: pointer and entry, pointers strictly rising. An entry that is not
listed has not been written since construction. Log 8, log 11. -/
abbrev DelayMem (dw : Nat) := List (Nat × Word dw)

/-- The delay line (R38 to R40, R42, R43). -/
structure DelayLine (dw : Nat) where
  /-- The write pointer, a natural number (R38). -/
  wptr : Nat
  /-- The delay memory (R39). -/
  bank : DelayMem dw
  /-- The previous tick's read enable of each bank (R40). -/
  reQ : List Bool
  /-- The registered read output of each bank (R42). -/
  bankQ : List (Word dw)
  /-- The output register (R43); stays 0 in an instance without it. Log 14. -/
  doutReg : Word dw
deriving DecidableEq, Repr

/-- The values on the input ports (spec/00_scope.md R15). Log 2. -/
structure Ports (w hw dw : Nat) where
  rst : Bool
  busWe : Bool
  /-- `ADDR_W = 4` (R9). -/
  busAddr : BitVec 4
  busWdata : Word w
  mode : BitVec 2
  readyIn : Bool
  hopEn : Bool
  hopFw0 : Word w
  hopFw1 : Word w
  hopFw2 : Word w
  hopBound : Word hw
  dlWrEn : Bool
  dlRdEn : Bool
  dlDin : Word dw
deriving DecidableEq, Repr

/-- The values the output ports had in the tick just executed (spec/00_scope.md R16). Log 7. -/
structure Outs (w dw : Nat) where
  busRdata : Word w
  isRunning : Bool
  validOut : Bool
  outI : Sample
  outQ : Sample
  hopI : Sample
  hopQ : Sample
  dlDout : Word dw
  /-- Present only when `SAMPLE_CNT_EN` (R16, R34). -/
  sampleCount : Option (Word w)
deriving DecidableEq, Repr

/-- Everything that changes in an instance with configuration `c`. -/
structure Engine (c : Cfg) where
  ctrl : CtrlRegs c.w
  run : RunState c.pulseCntW
  synth : SynthAcc c.w
  hop : HopNco c.w c.hopCntW
  dl : DelayLine c.dataW
  /-- The model's own: the input ports. -/
  ports : Ports c.w c.hopCntW c.dataW
  /-- The model's own: the output ports of the last tick. -/
  outs : Outs c.w c.dataW
  /-- The model's own: how many values of `Config.anyMux` have been drawn. Log 10. -/
  draws : Nat
deriving DecidableEq, Repr

/-- The state of the machine: an instance, what it holds, and the lines of the coming ticks. Log 1, log 2. -/
structure State where
  /-- The configuration, fixed when the instance is constructed (spec/00_scope.md section 3). -/
  cfg : Cfg
  engine : Engine cfg
  /-- The model's own: what the environment will present, one line a tick. -/
  script : List Line
deriving DecidableEq, Repr

/-- A step never faults: "A constructed instance never faults, traps, halts or signals an error"
(spec/60_exceptions.md R294). No constructor, so nothing raises one. -/
inductive Fault
deriving DecidableEq, Repr

/-- Why a step is refused. Every one of these is safe: the model stops where the spec puts the input outside its
domain. -/
inductive Refusal
  /-- Raised by `exec`'s arm of an operation without a meaning. Safe. No arm raises it. -/
  | notModelled (mnemonic : String)
  /-- Raised by the tick when the bus address is not word-aligned (R63, R335: "a model refuses such an input").
  Safe. Log 12. -/
  | misalignedBusAddress (addr : BitVec 4)
  /-- Raised by a meaning whose operand does not fit its port (R338, U20). Safe. Log 13. -/
  | operandDoesNotFit
  /-- Raised by the step when a line's word does not fit its port (R338, U20). Safe. Log 13. -/
  | rejectedWord (why : Reject)
deriving DecidableEq, Repr

/-! ## Reset -/

/-- The control registers after reset (R21 to R24). -/
def CtrlRegs.reset (w : Nat) : CtrlRegs w := ⟨0, 0, 0, 0⟩

/-- The run state after reset: Idle (R26 to R28). -/
def RunState.reset (pw : Nat) : RunState pw := ⟨false, false, 0⟩

/-- The accumulators after reset (R30 to R34). -/
def SynthAcc.reset (w : Nat) : SynthAcc w := ⟨0, 0, 0, 0, 0⟩

/-- The hop NCO after reset (R35 to R37). -/
def HopNco.reset (w hw : Nat) : HopNco w hw := ⟨0, 0, 0⟩

/-- The delay line after reset: the pointer, the registered enables and the output register are 0; the memory and
the bank outputs keep what they held (R38 to R43, spec/70_reset_and_hazards.md R320, R323). -/
def DelayLine.reset {dw : Nat} (nb : Nat) (d : DelayLine dw) : DelayLine dw :=
  { wptr := 0, bank := d.bank, reQ := List.replicate nb false, bankQ := d.bankQ, doutReg := 0 }

/-- The delay line of an instance just constructed and reset: no entry written, the bank outputs unspecified
(R39, R42, R324). -/
def DelayLine.fresh (nb dw : Nat) : DelayLine dw :=
  { wptr := 0, bank := [], reQ := List.replicate nb false,
    bankQ := (List.range nb).map (Config.anyBankQ dw), doutReg := 0 }

/-- The input ports before anything is presented: the defaults of spec/30_encoding.md R104. -/
def Ports.quiet (w hw dw : Nat) : Ports w hw dw :=
  { rst := false, busWe := false, busAddr := 0, busWdata := 0, mode := 0, readyIn := false, hopEn := false,
    hopFw0 := 0, hopFw1 := 0, hopFw2 := 0, hopBound := 0, dlWrEn := false, dlRdEn := false, dlDin := 0 }

/-- The outputs of a reset tick with `mode = 00` (spec/70_reset_and_hazards.md R321); without the output register
`dl_dout` is unspecified, draw number 0. -/
def Outs.afterReset (c : Cfg) : Outs c.w c.dataW :=
  { busRdata := 0, isRunning := false, validOut := false, outI := 0, outQ := 0, hopI := c.amp, hopQ := 0,
    dlDout := if c.outReg then 0 else Config.anyMux c.dataW 0,
    sampleCount := if c.sampleCntEn then some 0 else none }

/-- `RESET(cfg, ANY, ANY)`: an instance with configuration `c` after its first reset tick (R45, R324). -/
def Engine.afterReset (c : Cfg) : Engine c :=
  { ctrl := .reset _, run := .reset _, synth := .reset _, hop := .reset _ _, dl := .fresh c.nb _,
    ports := .quiet _ _ _, outs := .afterReset c, draws := 1 }

/-- The machine right after reset, for any configuration: every register at the reset value of its own rule, no
line to come. -/
def State.resetOf (c : Cfg) : State := { cfg := c, engine := .afterReset c, script := [] }

/-- The machine right after reset, in configuration T of spec/95_test_vectors.md. Log 1. -/
def State.reset : State := .resetOf .t

end Sys2Proof.Machine
end

