-- ==== Sys2Proof/Machine/Flags.lean ====
section
/-! DEFINITION. The combinational signals and comparisons (spec/10_state.md R29): the run flag, the handshake, the
signed comparison of the sweep, the saturation. CORE has no condition codes and no sticky flag (R29). -/

namespace Sys2Proof.Machine

/-- `is_running = cont OR pulse` (spec/42_chirp_lfm.md R158). -/
def RunState.isRunning {pw : Nat} (r : RunState pw) : Bool := r.cont || r.pulse

/-- `valid_out = is_running`, in every mode (spec/45_stream_handshake.md R210). -/
def RunState.validOut {pw : Nat} (r : RunState pw) : Bool := r.isRunning

/-- `xfer = valid_out AND ready_in` (R211). -/
def xfer (validOut readyIn : Bool) : Bool := validOut && readyIn

/-- `a >=s b`, the signed comparison of two patterns (spec/00_scope.md R18). -/
def geSigned {w : Nat} (a b : Word w) : Bool := decide (b.toInt ≤ a.toInt)

/-- `sat(v)`: the clamp to the signed range of `sampleW` bits (spec/43_dual_tone.md R187). -/
def sat (sampleW : Nat) (v : Int) : Sample :=
  if 2 ^ (sampleW - 1) - 1 < v then 2 ^ (sampleW - 1) - 1
  else if v < -2 ^ (sampleW - 1) then -2 ^ (sampleW - 1)
  else v

/-- `start_c = cmd[0]` (spec/42_chirp_lfm.md). -/
def startC (cmd : BitVec 3) : Bool := cmd.getLsbD 0

/-- `stop_c = cmd[1]`. -/
def stopC (cmd : BitVec 3) : Bool := cmd.getLsbD 1

/-- `start_p = cmd[2]`. -/
def startP (cmd : BitVec 3) : Bool := cmd.getLsbD 2

/-- `chirp_sel = (mode = 01)` (spec/42_chirp_lfm.md). -/
def chirpSel (mode : BitVec 2) : Bool := mode == 1

/-- `dual_sel = (mode = 10)` (spec/43_dual_tone.md). -/
def dualSel (mode : BitVec 2) : Bool := mode == 2

/-- `bus_addr[1:0] = 00` (spec/20_memory.md R63). -/
def wordAligned (addr : BitVec 4) : Bool := addr.toNat % 4 == 0

end Sys2Proof.Machine
end

