-- ==== Sys2Proof/WellFormed.lean ====
section
/-! DEFINITION. Which operations an instance's input ports can carry: every operand fits its port
(spec/70_reset_and_hazards.md R338), and the general control word is written under its alias's name when it is one
of the alias's words (spec/30_encoding.md R106). -/

namespace Sys2Proof

/-- A number that fits a port of `n` bits (R338). -/
def fitsPort (n v : Nat) : Bool := decide (v < 2 ^ n)

/-- The three command bits of a control word (R93). -/
def commandBits (data : Nat) : Nat := data % 8

/-- A control word that an alias row names: exactly one command bit, or none (R106). -/
def isAliasWord (data : Nat) : Bool :=
  commandBits data == 0 || commandBits data == 1 || commandBits data == 2 || commandBits data == 4

namespace Instr

/-- Every operand of the operation fits its port (R15, R338). An alias's `upper` is `data[W-1:3]`. -/
def operandsFit (c : Config) : Instr → Bool
  | .wrCtrl d | .wrTwmin d | .wrTwmax d | .wrStep d => fitsPort c.w d
  | .rdStatus d | .rdTwmin d | .rdTwmax d | .rdStep d => fitsPort c.w d
  | .busMisalignedA _ _ d | .busMisalignedB _ _ d => fitsPort c.w d
  | .startCont u | .stopCont u | .startPulse u | .ctrlNop u => fitsPort (c.w - 3) u
  | .modeIdle | .modeChirp | .modeDual | .modeRsvd3 => true
  | .stall | .accept => true
  | .hopHold => true
  | .hopRun f0 f1 f2 b => fitsPort c.w f0 && fitsPort c.w f1 && fitsPort c.w f2 && fitsPort c.hopCntW b
  | .dlIdle | .dlRd => true
  | .dlWr d | .dlWrrd d => fitsPort c.dataW d
  | .run | .reset => true

/-- The operation goes under the most specific name the opcode table has for it: `wrCtrl` is used only for the
control words that no alias row matches. Log 6. -/
def canonicalName : Instr → Bool
  | .wrCtrl d => !isAliasWord d
  | _ => true

/-- A well-formed operation of an instance with parameters `c`. -/
def wellFormed (c : Config) (i : Instr) : Bool := i.operandsFit c && i.canonicalName

end Instr

end Sys2Proof
end

