-- ==== Sys2Proof/Decode.lean ====
section
/-! DEFINITION. The decoder of the six input fields (spec/30_encoding.md R91 to R100) and, after it, the encoder
written from the same tables. -/

namespace Sys2Proof

/-- The `we` bit of a bus word, bit `W+4` (R91). -/
def busWe (w x : Nat) : Bool := x / 2 ^ (w + 4) % 2 == 1

/-- The `addr` field of a bus word, bits `W+3` to `W` (R91). -/
def busAddr (w x : Nat) : Nat := x / 2 ^ w % 16

/-- The `data` field of a bus word, bits `W-1` to 0 (R91). -/
def busData (w x : Nat) : Nat := x % 2 ^ w

/-- The operation of a control word: its alias's name where one matches (R106), else `WR_CTRL`. -/
def controlWord (data : Nat) : Instr :=
  match commandBits data with
  | 0 => .ctrlNop (data / 8)
  | 1 => .startCont (data / 8)
  | 2 => .stopCont (data / 8)
  | 4 => .startPulse (data / 8)
  | _ => .wrCtrl data

/-- The operation at a word-aligned address: `addr[3:2]` selects the word, `we` the direction (R92). -/
def alignedOp (we : Bool) (index data : Nat) : Instr :=
  match we, index with
  | true, 0 => controlWord data
  | true, 1 => .wrTwmin data
  | true, 2 => .wrTwmax data
  | true, _ => .wrStep data
  | false, 0 => .rdStatus data
  | false, 1 => .rdTwmin data
  | false, 2 => .rdTwmax data
  | false, _ => .rdStep data

/-- Decode of the bus word (R92, R106): `addr[0] = 1` and `addr[1:0] = 10` are the two misaligned patterns. -/
def decodeBus (w x : Nat) : Instr :=
  let we := busWe w x
  let a := busAddr w x
  let d := busData w x
  if a % 2 = 1 then .busMisalignedA we (BitVec.ofNat 3 (a / 2)) d
  else if a % 4 = 2 then .busMisalignedB we (BitVec.ofNat 2 (a / 4)) d
  else alignedOp we (a / 4) d

/-- Decode of one field (R90: each decoded on its own). Every number that fits the field's ports is an operation;
one that does not is rejected by name (R338). -/
def decode (c : Config) : Raw → Except Reject Instr
  | .bus x => if fitsPort (c.w + 5) x then .ok (decodeBus c.w x) else .error .busWordTooWide
  | .mode x =>
    match x with
    | 0 => .ok .modeIdle
    | 1 => .ok .modeChirp
    | 2 => .ok .modeDual
    | 3 => .ok .modeRsvd3
    | _ => .error .modeCodeTooWide
  | .rdy x =>
    match x with
    | 0 => .ok .stall
    | 1 => .ok .accept
    | _ => .error .readyCodeTooWide
  | .hop x f0 f1 f2 b =>
    if fitsPort c.w f0 && fitsPort c.w f1 && fitsPort c.w f2 && fitsPort c.hopCntW b then
      match x with
      | 0 => .ok .hopHold
      | 1 => .ok (.hopRun f0 f1 f2 b)
      | _ => .error .hopFieldTooWide
    else .error .hopFieldTooWide
  | .dl x d =>
    if fitsPort c.dataW d then
      match x with
      | 0 => .ok .dlIdle
      | 1 => .ok .dlRd
      | 2 => .ok (.dlWr d)
      | 3 => .ok (.dlWrrd d)
      | _ => .error .delayFieldTooWide
    else .error .delayFieldTooWide
  | .rst x =>
    match x with
    | 0 => .ok .run
    | 1 => .ok .reset
    | _ => .error .resetCodeTooWide

/-- Decode of several fields, in order; the first rejected field rejects them all. -/
def decodeAll (c : Config) : List Raw → Except Reject (List Instr)
  | [] => .ok []
  | r :: rs =>
    match decode c r with
    | .error e => .error e
    | .ok i =>
      match decodeAll c rs with
      | .error e => .error e
      | .ok is => .ok (i :: is)

/-- The operations a line presents. -/
def decodeLine (c : Config) (l : Line) : Except Reject (List Instr) := decodeAll c l.raws

/-! ## The encoder -/

/-- A bus word from its three fields (R91). -/
def busWord (w : Nat) (we : Bool) (addr data : Nat) : Nat :=
  (if we then 2 ^ (w + 4) else 0) + addr * 2 ^ w + data

/-- What stands on the ports when the operation is presented (R91 to R100). -/
def encode (c : Config) : Instr → Raw
  | .wrCtrl d => .bus (busWord c.w true 0x0 d)
  | .wrTwmin d => .bus (busWord c.w true 0x4 d)
  | .wrTwmax d => .bus (busWord c.w true 0x8 d)
  | .wrStep d => .bus (busWord c.w true 0xC d)
  | .rdStatus d => .bus (busWord c.w false 0x0 d)
  | .rdTwmin d => .bus (busWord c.w false 0x4 d)
  | .rdTwmax d => .bus (busWord c.w false 0x8 d)
  | .rdStep d => .bus (busWord c.w false 0xC d)
  | .busMisalignedA we hi d => .bus (busWord c.w we (2 * hi.toNat + 1) d)
  | .busMisalignedB we hi d => .bus (busWord c.w we (4 * hi.toNat + 2) d)
  | .startCont u => .bus (busWord c.w true 0x0 (8 * u + 1))
  | .stopCont u => .bus (busWord c.w true 0x0 (8 * u + 2))
  | .startPulse u => .bus (busWord c.w true 0x0 (8 * u + 4))
  | .ctrlNop u => .bus (busWord c.w true 0x0 (8 * u))
  | .modeIdle => .mode 0
  | .modeChirp => .mode 1
  | .modeDual => .mode 2
  | .modeRsvd3 => .mode 3
  | .stall => .rdy 0
  | .accept => .rdy 1
  | .hopHold => .hop 0 0 0 0 0
  | .hopRun f0 f1 f2 b => .hop 1 f0 f1 f2 b
  | .dlIdle => .dl 0 0
  | .dlRd => .dl 1 0
  | .dlWr d => .dl 2 d
  | .dlWrrd d => .dl 3 d
  | .run => .rst 0
  | .reset => .rst 1

/-! ## The table's words -/

/-- The field a word of the opcode table stands on, from its number of bits alone. A word of more than one byte is
the bus word. The five other formats are all one byte or less, and their words do not say which port they are for
(R90, R91: the ports tell them apart), so a short word is read on the first port of R106's list that is wide enough:
`mode`, or `ready_in` where only one bit is claimed. Log 5. -/
def tableRaw (nbits x : Nat) : Raw :=
  if 8 < nbits then .bus x else if nbits = 1 then .rdy x else .mode x

/-- What the decoder reads from a word of the opcode table. The table is for `W = 32` (R91), the `W` of
configuration T; an operation a word of the table names has its operand ports at 0. -/
def decodeTableWord (nbits w : Nat) : Option Instr :=
  match decode Config.paramsT (tableRaw nbits w) with
  | .ok i => some i
  | .error _ => none

end Sys2Proof
end

