-- ==== Sys2Proof/Machine/Operands.lean ====
section
/-! DEFINITION. The operand forms: how an operation's value and operands come onto the input ports
(spec/30_encoding.md R91 to R100), what the ports fall back to after a tick (R104), and the table reads that turn a
phase into samples (spec/40_nco_core.md R123, R124). -/

namespace Sys2Proof.Machine

/-! ## Driving the ports -/

/-- The bus ports carry `we`, the byte address and the data (R91). -/
def Ports.driveBus {w hw dw : Nat} (p : Ports w hw dw) (we : Bool) (addr : BitVec 4) (data : Nat) : Ports w hw dw :=
  { p with busWe := we, busAddr := addr, busWdata := BitVec.ofNat w data }

/-- The mode port carries a code (R96). -/
def Ports.driveMode {w hw dw : Nat} (p : Ports w hw dw) (m : BitVec 2) : Ports w hw dw := { p with mode := m }

/-- The ready port (R97). -/
def Ports.driveReady {w hw dw : Nat} (p : Ports w hw dw) (b : Bool) : Ports w hw dw := { p with readyIn := b }

/-- `hop_en = 0`; the operand ports keep their levels, which nothing reads in this tick (R98, R145). -/
def Ports.driveHopHold {w hw dw : Nat} (p : Ports w hw dw) : Ports w hw dw := { p with hopEn := false }

/-- `hop_en = 1` with the three words and the bound (R98). -/
def Ports.driveHopRun {w hw dw : Nat} (p : Ports w hw dw) (f0 f1 f2 b : Nat) : Ports w hw dw :=
  { p with hopEn := true, hopFw0 := BitVec.ofNat w f0, hopFw1 := BitVec.ofNat w f1, hopFw2 := BitVec.ofNat w f2,
           hopBound := BitVec.ofNat hw b }

/-- The delay-line enables and `dl_din` (R99). -/
def Ports.driveDelay {w hw dw : Nat} (p : Ports w hw dw) (wr rd : Bool) (din : Nat) : Ports w hw dw :=
  { p with dlWrEn := wr, dlRdEn := rd, dlDin := BitVec.ofNat dw din }

/-- The reset port (R100). -/
def Ports.driveRst {w hw dw : Nat} (p : Ports w hw dw) (b : Bool) : Ports w hw dw := { p with rst := b }

/-- The ports after a tick: the pulse fields (bus, delay line, reset) fall back to their defaults, the level fields
keep their values (R104). Log 2. -/
def Ports.relax {w hw dw : Nat} (p : Ports w hw dw) : Ports w hw dw :=
  { p with rst := false, busWe := false, busAddr := 0, busWdata := 0, dlWrEn := false, dlRdEn := false, dlDin := 0 }

/-- The ports with an operation presented: its field's ports carry its value, the others are left as they are
(R90). The aliases of `WR_CTRL` put the control word with their one command bit on the bus (R105, R106). -/
def Ports.drive {w hw dw : Nat} (p : Ports w hw dw) (i : Instr) : Ports w hw dw :=
  match i with
  | .wrCtrl d => p.driveBus true 0x0 d
  | .wrTwmin d => p.driveBus true 0x4 d
  | .wrTwmax d => p.driveBus true 0x8 d
  | .wrStep d => p.driveBus true 0xC d
  | .rdStatus d => p.driveBus false 0x0 d
  | .rdTwmin d => p.driveBus false 0x4 d
  | .rdTwmax d => p.driveBus false 0x8 d
  | .rdStep d => p.driveBus false 0xC d
  | .busMisalignedA we hi d => p.driveBus we (BitVec.ofNat 4 (2 * hi.toNat + 1)) d
  | .busMisalignedB we hi d => p.driveBus we (BitVec.ofNat 4 (4 * hi.toNat + 2)) d
  | .startCont u => p.driveBus true 0x0 (8 * u + 1)
  | .stopCont u => p.driveBus true 0x0 (8 * u + 2)
  | .startPulse u => p.driveBus true 0x0 (8 * u + 4)
  | .ctrlNop u => p.driveBus true 0x0 (8 * u)
  | .modeIdle => p.driveMode 0
  | .modeChirp => p.driveMode 1
  | .modeDual => p.driveMode 2
  | .modeRsvd3 => p.driveMode 3
  | .stall => p.driveReady false
  | .accept => p.driveReady true
  | .hopHold => p.driveHopHold
  | .hopRun f0 f1 f2 b => p.driveHopRun f0 f1 f2 b
  | .dlIdle => p.driveDelay false false 0
  | .dlRd => p.driveDelay false true 0
  | .dlWr d => p.driveDelay true false d
  | .dlWrrd d => p.driveDelay true true d
  | .run => p.driveRst false
  | .reset => p.driveRst true

/-- The engine with other values on its input ports. -/
def Engine.withPorts {c : Cfg} (e : Engine c) (p : Ports c.w c.hopCntW c.dataW) : Engine c := { e with ports := p }

/-- The state with an operation presented on its input ports. -/
def present (i : Instr) (s : State) : State :=
  { s with engine := s.engine.withPorts (s.engine.ports.drive i) }

/-! ## Table reads -/

/-- `a(p) = p >> (W - LUT_AW)`: the top `LUT_AW` bits of the phase (R123). -/
def tableAddr (c : Cfg) (p : Word c.w) : Nat := p.toNat / 2 ^ (c.w - c.lutAw)

/-- `TABLE[i]` (R14, R18). -/
def tableRead (c : Cfg) (i : Nat) : Sample := c.table.getD i 0

/-- `sin_rd(p) = TABLE[a(p)]`, the quadrature sample (R124). -/
def sinRd (c : Cfg) (p : Word c.w) : Sample := tableRead c (tableAddr c p)

/-- `cos_rd(p) = TABLE[(a(p) + SIZE/4) mod SIZE]`, the in-phase sample (R124). -/
def cosRd (c : Cfg) (p : Word c.w) : Sample := tableRead c ((tableAddr c p + c.size / 4) % c.size)

end Sys2Proof.Machine
end

