-- ==== Sys2Proof/Machine/Ops.lean ====
section
/-! DEFINITION. The shared operations: the register bus, the run-state machine, the chirp and tone accumulators, the
hop controller, the delay line, the outputs, reset, and the tick that runs them all on one snapshot
(spec/00_scope.md R17, spec/10_state.md R20, spec/70_reset_and_hazards.md R332). -/

namespace Sys2Proof.Machine

/-! ## Control register file (spec/47_register_bus.md) -/

/-- The writes of one tick: R261 (the command latch is loaded by a write of the control word and cleared in every
other tick), R262, R263, R264. -/
def CtrlRegs.next {w hw dw : Nat} (k : CtrlRegs w) (p : Ports w hw dw) : CtrlRegs w :=
  { cmd := if p.busWe && p.busAddr == 0x0 then BitVec.ofNat 3 p.busWdata.toNat else 0
    twMin := if p.busWe && p.busAddr == 0x4 then p.busWdata else k.twMin
    twMax := if p.busWe && p.busAddr == 0x8 then p.busWdata else k.twMax
    chirpStep := if p.busWe && p.busAddr == 0xC then p.busWdata else k.chirpStep }

/-- The status word: `is_running` in bit 0, the other bits 0 (spec/10_state.md R25, R94). -/
def statusWord (w : Nat) (running : Bool) : Word w := if running then 1 else 0

/-- `bus_rdata` for an address: R265 to R268, also during a write (R269). At an address that is not word-aligned
the spec defines none (R63, R335). -/
def busRead {w pw : Nat} (k : CtrlRegs w) (r : RunState pw) (addr : BitVec 4) : Option (Word w) :=
  if addr = 0x0 then some (statusWord w r.isRunning)
  else if addr = 0x4 then some k.twMin
  else if addr = 0x8 then some k.twMax
  else if addr = 0xC then some k.chirpStep
  else none

/-! ## Run-state machine (spec/42_chirp_lfm.md section 1) -/

/-- The continuous-run latch: stop wins (R155). -/
def contNext (cont : Bool) (cmd : BitVec 3) : Bool :=
  if stopC cmd then false else if startC cmd then true else cont

/-- The timed pulse: a start command sets it and zeroes the count (R156), with priority over the timer (R157). -/
def pulseNext {pw : Nat} (pulseLen : Nat) (cmd : BitVec 3) (pulse : Bool) (cnt : Word pw) : Bool × Word pw :=
  if startP cmd then (true, 0)
  else if pulse then
    if cnt = BitVec.ofNat pw pulseLen then (false, cnt) else (true, cnt + 1)
  else (pulse, cnt)

/-- The run state after one tick: the two latches never influence each other (R159). -/
def RunState.next {pw : Nat} (r : RunState pw) (pulseLen : Nat) (cmd : BitVec 3) : RunState pw :=
  let q := pulseNext pulseLen cmd r.pulse r.pulseCnt
  { cont := contNext r.cont cmd, pulse := q.1, pulseCnt := q.2 }

/-! ## Accumulators -/

/-- `NCO_ADV`: an enabled phase accumulator advances by the frequency word modulo `2^W`, a disabled one holds
(spec/40_nco_core.md R125). -/
def ncoAdv {w : Nat} (en : Bool) (phase fw : Word w) : Word w := if en then phase + fw else phase

/-- The frequency part of `CHIRP_ADV` (spec/42_chirp_lfm.md R165). -/
def sweepNext {w : Nat} (k : CtrlRegs w) (freqAcc : Word w) : Word w :=
  if geSigned freqAcc k.twMax then k.twMin else freqAcc + k.chirpStep

/-- The priority chain for `freq_acc` and `phase_c` (R173): idle forcing (R163), the mode-switch policy (R167),
`CHIRP_ADV` (R164, R165), hold (R166). -/
def chirpNext {w : Nat} (policy : Bool) (k : CtrlRegs w) (running xf : Bool) (mode : BitVec 2)
    (freqAcc phaseC : Word w) : Word w × Word w :=
  if !running then (k.twMin, 0)
  else if policy && !chirpSel mode then (k.twMin, 0)
  else if chirpSel mode && xf then (sweepNext k freqAcc, ncoAdv true phaseC freqAcc)
  else (freqAcc, phaseC)

/-- The priority chain for `phase_1` and `phase_2` (spec/43_dual_tone.md R194): the mode-switch policy (R189),
`DUAL_ADV` (R185), hold (R190). -/
def toneNext {w : Nat} (policy : Bool) (k : CtrlRegs w) (xf : Bool) (mode : BitVec 2)
    (phase1 phase2 : Word w) : Word w × Word w :=
  if policy && !dualSel mode then (0, 0)
  else if dualSel mode && xf then (ncoAdv true phase1 k.twMin, ncoAdv true phase2 k.twMax)
  else (phase1, phase2)

/-- The sample counter counts transfers, when the instance has it (spec/45_stream_handshake.md R216). -/
def sampleCntNext {w : Nat} (present xf : Bool) (n : Word w) : Word w := if present && xf then n + 1 else n

/-- The synthesis accumulators after one tick. -/
def SynthAcc.next {w hw dw pw : Nat} (a : SynthAcc w) (policy counter : Bool) (k : CtrlRegs w) (r : RunState pw)
    (p : Ports w hw dw) : SynthAcc w :=
  let xf := xfer r.validOut p.readyIn
  let ch := chirpNext policy k r.isRunning xf p.mode a.freqAcc a.phaseC
  let tn := toneNext policy k xf p.mode a.phase1 a.phase2
  { freqAcc := ch.1, phaseC := ch.2, phase1 := tn.1, phase2 := tn.2,
    sampleCnt := sampleCntNext counter xf a.sampleCnt }

/-! ## Hop NCO (spec/41_freq_hop.md) -/

/-- `fw_sel`: states 1 and 2 select words 1 and 2, states 0 and 3 word 0 (R140). -/
def fwSel {w : Nat} (hopState : BitVec 2) (fw0 fw1 fw2 : Word w) : Word w :=
  if hopState = 1 then fw1 else if hopState = 2 then fw2 else fw0

/-- The hop NCO after one tick: `HOP_RUN` (R141 to R144) or `HOP_HOLD` (R145). -/
def HopNco.next {w hw dw : Nat} (h : HopNco w hw) (p : Ports w hw dw) : HopNco w hw :=
  if p.hopEn then
    let phase := ncoAdv true h.hopPhase (fwSel h.hopState p.hopFw0 p.hopFw1 p.hopFw2)
    if p.hopBound.toNat ≤ h.dwellCnt.toNat then
      { hopState := h.hopState + 1, dwellCnt := 0, hopPhase := phase }
    else
      { hopState := h.hopState, dwellCnt := h.dwellCnt + 1, hopPhase := phase }
  else h

/-! ## Delay memory -/

/-- What has been written at pointer `q`, if anything has. -/
def DelayMem.written {dw : Nat} (m : DelayMem dw) (q : Nat) : Option (Word dw) :=
  match m with
  | [] => none
  | (a, v) :: rest => if a = q then some v else DelayMem.written rest q

/-- `MemWrite`: the entry at `q` is overwritten in place, no other changes (R228). -/
def DelayMem.write {dw : Nat} (m : DelayMem dw) (q : Nat) (v : Word dw) : DelayMem dw :=
  match m with
  | [] => [(q, v)]
  | (a, u) :: rest =>
    if q < a then (q, v) :: (a, u) :: rest
    else if a = q then (q, v) :: rest
    else (a, u) :: DelayMem.write rest q v

/-- `MemRead`: the content of the entry at `q`; one that nothing has written since construction holds the free
value of its pointer (spec/10_state.md R39, U7). Log 8. -/
def DelayMem.read {dw : Nat} (m : DelayMem dw) (q : Nat) : Word dw := (m.written q).getD (Config.anyEntry dw q)

/-- Every pointer of the list is above `lo`, and they rise strictly. -/
def DelayMem.risingFrom {dw : Nat} (lo : Nat) (m : DelayMem dw) : Bool :=
  match m with
  | [] => true
  | (a, _) :: rest => decide (lo ≤ a) && DelayMem.risingFrom (a + 1) rest

/-- The canonical form: pointers strictly rising. An unlisted pointer has no written content and a listed one has,
so no entry equals what an unlisted one holds, and equal contents are equal lists. -/
def DelayMem.wf {dw : Nat} (m : DelayMem dw) : Bool := DelayMem.risingFrom 0 m

/-! ## Delay line (spec/46_banked_delay_line.md) -/

/-- `bank(p) = p div BANK_DEPTH` (spec/20_memory.md R67). -/
def bankOf (c : Cfg) (p : Nat) : Nat := p / c.bankDepth

/-- `row(p) = p mod BANK_DEPTH` (R67). -/
def rowOf (c : Cfg) (p : Nat) : Nat := p % c.bankDepth

/-- The inverse: `p = bank * BANK_DEPTH + row` (R67). -/
def pointerOf (c : Cfg) (bank row : Nat) : Nat := bank * c.bankDepth + row

/-- `rptr = (wptr - DELAY) mod TOTAL` (R226). -/
def readPtr (c : Cfg) (wptr : Nat) : Nat := (((wptr : Int) - (c.delay : Int)) % (c.total : Int)).toNat

/-- `we[b]` (R227). -/
def writeEn (c : Cfg) (p : Ports c.w c.hopCntW c.dataW) (wptr b : Nat) : Bool :=
  p.dlWrEn && bankOf c wptr == b && !p.rst

/-- `re[b]` (R227). -/
def readEn (c : Cfg) (p : Ports c.w c.hopCntW c.dataW) (wptr b : Nat) : Bool :=
  p.dlRdEn && bankOf c (readPtr c wptr) == b && !p.rst

/-- `BANK[b][row]` (R39), through the one list of entries by pointer (R242). -/
def bankEntry (c : Cfg) (m : DelayMem c.dataW) (b row : Nat) : Word c.dataW := m.read (pointerOf c b row)

/-- The write of R228 into the bank that is enabled, if one is. -/
def bankWrite (c : Cfg) (p : Ports c.w c.hopCntW c.dataW) (d : DelayLine c.dataW) : DelayMem c.dataW :=
  match (List.range c.nb).find? (writeEn c p d.wptr) with
  | some b => d.bank.write (pointerOf c b (rowOf c d.wptr)) p.dlDin
  | none => d.bank

/-- `mux`: the registered output of the bank read in the previous tick, or, when there was none, the `n`-th free
draw; with it the number of draws made so far (R236). -/
def mux (c : Cfg) (d : DelayLine c.dataW) (n : Nat) : Word c.dataW × Nat :=
  match (List.range c.nb).find? (fun b => d.reQ.getD b false) with
  | some b => (d.bankQ.getD b 0, n)
  | none => (Config.anyMux c.dataW n, n + 1)

/-- The delay line after a tick without reset, all from the pre-step pointer: memory write (R228), write pointer
(R229), bank read (R230), registered enables (R231), output register (R237). -/
def DelayLine.next (c : Cfg) (d : DelayLine c.dataW) (p : Ports c.w c.hopCntW c.dataW) (muxed : Word c.dataW) :
    DelayLine c.dataW :=
  { wptr := if p.dlWrEn then (d.wptr + 1) % c.total else d.wptr
    bank := bankWrite c p d
    reQ := (List.range c.nb).map (readEn c p d.wptr)
    bankQ := (List.range c.nb).map fun b =>
      if readEn c p d.wptr b then bankEntry c d.bank b (rowOf c (readPtr c d.wptr)) else d.bankQ.getD b 0
    doutReg := if c.outReg then muxed else d.doutReg }

/-- `dl_dout` (R237). -/
def dlDout (c : Cfg) (d : DelayLine c.dataW) (muxed : Word c.dataW) : Word c.dataW :=
  if c.outReg then d.doutReg else muxed

/-! ## Outputs -/

/-- `dual_i` or `dual_q`: the sum of two table values, exact, then saturated (spec/43_dual_tone.md R188). -/
def combine (sampleW : Nat) (a b : Sample) : Sample := sat sampleW (a + b)

/-- `(out_i, out_q)`, selected by the tick's mode (spec/44_mode_select.md R201). -/
def selectSamples (c : Cfg) (mode : BitVec 2) (a : SynthAcc c.w) : Sample × Sample :=
  if chirpSel mode then (cosRd c a.phaseC, sinRd c a.phaseC)
  else if dualSel mode then
    (combine c.sampleW (cosRd c a.phase1) (cosRd c a.phase2), combine c.sampleW (sinRd c a.phase1) (sinRd c a.phase2))
  else (0, 0)

/-- The output ports (spec/00_scope.md R16), from the registers the tick shows, its mode, the bus read data and the
delay line's multiplexer. -/
def Engine.outputs {c : Cfg} (e : Engine c) (rdata : Word c.w) (muxed : Word c.dataW) : Outs c.w c.dataW :=
  let iq := selectSamples c e.ports.mode e.synth
  { busRdata := rdata
    isRunning := e.run.isRunning
    validOut := e.run.validOut
    outI := iq.1
    outQ := iq.2
    hopI := cosRd c e.hop.hopPhase
    hopQ := sinRd c e.hop.hopPhase
    dlDout := dlDout c e.dl muxed
    sampleCount := if c.sampleCntEn then some e.synth.sampleCnt else none }

/-! ## The tick -/

/-- The registers at their reset values; the delay memory and the bank outputs keep their contents
(spec/70_reset_and_hazards.md R320, R323). -/
def Engine.resetRegs {c : Cfg} (e : Engine c) : Engine c :=
  { e with ctrl := .reset _, run := .reset _, synth := .reset _, hop := .reset _ _, dl := e.dl.reset c.nb }

/-- The registers after a tick without reset: the five groups of R20, each from the same snapshot (R17, R332). -/
def Engine.advance {c : Cfg} (e : Engine c) (muxed : Word c.dataW) : Engine c :=
  { e with
    ctrl := e.ctrl.next e.ports
    run := e.run.next c.pulseLen e.ctrl.cmd
    synth := e.synth.next c.modeSwitchReset c.sampleCntEn e.ctrl e.run e.ports
    hop := e.hop.next e.ports
    dl := e.dl.next c e.ports muxed }

/-- What the outputs of a tick are computed from: the pre-step registers, and in a reset tick the reset values
(R321). -/
def Engine.shown {c : Cfg} (e : Engine c) : Engine c := if e.ports.rst then e.resetRegs else e

/-- One tick, given the bus read data: the outputs are those of the shown registers, the registers advance or are
reset (R320), the ports fall back (R104). -/
def Engine.tick {c : Cfg} (e : Engine c) (rdata : Word c.w) : Engine c :=
  let v := e.shown
  let m := mux c v.dl e.draws
  let n := if e.ports.rst then v else v.advance m.1
  { n with outs := v.outputs rdata m.1, ports := e.ports.relax, draws := m.2 }

/-- The bus read data of this tick, when the address is word-aligned (R260, R269, R322). -/
def Engine.rdata {c : Cfg} (e : Engine c) : Option (Word c.w) :=
  busRead e.shown.ctrl e.shown.run e.ports.busAddr

/-- One tick with the ports as they stand (R17). An input tuple with a misaligned bus address is refused
(R63, R335). -/
def tick (s : State) : Host.Outcome State Fault Refusal :=
  match s.engine.rdata with
  | some r => .next { s with engine := s.engine.tick r }
  | none => .refused (.misalignedBusAddress s.engine.ports.busAddr)

/-- An operation executed: the tick in which its field carries it and every other port is as it stands (R90). An
operand that does not fit its port is refused (R338, U20). Log 3, log 13. -/
def perform (i : Instr) (s : State) : Host.Outcome State Fault Refusal :=
  if i.operandsFit s.cfg.raw then tick (present i s) else .refused .operandDoesNotFit

end Sys2Proof.Machine
end

