-- ==== Sys2Proof/Machine/BusRead.lean ====
section
/-! DEFINITION. The reads of the control register file (spec/47_register_bus.md R265 to R268) and the two misaligned patterns
(spec/20_memory.md R63). -/

namespace Sys2Proof.Machine

/-- `RD_STATUS` (R265), also `NOP` (R105): `bus_rdata` is the status word; `data` is ignored (R92). -/
def execRdStatus (data : Nat) (s : State) : Host.Outcome State Fault Refusal :=
  perform (.rdStatus data) s

/-- `RD_TWMIN` (R266): `bus_rdata` is `tw_min`. -/
def execRdTwmin (data : Nat) (s : State) : Host.Outcome State Fault Refusal :=
  perform (.rdTwmin data) s

/-- `RD_TWMAX` (R267): `bus_rdata` is `tw_max`. -/
def execRdTwmax (data : Nat) (s : State) : Host.Outcome State Fault Refusal :=
  perform (.rdTwmax data) s

/-- `RD_STEP` (R268): `bus_rdata` is `chirp_step`. -/
def execRdStep (data : Nat) (s : State) : Host.Outcome State Fault Refusal :=
  perform (.rdStep data) s

/-- `BUS_MISALIGNED_A` (R63, R335): `addr[0] = 1`; the tick refuses the input. -/
def execBusMisalignedA (we : Bool) (addrHi : BitVec 3) (data : Nat) (s : State) : Host.Outcome State Fault Refusal :=
  perform (.busMisalignedA we addrHi data) s

/-- `BUS_MISALIGNED_B` (R63, R335): `addr[1:0] = 10`; the tick refuses the input. -/
def execBusMisalignedB (we : Bool) (addrHi : BitVec 2) (data : Nat) (s : State) : Host.Outcome State Fault Refusal :=
  perform (.busMisalignedB we addrHi data) s

end Sys2Proof.Machine
end

