-- ==== Sys2Proof/Machine/BusWrite.lean ====
section
/-! DEFINITION. The writes of the control register file (spec/47_register_bus.md R261 to R264) and the aliases of the control word
(spec/42_chirp_lfm.md R155, R156; spec/30_encoding.md R105, R106). -/

namespace Sys2Proof.Machine

/-- `WR_CTRL` (R261): the tick loads `cmd` with `data[2:0]`; the status word is on `bus_rdata` (R269). The command bits
act in the next tick (spec/42_chirp_lfm.md R161). -/
def execWrCtrl (data : Nat) (s : State) : Host.Outcome State Fault Refusal :=
  perform (.wrCtrl data) s

/-- `WR_TWMIN` (R262): `tw_min <- data`; `bus_rdata` shows the old value (R269). -/
def execWrTwmin (data : Nat) (s : State) : Host.Outcome State Fault Refusal :=
  perform (.wrTwmin data) s

/-- `WR_TWMAX` (R263): `tw_max <- data`; `bus_rdata` shows the old value (R269). -/
def execWrTwmax (data : Nat) (s : State) : Host.Outcome State Fault Refusal :=
  perform (.wrTwmax data) s

/-- `WR_STEP` (R264): `chirp_step <- data`; `bus_rdata` shows the old value (R269). -/
def execWrStep (data : Nat) (s : State) : Host.Outcome State Fault Refusal :=
  perform (.wrStep data) s

/-- `START_CONT` (R155, R105): the control word with only `start_continuous` set, so `cmd` becomes 001. -/
def execStartCont (upper : Nat) (s : State) : Host.Outcome State Fault Refusal :=
  perform (.startCont upper) s

/-- `STOP_CONT` (R155, R105): the control word with only `stop_continuous` set, so `cmd` becomes 010. -/
def execStopCont (upper : Nat) (s : State) : Host.Outcome State Fault Refusal :=
  perform (.stopCont upper) s

/-- `START_PULSE` (R156, R105): the control word with only `start_timed_pulse` set, so `cmd` becomes 100. -/
def execStartPulse (upper : Nat) (s : State) : Host.Outcome State Fault Refusal :=
  perform (.startPulse upper) s

/-- `CTRL_NOP` (R261): the control word with no command bit set, so `cmd` becomes 0, as it would anyway (R102). -/
def execCtrlNop (upper : Nat) (s : State) : Host.Outcome State Fault Refusal :=
  perform (.ctrlNop upper) s

end Sys2Proof.Machine
end

