-- ==== Sys2Proof/Machine/Delay.lean ====
section
/-! DEFINITION. The four delay-line operations (spec/46_banked_delay_line.md). -/

namespace Sys2Proof.Machine

/-- `DL_IDLE` (R232): no write, no read. -/
def execDlIdle (s : State) : Host.Outcome State Fault Refusal :=
  perform .dlIdle s

/-- `DL_RD` (R233): the entry at the read pointer is loaded into its bank's output register. -/
def execDlRd (s : State) : Host.Outcome State Fault Refusal :=
  perform .dlRd s

/-- `DL_WR` (R234): `din` is written at the write pointer, which advances. -/
def execDlWr (din : Nat) (s : State) : Host.Outcome State Fault Refusal :=
  perform (.dlWr din) s

/-- `DL_WRRD` (R235): the write and the read, both from the pre-step pointer. -/
def execDlWrrd (din : Nat) (s : State) : Host.Outcome State Fault Refusal :=
  perform (.dlWrrd din) s

end Sys2Proof.Machine
end

