-- ==== Sys2Proof/Machine/Hop.lean ====
section
/-! DEFINITION. The frequency-hop controller (spec/41_freq_hop.md). -/

namespace Sys2Proof.Machine

/-- `HOP_HOLD` (R145): `hop_phase`, `dwell_cnt` and `hop_state` hold. -/
def execHopHold (s : State) : Host.Outcome State Fault Refusal :=
  perform .hopHold s

/-- `HOP_RUN` (R141): the hop phase accumulates and the dwell counter counts or hops (R142 to R144). -/
def execHopRun (fw0 : Nat) (fw1 : Nat) (fw2 : Nat) (bound : Nat) (s : State) : Host.Outcome State Fault Refusal :=
  perform (.hopRun fw0 fw1 fw2 bound) s

end Sys2Proof.Machine
end

