-- ==== Sys2Proof/Machine/Mode.lean ====
section
/-! DEFINITION. The mode selector (spec/44_mode_select.md). -/

namespace Sys2Proof.Machine

/-- `MODE_IDLE` (R202): zero samples, no accumulator advances. -/
def execModeIdle (s : State) : Host.Outcome State Fault Refusal :=
  perform .modeIdle s

/-- `MODE_CHIRP` (R203): the chirp samples; a transfer advances the chirp accumulators. -/
def execModeChirp (s : State) : Host.Outcome State Fault Refusal :=
  perform .modeChirp s

/-- `MODE_DUAL` (R204): the combined tones; a transfer advances the tone accumulators. -/
def execModeDual (s : State) : Host.Outcome State Fault Refusal :=
  perform .modeDual s

/-- `MODE_RSVD3` (R205): as `MODE_IDLE`. -/
def execModeRsvd3 (s : State) : Host.Outcome State Fault Refusal :=
  perform .modeRsvd3 s

end Sys2Proof.Machine
end

