-- ==== Sys2Proof/Machine/Reset.lean ====
section
/-! DEFINITION. The reset field (spec/30_encoding.md R100). -/

namespace Sys2Proof.Machine

/-- `RUN` (R17): a tick with `rst = 0`, every port as it stands. -/
def execRun (s : State) : Host.Outcome State Fault Refusal :=
  perform .run s

/-- `RESET` (spec/70_reset_and_hazards.md R320 to R323): every register takes its reset value, the outputs are those of
the reset state, the other fields have no effect on the state. -/
def execReset (s : State) : Host.Outcome State Fault Refusal :=
  perform .reset s

end Sys2Proof.Machine
end

