-- ==== Sys2Proof/Machine/Stream.lean ====
section
/-! DEFINITION. The stream gate (spec/45_stream_handshake.md). -/

namespace Sys2Proof.Machine

/-- `STALL` (R212): no transfer in this tick. -/
def execStall (s : State) : Host.Outcome State Fault Refusal :=
  perform .stall s

/-- `ACCEPT` (R213): the sample is transferred if `valid_out = 1`. -/
def execAccept (s : State) : Host.Outcome State Fault Refusal :=
  perform .accept s

end Sys2Proof.Machine
end

