-- ==== Sys2Proof/Machine/Dispatch.lean ====
section
/-! DEFINITION. The meaning of each operation, one arm per constructor. -/

namespace Sys2Proof.Machine

def exec (i : Instr) (s : State) : Host.Outcome State Fault Refusal :=
  match i with
  | .wrCtrl data => Sys2Proof.Machine.execWrCtrl data s
  | .wrTwmin data => Sys2Proof.Machine.execWrTwmin data s
  | .wrTwmax data => Sys2Proof.Machine.execWrTwmax data s
  | .wrStep data => Sys2Proof.Machine.execWrStep data s
  | .rdStatus data => Sys2Proof.Machine.execRdStatus data s
  | .rdTwmin data => Sys2Proof.Machine.execRdTwmin data s
  | .rdTwmax data => Sys2Proof.Machine.execRdTwmax data s
  | .rdStep data => Sys2Proof.Machine.execRdStep data s
  | .busMisalignedA we addrHi data => Sys2Proof.Machine.execBusMisalignedA we addrHi data s
  | .busMisalignedB we addrHi data => Sys2Proof.Machine.execBusMisalignedB we addrHi data s
  | .startCont upper => Sys2Proof.Machine.execStartCont upper s
  | .stopCont upper => Sys2Proof.Machine.execStopCont upper s
  | .startPulse upper => Sys2Proof.Machine.execStartPulse upper s
  | .ctrlNop upper => Sys2Proof.Machine.execCtrlNop upper s
  | .modeIdle => Sys2Proof.Machine.execModeIdle s
  | .modeChirp => Sys2Proof.Machine.execModeChirp s
  | .modeDual => Sys2Proof.Machine.execModeDual s
  | .modeRsvd3 => Sys2Proof.Machine.execModeRsvd3 s
  | .stall => Sys2Proof.Machine.execStall s
  | .accept => Sys2Proof.Machine.execAccept s
  | .hopHold => Sys2Proof.Machine.execHopHold s
  | .hopRun fw0 fw1 fw2 bound => Sys2Proof.Machine.execHopRun fw0 fw1 fw2 bound s
  | .dlIdle => Sys2Proof.Machine.execDlIdle s
  | .dlRd => Sys2Proof.Machine.execDlRd s
  | .dlWr din => Sys2Proof.Machine.execDlWr din s
  | .dlWrrd din => Sys2Proof.Machine.execDlWrrd din s
  | .run => Sys2Proof.Machine.execRun s
  | .reset => Sys2Proof.Machine.execReset s

end Sys2Proof.Machine
end

