-- ==== Sys2Proof/Machine/Fetch.lean ====
section
/-! DEFINITION. Taking the next line and running the operations it presents (spec/30_encoding.md R90, R104). -/

namespace Sys2Proof.Machine

/-- The operations of one tick, all presented, then the tick: every one but the last is put on its ports, and the
last is executed with them there. A line that presents nothing is a tick with `rst = 0` and every port as it
stands. Log 4. -/
def runLine (is : List Instr) (s : State) : Host.Outcome State Fault Refusal :=
  match is with
  | [] => exec .run s
  | [i] => exec i s
  | i :: j :: rest => runLine (j :: rest) (present i s)

/-- The line of the next tick and the state without it. With no line left the environment presents nothing. -/
def fetch (s : State) : Line × State :=
  match s.script with
  | [] => ({}, s)
  | l :: rest => (l, { s with script := rest })

/-- One tick: the next line is decoded and run. A word that does not fit its port is refused (R338). -/
def runNext (s : State) : Host.Outcome State Fault Refusal :=
  match decodeLine s.cfg.raw (fetch s).1 with
  | .ok is => runLine is (fetch s).2
  | .error r => .refused (.rejectedWord r)

/-- The script with `l` as the line of the next tick. -/
def placeLine (l : Line) (script : List Line) : List Line := l :: script.drop 1

end Sys2Proof.Machine
end

