-- ==== Sys2Proof/Machine/Step.lean ====
section
/-! DEFINITION. The step of the machine: one tick. -/

namespace Sys2Proof.Machine

/-- One tick of CORE with the next line of the script on its ports (spec/00_scope.md R3, R17). -/
def step (s : State) : Host.Outcome State Fault Refusal := runNext s

/-- `s` with the operation of a word of the opcode table as the only one of the next tick. Log 2, log 5. -/
def State.withFetchWord (s : State) (nbits w : Nat) : State :=
  { s with script := placeLine (Line.only (tableRaw nbits w)) s.script }

end Sys2Proof.Machine
end

