-- ==== Sys2Proof/Safety.lean ====
section
/-! DEFINITION. The terms claims are made in: the inputs the environment may present, the invariant of the registers,
operations executed tick after tick, and the smaller model of the delay line that spec/46_banked_delay_line.md R242
calls equivalent. -/

namespace Sys2Proof.Machine

/-! ## Legal inputs -/

/-- A line that meets the environment's obligations: every number fits its port (spec/70_reset_and_hazards.md R338)
and the bus address is word-aligned (R335). -/
def legalLine (c : Config) (l : Line) : Bool :=
  l.bus.all (fun x => fitsPort (c.w + 5) x && busAddr c.w x % 4 == 0) &&
  l.mode.all (fitsPort 2) && l.rdy.all (fitsPort 1) &&
  l.hop.all (fun h => fitsPort 1 h.word && fitsPort c.w h.fw0 && fitsPort c.w h.fw1 && fitsPort c.w h.fw2 &&
    fitsPort c.hopCntW h.bound) &&
  l.dl.all (fun d => fitsPort 2 d.word && fitsPort c.dataW d.din) &&
  l.rst.all (fitsPort 1)

/-- The ports stand so that a tick runs: no reset, and a word-aligned bus address (R335). -/
def Engine.Ready {c : Cfg} (e : Engine c) : Prop :=
  e.ports.rst = false ∧ wordAligned e.ports.busAddr = true

/-- The tick in which `i` is presented runs without reset: its operands fit, and with it on its ports `rst = 0` and
the bus address is word-aligned. A bus operation brings its own address, `RUN` its own `rst`. -/
def Engine.Runs {c : Cfg} (e : Engine c) (i : Instr) : Prop :=
  i.operandsFit c.raw = true ∧ (e.ports.drive i).rst = false ∧ wordAligned (e.ports.drive i).busAddr = true

/-! ## The invariant -/

/-- What holds of an instance after reset and after every tick. -/
structure Engine.Inv {c : Cfg} (e : Engine c) : Prop where
  /-- `wptr` is in `[0, TOTAL)` (spec/10_state.md R38). -/
  wptr_lt : e.dl.wptr < c.total
  /-- The delay memory is in canonical form. -/
  bank_wf : e.dl.bank.wf = true
  /-- Only entries of the delay memory are written (R60, R67). -/
  bank_lt : ∀ q, e.dl.bank.written q ≠ none → q < c.total
  /-- `re_q` has one bit per bank (R40). -/
  reQ_length : e.dl.reQ.length = c.nb
  /-- At most one bit of `re_q` is set (R40). -/
  reQ_one : ∀ b b', e.dl.reQ.getD b false = true → e.dl.reQ.getD b' false = true → b = b'
  /-- One registered read output per bank (R42). -/
  bankQ_length : e.dl.bankQ.length = c.nb
  /-- "the counter never exceeds `PULSE_LEN`" (spec/42_chirp_lfm.md R157). -/
  pulseCnt_le : e.run.pulseCnt.toNat ≤ c.pulseLen
  /-- The sample counter of an instance without one (log 14). -/
  sampleCnt_absent : c.sampleCntEn = false → e.synth.sampleCnt = 0
  /-- The output register of an instance without one (log 14). -/
  doutReg_absent : c.outReg = false → e.dl.doutReg = 0
  /-- The pulse fields of the input ports are at their defaults between ticks (spec/30_encoding.md R104, log 2). -/
  rst_low : e.ports.rst = false
  bus_idle : e.ports.busWe = false ∧ e.ports.busAddr = 0
  dl_idle : e.ports.dlWrEn = false ∧ e.ports.dlRdEn = false

/-- The invariant of a state. -/
def State.Inv (s : State) : Prop := s.engine.Inv

/-! ## Tick after tick -/

/-- The operation puts `start_timed_pulse` into the command latch (R93, R156). -/
def startsPulse : Instr → Bool
  | .wrCtrl d => d.testBit 2
  | .startPulse _ => true
  | _ => false

/-- The operation is one of the two refused bus patterns (R63). -/
def misaligned : Instr → Bool
  | .busMisalignedA _ _ _ | .busMisalignedB _ _ _ => true
  | _ => false

/-- The operations `f 0`, …, `f (n-1)`, one a tick. -/
def execSeq (f : Nat → Instr) (n : Nat) (s : State) : Host.Outcome State Fault Refusal :=
  match n with
  | 0 => .next s
  | k + 1 =>
    match execSeq f k s with
    | .next t => exec (f k) t
    | .fault r => .fault r
    | .refused r => .refused r

/-- The same operation in `n` consecutive ticks. -/
def execTimes (i : Instr) (n : Nat) (s : State) : Host.Outcome State Fault Refusal := execSeq (fun _ => i) n s

/-! ## The smaller model of the delay line (R242) -/

/-- The delay line with one valid bit and one data register in place of `re_q` and `bank_q` (R242). -/
structure SmallDelay (dw : Nat) where
  wptr : Nat
  mem : DelayMem dw
  rdValid : Bool
  rdData : Word dw
  doutReg : Word dw
deriving DecidableEq, Repr

/-- The smaller model after reset: pointer, valid bit and output register 0, memory and data register kept (R320). -/
def SmallDelay.reset {dw : Nat} (d : SmallDelay dw) : SmallDelay dw :=
  { d with wptr := 0, rdValid := false, doutReg := 0 }

/-- What a tick with reset input `rst` shows and starts from (R321). -/
def SmallDelay.shown {dw : Nat} (d : SmallDelay dw) (rst : Bool) : SmallDelay dw := if rst then d.reset else d

/-- `mux = rd_valid_q ? rd_data_q : ANY` (R242), with the count of draws. -/
def SmallDelay.mux (c : Cfg) (d : SmallDelay c.dataW) (n : Nat) : Word c.dataW × Nat :=
  if d.rdValid then (d.rdData, n) else (Config.anyMux c.dataW n, n + 1)

/-- `dl_dout` of the smaller model, from what the multiplexer carries (R237). -/
def SmallDelay.dout (c : Cfg) (d : SmallDelay c.dataW) (muxed : Word c.dataW) : Word c.dataW :=
  if c.outReg then d.doutReg else muxed

/-- One tick of the smaller model, its memory one array indexed by pointer; a reset tick neither writes nor reads
(R242, R320, R323). -/
def SmallDelay.next (c : Cfg) (d : SmallDelay c.dataW) (p : Ports c.w c.hopCntW c.dataW) (muxed : Word c.dataW) :
    SmallDelay c.dataW :=
  if p.rst then d.reset
  else
    { wptr := if p.dlWrEn then (d.wptr + 1) % c.total else d.wptr
      mem := if p.dlWrEn then d.mem.write d.wptr p.dlDin else d.mem
      rdValid := p.dlRdEn
      rdData := if p.dlRdEn then d.mem.read (readPtr c d.wptr) else d.rdData
      doutReg := if c.outReg then muxed else d.doutReg }

/-- The smaller model stands for the banked one: same pointer, memory and output register; a read is pending in one
exactly when it is in the other, and then the data registers agree. -/
def SmallDelay.Simulates {c : Cfg} (m : SmallDelay c.dataW) (d : DelayLine c.dataW) : Prop :=
  m.wptr = d.wptr ∧ m.mem = d.bank ∧ m.doutReg = d.doutReg ∧
  (m.rdValid = true ↔ ∃ b, b < c.nb ∧ d.reQ.getD b false = true) ∧
  ∀ b, b < c.nb → d.reQ.getD b false = true → d.bankQ.getD b 0 = m.rdData

end Sys2Proof.Machine
end

