-- ==== Sys2Proof/Certificates/Slice0/Obligations.lean ====
section
/-! DEFINITION. What is to be proved of the model. In every statement `c` is the configuration of any constructed
instance, `e` what it holds, `scr` the lines still to come. -/

open Sys2Proof Sys2Proof.Machine

/-! ## Encoding -/

/-- Decode and encode agree, for every operation and every operand its ports admit (R91 to R100, R106). The choice
of an alias's name over `WR_CTRL` is the model's (log 6). -/
def Obligations.DecodeOfEncodeIsTheOperation : Prop :=
  ∀ (p : Config) (i : Instr), 3 ≤ p.w → i.wellFormed p = true → decode p (encode p i) = .ok i

/-- Every bus word of `W+5` bits is one well-formed operation, and no bit of it is dropped (R91, R92, R106). -/
def Obligations.EveryBusWordIsOneOperation : Prop :=
  ∀ (p : Config) (x : Nat), 3 ≤ p.w → x < 2 ^ (p.w + 5) →
    ∃ i, decode p (.bus x) = .ok i ∧ i.wellFormed p = true ∧ encode p i = .bus x

/-- A few words of spec/95_test_vectors.md section 2.10 and of the mode field (R96) read as what they stand for. -/
def Obligations.ListedWordsReadAsTheirOperations : Prop :=
  decodeTableWord 40 0x1000000001 = some (.startCont 0) ∧
  decodeTableWord 40 0x1000000007 = some (.wrCtrl 7) ∧
  decodeTableWord 40 0x10FFFFFFF8 = some (.ctrlNop 0x1FFFFFFF) ∧
  decodeTableWord 40 0x1410000000 = some (.wrTwmin 0x10000000) ∧
  decodeTableWord 40 0x18FFFFFFFF = some (.wrTwmax 0xFFFFFFFF) ∧
  decodeTableWord 40 0x1C00010000 = some (.wrStep 0x10000) ∧
  decodeTableWord 40 0x0400000000 = some (.rdTwmin 0) ∧
  decodeTableWord 40 0x0600000000 = some (.busMisalignedB false 1 0) ∧
  decodeTableWord 8 0x2 = some .modeDual

/-- For `W = 32`, a bus word that matches a row of spec/opcode_table.json under its mask is read as that row's
operation with the word's own data; the row of `WR_CTRL` where no alias row matches (R106, log 6). -/
def Obligations.BusWordsReadAsTheirTableRows : Prop :=
  ∀ x : Nat, x < 2 ^ 37 →
    (x &&& 0x1F00000000 = 0x1400000000 → decodeTableWord 40 x = some (.wrTwmin (x % 2 ^ 32))) ∧
    (x &&& 0x1F00000000 = 0x1800000000 → decodeTableWord 40 x = some (.wrTwmax (x % 2 ^ 32))) ∧
    (x &&& 0x1F00000000 = 0x1C00000000 → decodeTableWord 40 x = some (.wrStep (x % 2 ^ 32))) ∧
    (x &&& 0x1F00000000 = 0x0000000000 → decodeTableWord 40 x = some (.rdStatus (x % 2 ^ 32))) ∧
    (x &&& 0x1F00000000 = 0x0400000000 → decodeTableWord 40 x = some (.rdTwmin (x % 2 ^ 32))) ∧
    (x &&& 0x1F00000000 = 0x0800000000 → decodeTableWord 40 x = some (.rdTwmax (x % 2 ^ 32))) ∧
    (x &&& 0x1F00000000 = 0x0C00000000 → decodeTableWord 40 x = some (.rdStep (x % 2 ^ 32))) ∧
    (x &&& 0x0100000000 = 0x0100000000 →
      ∃ we hi, decodeTableWord 40 x = some (.busMisalignedA we hi (x % 2 ^ 32))) ∧
    (x &&& 0x0300000000 = 0x0200000000 →
      ∃ we hi, decodeTableWord 40 x = some (.busMisalignedB we hi (x % 2 ^ 32))) ∧
    (x &&& 0x1F00000007 = 0x1000000001 → decodeTableWord 40 x = some (.startCont (x % 2 ^ 32 / 8))) ∧
    (x &&& 0x1F00000007 = 0x1000000002 → decodeTableWord 40 x = some (.stopCont (x % 2 ^ 32 / 8))) ∧
    (x &&& 0x1F00000007 = 0x1000000004 → decodeTableWord 40 x = some (.startPulse (x % 2 ^ 32 / 8))) ∧
    (x &&& 0x1F00000007 = 0x1000000000 → decodeTableWord 40 x = some (.ctrlNop (x % 2 ^ 32 / 8))) ∧
    (x &&& 0x1F00000000 = 0x1000000000 → x % 8 ≠ 0 → x % 8 ≠ 1 → x % 8 ≠ 2 → x % 8 ≠ 4 →
      decodeTableWord 40 x = some (.wrCtrl (x % 2 ^ 32)))

/-! ## The step -/

/-- A step runs the decoded operation: with a line that presents one field, whose words decode to `i`, the step is
`exec i` once the line is taken; with no line left it is a tick with `rst = 0` and every port as it stands. The
line and the empty script are the model's (log 2). -/
def Obligations.StepRunsTheDecodedOperation : Prop :=
  (∀ (s : State) (r : Raw) (rest : List Line) (i : Instr),
    s.script = Line.only r :: rest → decode s.cfg.raw r = .ok i → step s = exec i { s with script := rest }) ∧
  (∀ s : State, s.script = [] → step s = exec .run s)

/-- The fields of a line all take effect in the same tick, whatever order they are listed in (R90, R332). That a line
is run as a list of operations is the model's (log 4). -/
def Obligations.OrderOfFieldsInALineDoesNotMatter : Prop :=
  ∀ (s : State) (l l' : List Instr), l.Perm l' → (l.map Instr.field).Nodup →
    (∀ i ∈ l, i.operandsFit s.cfg.raw = true) → runLine l s = runLine l' s

/-- "A constructed instance never faults": the step is total over all states and all inputs that meet the
environment's obligations, and never answers a fault on any other (R294, with R335 and R338). That inputs come as
lines is the model's (log 2), and so is a type of faults without a constructor (log 21); for a script with no line left
see `StepRunsTheDecodedOperation`. -/
def Obligations.EveryLegalLineRuns : Prop :=
  (∀ (s : State) (l : Line) (rest : List Line), s.script = l :: rest → legalLine s.cfg.raw l = true →
    wordAligned s.engine.ports.busAddr = true → ∃ e', step s = .next ⟨s.cfg, e', rest⟩) ∧
  (∀ (s : State) (f : Fault), step s ≠ .fault f)

/-- Every step keeps the invariant: pointer in range, canonical memory, one bank read at most, pulse count within
its limit, absent registers at 0, pulse fields of the ports at rest. -/
def Obligations.EveryStepKeepsTheInvariant : Prop :=
  ∀ s t : State, s.Inv → step s = .next t → t.Inv

/-- The state after reset meets the invariant, for every configuration. -/
def Obligations.ResetStateMeetsTheInvariant : Prop :=
  State.reset.Inv ∧ ∀ c : Cfg, (State.resetOf c).Inv

/-- No step changes the configuration (section 3 of spec/00_scope.md, R75). -/
def Obligations.NoStepChangesTheConfiguration : Prop :=
  ∀ s t : State, step s = .next t → t.cfg = s.cfg

/-! ## Configuration and table -/

/-- Construction fails exactly on the configuration errors of R291, R292 and R293, and then gives no instance. -/
def Obligations.ConstructionFailsExactlyOnTheErrors : Prop :=
  ∀ (p : Config) (t : p.TableOk),
    (ConfigError.ce1 ∈ p.errors ↔ p.delay ≤ 0 ∨ (p.total : Int) ≤ p.delay) ∧
    (ConfigError.ce2 ∈ p.errors ↔ p.lutAw < 2) ∧
    (ConfigError.ce3 ∈ p.errors ↔ p.w < p.lutAw ∨ p.w < 3 ∨ p.sampleW < 2 ∨ 2 ^ p.pulseCntW ≤ p.pulseLen ∨
      p.bankBits < 0 ∨ p.bankDepth < 1 ∨ p.dataW < 1) ∧
    (p.errors ≠ [] → construct p t = .error p.errors) ∧
    (p.errors = [] → ∃ c, construct p t = .ok c ∧ c.raw = p)

/-- The table is a read-only sequence of `SIZE` signed `SAMPLE_W`-bit integers, and a function of `LUT_AW` and
`SAMPLE_W` alone (R14). -/
def Obligations.TableDependsOnlyOnItsTwoWidths : Prop :=
  (∀ c : Cfg, c.table.length = c.size ∧
    ∀ x ∈ c.table, -(2 ^ (c.sampleW - 1)) ≤ x ∧ x ≤ 2 ^ (c.sampleW - 1) - 1) ∧
  (∀ c c' : Cfg, c.lutAw = c'.lutAw → c.sampleW = c'.sampleW → c.table = c'.table) ∧
  (∀ s t : State, step s = .next t → t.cfg.table = s.cfg.table)

/-- The properties (a) to (f) of the table (R121). -/
def Obligations.TableHasTheSymmetriesOfTheSine : Prop :=
  ∀ c : Cfg,
    (tableRead c 0 = 0 ∧ tableRead c (c.size / 4) = c.amp ∧ tableRead c (c.size / 2) = 0 ∧
      tableRead c (3 * c.size / 4) = -c.amp) ∧
    (∀ i, i < c.size → tableRead c ((c.size - i) % c.size) = -tableRead c i) ∧
    (∀ i, i ≤ c.size / 2 → tableRead c (c.size / 2 - i) = tableRead c i) ∧
    (∀ i, i < c.size → tableRead c ((i + c.size / 2) % c.size) = -tableRead c i) ∧
    (∀ i, i < c.size → -c.amp ≤ tableRead c i ∧ tableRead c i ≤ c.amp) ∧
    (∀ i : Nat, tableRead c (i % c.size) =
      round (Real.sin (2 * Real.pi * (i : ℝ) / (c.size : ℝ)) * (c.amp : ℝ)))

/-- The table address is the top `LUT_AW` bits of the phase, and always an entry of the table; the low bits reach no
read, and with `LUT_AW = W` the address is the phase (R123). -/
def Obligations.TableAddressIsTheTopBitsOfThePhase : Prop :=
  ∀ (c : Cfg) (p : Word c.w),
    tableAddr c p = (p >>> (c.w - c.lutAw)).toNat ∧
    tableAddr c p = (p.extractLsb' (c.w - c.lutAw) c.lutAw).toNat ∧
    tableAddr c p < c.size ∧
    (∀ q : Word c.w, q >>> (c.w - c.lutAw) = p >>> (c.w - c.lutAw) →
      sinRd c q = sinRd c p ∧ cosRd c q = cosRd c p) ∧
    (c.lutAw = c.w → tableAddr c p = p.toNat)

/-- Truncation is a floor, so a negated phase is a mirror image only where the dropped bits are 0 (R129). -/
def Obligations.NegatedPhaseAddress : Prop :=
  ∀ (c : Cfg) (p : Word c.w),
    (p.toNat % 2 ^ (c.w - c.lutAw) = 0 → tableAddr c (-p) = (c.size - tableAddr c p) % c.size) ∧
    (p.toNat % 2 ^ (c.w - c.lutAw) ≠ 0 → tableAddr c (-p) = c.size - 1 - tableAddr c p)

/-! ## Reset -/

/-- A reset tick puts every register at its reset value, whatever the other inputs are and whatever the state was,
and leaves the delay memory and the bank outputs as they were (R320, R45). -/
def Obligations.ResetTickPutsEveryRegisterAtItsResetValue : Prop :=
  ∀ (c : Cfg) (e : Engine c) (scr : List Line), wordAligned e.ports.busAddr = true →
    ∃ e' : Engine c, exec .reset ⟨c, e, scr⟩ = .next ⟨c, e', scr⟩ ∧
      e'.ctrl.cmd = 0 ∧ e'.ctrl.twMin = 0 ∧ e'.ctrl.twMax = 0 ∧ e'.ctrl.chirpStep = 0 ∧
      e'.run.cont = false ∧ e'.run.pulse = false ∧ e'.run.pulseCnt = 0 ∧
      e'.synth.freqAcc = 0 ∧ e'.synth.phaseC = 0 ∧ e'.synth.phase1 = 0 ∧ e'.synth.phase2 = 0 ∧
      e'.synth.sampleCnt = 0 ∧
      e'.hop.hopState = 0 ∧ e'.hop.dwellCnt = 0 ∧ e'.hop.hopPhase = 0 ∧
      e'.dl.wptr = 0 ∧ e'.dl.reQ = List.replicate c.nb false ∧ e'.dl.doutReg = 0 ∧
      e'.dl.bank = e.dl.bank ∧ e'.dl.bankQ = e.dl.bankQ

/-- The outputs of a reset tick are those the reset state gives (R321). Without the output register `dl_dout` is a
free draw. -/
def Obligations.ResetTickShowsTheResetState : Prop :=
  ∀ (c : Cfg) (e : Engine c) (scr : List Line), wordAligned e.ports.busAddr = true →
    ∃ e' : Engine c, exec .reset ⟨c, e, scr⟩ = .next ⟨c, e', scr⟩ ∧
      e'.outs.isRunning = false ∧ e'.outs.validOut = false ∧ e'.outs.busRdata = 0 ∧
      (e.ports.mode = 1 ∨ e.ports.mode = 2 → e'.outs.outI = c.amp ∧ e'.outs.outQ = 0) ∧
      (e.ports.mode = 0 ∨ e.ports.mode = 3 → e'.outs.outI = 0 ∧ e'.outs.outQ = 0) ∧
      e'.outs.hopI = c.amp ∧ e'.outs.hopQ = 0 ∧
      (c.outReg = true → e'.outs.dlDout = 0) ∧
      (c.outReg = false → e'.outs.dlDout = Config.anyMux c.dataW e.draws) ∧
      e'.outs.sampleCount = (if c.sampleCntEn then some 0 else none)

/-- The state after reset as a user sees it: not running, all four bus addresses read 0, `rptr = TOTAL - DELAY`
(R325). -/
def Obligations.StateAfterResetAsAUserSeesIt : Prop :=
  ∀ c : Cfg,
    (Engine.afterReset c).run.isRunning = false ∧
    (∀ a : BitVec 4, wordAligned a = true →
      busRead (Engine.afterReset c).ctrl (Engine.afterReset c).run a = some 0) ∧
    (Engine.afterReset c).synth = ⟨0, 0, 0, 0, 0⟩ ∧ (Engine.afterReset c).hop = ⟨0, 0, 0⟩ ∧
    (Engine.afterReset c).dl.wptr = 0 ∧
    readPtr c (Engine.afterReset c).dl.wptr = c.total - c.delay

/-- From every state a reset tick leaves the state that any number of further reset ticks leave: the same registers,
delay memory and ports (R320). From `State.resetOf` they leave its own registers, so that it is the state a reset tick
leaves; that a run starts there is log 15. -/
def Obligations.ResetHeldForManyTicksIsOneReset : Prop :=
  (∀ (c : Cfg) (e : Engine c) (scr : List Line), wordAligned e.ports.busAddr = true →
    ∃ e1 : Engine c, exec .reset ⟨c, e, scr⟩ = .next ⟨c, e1, scr⟩ ∧
      ∀ n : Nat, ∃ e2 : Engine c, execTimes .reset n ⟨c, e1, scr⟩ = .next ⟨c, e2, scr⟩ ∧
        e2.ctrl = e1.ctrl ∧ e2.run = e1.run ∧ e2.synth = e1.synth ∧ e2.hop = e1.hop ∧ e2.dl = e1.dl ∧
        e2.ports = e1.ports) ∧
  (∀ (c : Cfg) (n : Nat), ∃ e' : Engine c, execTimes .reset n (State.resetOf c) = .next ⟨c, e', []⟩ ∧
    e'.ctrl = (Engine.afterReset c).ctrl ∧ e'.run = (Engine.afterReset c).run ∧
    e'.synth = (Engine.afterReset c).synth ∧ e'.hop = (Engine.afterReset c).hop ∧
    e'.dl = (Engine.afterReset c).dl ∧ e'.ports = (Engine.afterReset c).ports)

/-! ## The register bus -/

/-- The three word writes store the word, clear the command latch, leave the other words, and show the old value on
`bus_rdata` (R262, R263, R264, R261, R269). -/
def Obligations.BusWritesStoreTheWord : Prop :=
  ∀ (c : Cfg) (e : Engine c) (scr : List Line) (d : Nat), d < 2 ^ c.w → e.ports.rst = false →
    (∃ e' : Engine c, exec (.wrTwmin d) ⟨c, e, scr⟩ = .next ⟨c, e', scr⟩ ∧
      e'.ctrl = ⟨0, BitVec.ofNat c.w d, e.ctrl.twMax, e.ctrl.chirpStep⟩ ∧ e'.outs.busRdata = e.ctrl.twMin) ∧
    (∃ e' : Engine c, exec (.wrTwmax d) ⟨c, e, scr⟩ = .next ⟨c, e', scr⟩ ∧
      e'.ctrl = ⟨0, e.ctrl.twMin, BitVec.ofNat c.w d, e.ctrl.chirpStep⟩ ∧ e'.outs.busRdata = e.ctrl.twMax) ∧
    (∃ e' : Engine c, exec (.wrStep d) ⟨c, e, scr⟩ = .next ⟨c, e', scr⟩ ∧
      e'.ctrl = ⟨0, e.ctrl.twMin, e.ctrl.twMax, BitVec.ofNat c.w d⟩ ∧ e'.outs.busRdata = e.ctrl.chirpStep)

/-- A write of the control word loads the command latch with its three low bits and nothing else of it; the status
word is on `bus_rdata` (R261, R93, R265). -/
def Obligations.ControlWordLoadsTheCommandLatch : Prop :=
  ∀ (c : Cfg) (e : Engine c) (scr : List Line) (d : Nat), d < 2 ^ c.w → e.ports.rst = false →
    ∃ e' : Engine c, exec (.wrCtrl d) ⟨c, e, scr⟩ = .next ⟨c, e', scr⟩ ∧
      e'.ctrl = ⟨BitVec.ofNat 3 d, e.ctrl.twMin, e.ctrl.twMax, e.ctrl.chirpStep⟩ ∧
      e'.outs.busRdata.toNat = (if e.run.cont || e.run.pulse then 1 else 0)

/-- The four aliases load exactly their one command bit, or none, whatever the upper bits of the control word are
(R105, R106, R93). -/
def Obligations.AliasesLoadOneCommandBit : Prop :=
  ∀ (c : Cfg) (e : Engine c) (scr : List Line) (u : Nat), u < 2 ^ (c.w - 3) → e.ports.rst = false →
    (∃ e' : Engine c, exec (.startCont u) ⟨c, e, scr⟩ = .next ⟨c, e', scr⟩ ∧
      e'.ctrl = ⟨0b001, e.ctrl.twMin, e.ctrl.twMax, e.ctrl.chirpStep⟩) ∧
    (∃ e' : Engine c, exec (.stopCont u) ⟨c, e, scr⟩ = .next ⟨c, e', scr⟩ ∧
      e'.ctrl = ⟨0b010, e.ctrl.twMin, e.ctrl.twMax, e.ctrl.chirpStep⟩) ∧
    (∃ e' : Engine c, exec (.startPulse u) ⟨c, e, scr⟩ = .next ⟨c, e', scr⟩ ∧
      e'.ctrl = ⟨0b100, e.ctrl.twMin, e.ctrl.twMax, e.ctrl.chirpStep⟩) ∧
    (∃ e' : Engine c, exec (.ctrlNop u) ⟨c, e, scr⟩ = .next ⟨c, e', scr⟩ ∧
      e'.ctrl = ⟨0b000, e.ctrl.twMin, e.ctrl.twMax, e.ctrl.chirpStep⟩)

/-- An alias is only another name: in every state it does what `WR_CTRL` does with its control word (R105, R106). -/
def Obligations.AliasesAreTheControlWord : Prop :=
  ∀ (s : State) (u : Nat), u < 2 ^ (s.cfg.w - 3) →
    exec (.startCont u) s = exec (.wrCtrl (8 * u + 1)) s ∧
    exec (.stopCont u) s = exec (.wrCtrl (8 * u + 2)) s ∧
    exec (.startPulse u) s = exec (.wrCtrl (8 * u + 4)) s ∧
    exec (.ctrlNop u) s = exec (.wrCtrl (8 * u)) s

/-- The four reads put the addressed word on `bus_rdata` and change no control register but the command latch, which
clears itself (R265 to R268, R261). -/
def Obligations.BusReadsShowTheWord : Prop :=
  ∀ (c : Cfg) (e : Engine c) (scr : List Line) (d : Nat), d < 2 ^ c.w → e.ports.rst = false →
    (∃ e' : Engine c, exec (.rdStatus d) ⟨c, e, scr⟩ = .next ⟨c, e', scr⟩ ∧
      e'.outs.busRdata.toNat = (if e.run.cont || e.run.pulse then 1 else 0) ∧
      e'.ctrl = ⟨0, e.ctrl.twMin, e.ctrl.twMax, e.ctrl.chirpStep⟩) ∧
    (∃ e' : Engine c, exec (.rdTwmin d) ⟨c, e, scr⟩ = .next ⟨c, e', scr⟩ ∧
      e'.outs.busRdata = e.ctrl.twMin ∧ e'.ctrl = ⟨0, e.ctrl.twMin, e.ctrl.twMax, e.ctrl.chirpStep⟩) ∧
    (∃ e' : Engine c, exec (.rdTwmax d) ⟨c, e, scr⟩ = .next ⟨c, e', scr⟩ ∧
      e'.outs.busRdata = e.ctrl.twMax ∧ e'.ctrl = ⟨0, e.ctrl.twMin, e.ctrl.twMax, e.ctrl.chirpStep⟩) ∧
    (∃ e' : Engine c, exec (.rdStep d) ⟨c, e, scr⟩ = .next ⟨c, e', scr⟩ ∧
      e'.outs.busRdata = e.ctrl.chirpStep ∧ e'.ctrl = ⟨0, e.ctrl.twMin, e.ctrl.twMax, e.ctrl.chirpStep⟩)

/-- A write shows the old word; the read in the next tick shows the written one, whatever else is on the ports in both
ticks as long as neither resets (R331, R71). -/
def Obligations.WrittenWordIsReadBackInTheNextTick : Prop :=
  ∀ (c : Cfg) (e : Engine c) (scr : List Line) (d x : Nat), d < 2 ^ c.w → x < 2 ^ c.w → e.ports.rst = false →
    (∃ e1 : Engine c, exec (.wrTwmin d) ⟨c, e, scr⟩ = .next ⟨c, e1, scr⟩ ∧ e1.outs.busRdata = e.ctrl.twMin ∧
      ∀ p : Ports c.w c.hopCntW c.dataW, p.rst = false →
        ∃ e2 : Engine c, exec (.rdTwmin x) ⟨c, e1.withPorts p, scr⟩ = .next ⟨c, e2, scr⟩ ∧
          e2.outs.busRdata = BitVec.ofNat c.w d) ∧
    (∃ e1 : Engine c, exec (.wrTwmax d) ⟨c, e, scr⟩ = .next ⟨c, e1, scr⟩ ∧ e1.outs.busRdata = e.ctrl.twMax ∧
      ∀ p : Ports c.w c.hopCntW c.dataW, p.rst = false →
        ∃ e2 : Engine c, exec (.rdTwmax x) ⟨c, e1.withPorts p, scr⟩ = .next ⟨c, e2, scr⟩ ∧
          e2.outs.busRdata = BitVec.ofNat c.w d) ∧
    (∃ e1 : Engine c, exec (.wrStep d) ⟨c, e, scr⟩ = .next ⟨c, e1, scr⟩ ∧ e1.outs.busRdata = e.ctrl.chirpStep ∧
      (∀ p : Ports c.w c.hopCntW c.dataW, p.rst = false →
        ∃ e2 : Engine c, exec (.rdStep x) ⟨c, e1.withPorts p, scr⟩ = .next ⟨c, e2, scr⟩ ∧
          e2.outs.busRdata = BitVec.ofNat c.w d) ∧
      e1.ports.rst = false)

/-- A misaligned bus address is refused, in every state, with the address presented (R63, R335). -/
def Obligations.MisalignedBusAddressIsRefused : Prop :=
  ∀ (s : State) (we : Bool) (d : Nat), d < 2 ^ s.cfg.w →
    (∀ hi : BitVec 3, exec (.busMisalignedA we hi d) s =
      .refused (.misalignedBusAddress (BitVec.ofNat 4 (2 * hi.toNat + 1)))) ∧
    (∀ hi : BitVec 2, exec (.busMisalignedB we hi d) s =
      .refused (.misalignedBusAddress (BitVec.ofNat 4 (4 * hi.toNat + 2))))

/-! ## The run-state machine -/

/-- In every tick without reset, whichever operation is presented, the run-state latches and the pulse timer move as
R155, R156 and R157 say; the count has no other limit than `PULSE_LEN`. -/
def Obligations.RunStateMachineInEveryTick : Prop :=
  ∀ (c : Cfg) (e : Engine c) (scr : List Line) (i : Instr), e.Runs i →
    ∃ e' : Engine c, exec i ⟨c, e, scr⟩ = .next ⟨c, e', scr⟩ ∧
      (e.ctrl.cmd.getLsbD 1 = true → e'.run.cont = false) ∧
      (e.ctrl.cmd.getLsbD 1 = false → e.ctrl.cmd.getLsbD 0 = true → e'.run.cont = true) ∧
      (e.ctrl.cmd.getLsbD 1 = false → e.ctrl.cmd.getLsbD 0 = false → e'.run.cont = e.run.cont) ∧
      (e.ctrl.cmd.getLsbD 2 = true → e'.run.pulse = true ∧ e'.run.pulseCnt = 0) ∧
      (e.ctrl.cmd.getLsbD 2 = false → e.run.pulse = true → e.run.pulseCnt.toNat = c.pulseLen →
        e'.run.pulse = false ∧ e'.run.pulseCnt = e.run.pulseCnt) ∧
      (e.ctrl.cmd.getLsbD 2 = false → e.run.pulse = true → e.run.pulseCnt.toNat ≠ c.pulseLen →
        e'.run.pulse = true ∧ e'.run.pulseCnt = e.run.pulseCnt + 1) ∧
      (e.ctrl.cmd.getLsbD 2 = false → e.run.pulse = false →
        e'.run.pulse = false ∧ e'.run.pulseCnt = e.run.pulseCnt)

/-- The outputs of a tick without reset, whichever operation is presented, show the registers it starts from: the run
flag in both places, the whole of `bus_rdata` for each address, the samples the tick's mode selects, the hop samples,
the sample counter, and on `dl_dout` the output register or what the multiplexer carries (R158, R210, R265 to R269,
R201, R146, R216, R237). -/
def Obligations.EveryTickShowsTheRegistersItStartsFrom : Prop :=
  ∀ (c : Cfg) (e : Engine c) (scr : List Line) (i : Instr), e.Runs i →
    ∃ e' : Engine c, exec i ⟨c, e, scr⟩ = .next ⟨c, e', scr⟩ ∧
      e'.outs.isRunning = (e.run.cont || e.run.pulse) ∧ e'.outs.validOut = e'.outs.isRunning ∧
      ((e.ports.drive i).busAddr = 0x0 → e'.outs.busRdata.toNat = (if e.run.cont || e.run.pulse then 1 else 0)) ∧
      ((e.ports.drive i).busAddr = 0x4 → e'.outs.busRdata = e.ctrl.twMin) ∧
      ((e.ports.drive i).busAddr = 0x8 → e'.outs.busRdata = e.ctrl.twMax) ∧
      ((e.ports.drive i).busAddr = 0xC → e'.outs.busRdata = e.ctrl.chirpStep) ∧
      ((e.ports.drive i).mode = 0 ∨ (e.ports.drive i).mode = 3 → e'.outs.outI = 0 ∧ e'.outs.outQ = 0) ∧
      ((e.ports.drive i).mode = 1 →
        e'.outs.outI = cosRd c e.synth.phaseC ∧ e'.outs.outQ = sinRd c e.synth.phaseC) ∧
      ((e.ports.drive i).mode = 2 →
        e'.outs.outI = max (-(2 ^ (c.sampleW - 1)))
          (min (2 ^ (c.sampleW - 1) - 1) (cosRd c e.synth.phase1 + cosRd c e.synth.phase2)) ∧
        e'.outs.outQ = max (-(2 ^ (c.sampleW - 1)))
          (min (2 ^ (c.sampleW - 1) - 1) (sinRd c e.synth.phase1 + sinRd c e.synth.phase2))) ∧
      e'.outs.hopI = cosRd c e.hop.hopPhase ∧ e'.outs.hopQ = sinRd c e.hop.hopPhase ∧
      e'.outs.sampleCount = (if c.sampleCntEn then some e.synth.sampleCnt else none) ∧
      e'.outs.dlDout = (if c.outReg then e.dl.doutReg else (mux c e.dl e.draws).1)

/-- A pulse command makes the pulse active for `PULSE_LEN + 1` ticks, in which the count takes the values 0 to
`PULSE_LEN`, whatever operations those ticks execute, as long as none resets and none puts `start_p` into the command
latch again; a stop command, in the same word or later, does not shorten it (R160). -/
def Obligations.PulseLastsPulseLenPlusOneTicks : Prop :=
  ∀ (c : Cfg) (e : Engine c) (scr : List Line) (f : Nat → Instr) (n : Nat), e.Runs (f 0) →
    e.ports.busWe = false → e.ctrl.cmd.getLsbD 2 = true →
    (∀ k, k ≤ n → (f k).operandsFit c.raw = true ∧ f k ≠ .reset ∧ misaligned (f k) = false ∧
      startsPulse (f k) = false) →
    ∃ e' : Engine c, execSeq f (n + 1) ⟨c, e, scr⟩ = .next ⟨c, e', scr⟩ ∧
      (n ≤ c.pulseLen → e'.run.pulse = true ∧ e'.run.pulseCnt.toNat = n) ∧
      (c.pulseLen < n → e'.run.pulse = false ∧ e'.run.pulseCnt.toNat = c.pulseLen)

/-- From the bus write of `START_CONT` to its effect: the command is in `cmd` in the next tick, the latch is set and
`valid_out` is up in the tick after that, and the first sample is at phase 0 with `freq_acc = tw_min` (R161, R163). -/
def Obligations.StartCommandTakesEffectTwoTicksAfterTheWrite : Prop :=
  ∀ (c : Cfg) (e : Engine c) (scr : List Line) (u : Nat), u < 2 ^ (c.w - 3) → e.ports.rst = false →
    e.run.cont = false → e.run.pulse = false → e.ctrl.cmd = 0 →
    ∃ e1 e2 e3 : Engine c, exec (.startCont u) ⟨c, e, scr⟩ = .next ⟨c, e1, scr⟩ ∧
      exec .run ⟨c, e1, scr⟩ = .next ⟨c, e2, scr⟩ ∧ exec .run ⟨c, e2, scr⟩ = .next ⟨c, e3, scr⟩ ∧
      e1.ctrl.cmd = 0b001 ∧ e1.run.isRunning = false ∧
      e2.ctrl.cmd = 0 ∧ e2.run.cont = true ∧ e2.outs.validOut = false ∧
      e2.synth.freqAcc = e.ctrl.twMin ∧ e2.synth.phaseC = 0 ∧ e3.outs.validOut = true

/-- The idle-reset scenario: a stop command with no pulse active; `is_running` falls in the next tick and
`valid_out` with it, and the tick after that has `freq_acc = tw_min` and `phase_c = 0` (R172). -/
def Obligations.StopCommandForcesTheChirpAccumulators : Prop :=
  ∀ (c : Cfg) (e : Engine c) (scr : List Line), wordAligned e.ports.busAddr = true → e.ports.busWe = false →
    e.run.pulse = false → e.run.cont = true → e.ctrl.cmd = 0b010 →
    ∃ e1 e2 : Engine c, exec .run ⟨c, e, scr⟩ = .next ⟨c, e1, scr⟩ ∧ exec .run ⟨c, e1, scr⟩ = .next ⟨c, e2, scr⟩ ∧
      e1.outs.validOut = true ∧ e1.run.isRunning = false ∧ e2.outs.isRunning = false ∧ e2.outs.validOut = false ∧
      e2.synth.freqAcc = e.ctrl.twMin ∧ e2.synth.phaseC = 0

/-! ## The accumulators -/

/-- The priority chain for `freq_acc` and `phase_c`, in every tick without reset (R173): idle forcing, the
mode-switch policy, the advance on a transfer in chirp mode with the signed comparison on the register's pre-step
value, else hold. -/
def Obligations.ChirpAccumulatorsFollowThePriorityChain : Prop :=
  ∀ (c : Cfg) (e : Engine c) (scr : List Line) (i : Instr), e.Runs i →
    ∃ e' : Engine c, exec i ⟨c, e, scr⟩ = .next ⟨c, e', scr⟩ ∧
      ((e.run.cont || e.run.pulse) = false → e'.synth.freqAcc = e.ctrl.twMin ∧ e'.synth.phaseC = 0) ∧
      ((e.run.cont || e.run.pulse) = true → c.modeSwitchReset = true → (e.ports.drive i).mode ≠ 1 →
        e'.synth.freqAcc = e.ctrl.twMin ∧ e'.synth.phaseC = 0) ∧
      ((e.run.cont || e.run.pulse) = true → (e.ports.drive i).mode = 1 → (e.ports.drive i).readyIn = true →
        e'.synth.phaseC = e.synth.phaseC + e.synth.freqAcc ∧
        (e.ctrl.twMax.toInt ≤ e.synth.freqAcc.toInt → e'.synth.freqAcc = e.ctrl.twMin) ∧
        (e.synth.freqAcc.toInt < e.ctrl.twMax.toInt → e'.synth.freqAcc = e.synth.freqAcc + e.ctrl.chirpStep)) ∧
      ((e.run.cont || e.run.pulse) = true → ¬ (c.modeSwitchReset = true ∧ (e.ports.drive i).mode ≠ 1) →
        ¬ ((e.ports.drive i).mode = 1 ∧ (e.ports.drive i).readyIn = true) →
        e'.synth.freqAcc = e.synth.freqAcc ∧ e'.synth.phaseC = e.synth.phaseC)

/-- The priority chain for `phase_1` and `phase_2`, in every tick without reset (R194). -/
def Obligations.ToneAccumulatorsFollowThePriorityChain : Prop :=
  ∀ (c : Cfg) (e : Engine c) (scr : List Line) (i : Instr), e.Runs i →
    ∃ e' : Engine c, exec i ⟨c, e, scr⟩ = .next ⟨c, e', scr⟩ ∧
      (c.modeSwitchReset = true → (e.ports.drive i).mode ≠ 2 → e'.synth.phase1 = 0 ∧ e'.synth.phase2 = 0) ∧
      ((e.ports.drive i).mode = 2 → ((e.run.cont || e.run.pulse) && (e.ports.drive i).readyIn) = true →
        e'.synth.phase1 = e.synth.phase1 + e.ctrl.twMin ∧ e'.synth.phase2 = e.synth.phase2 + e.ctrl.twMax) ∧
      (¬ (c.modeSwitchReset = true ∧ (e.ports.drive i).mode ≠ 2) →
        ¬ ((e.ports.drive i).mode = 2 ∧ ((e.run.cont || e.run.pulse) && (e.ports.drive i).readyIn) = true) →
        e'.synth.phase1 = e.synth.phase1 ∧ e'.synth.phase2 = e.synth.phase2)

/-- The sweep sequence: with `tw_min < tw_max`, a positive step and no overflow before the bound, `n` transfers show
`f_0, …, f_K, f_0, …` and the phase is the modular sum of the first `n` of them (R168). `K` is the first index at
or above the bound. -/
def Obligations.SweepRepeatsAfterTheFirstValueAtOrAboveTheBound : Prop :=
  ∀ (c : Cfg) (e : Engine c) (scr : List Line) (K n : Nat), e.Ready → e.ports.busWe = false → e.ports.mode = 1 →
    e.run.cont = true → e.ctrl.cmd = 0 → e.synth.freqAcc = e.ctrl.twMin → e.synth.phaseC = 0 →
    e.ctrl.twMin.toInt < e.ctrl.twMax.toInt → 0 < e.ctrl.chirpStep.toInt →
    (∀ k : Nat, k < K → e.ctrl.twMin.toInt + k * e.ctrl.chirpStep.toInt < e.ctrl.twMax.toInt) →
    e.ctrl.twMax.toInt ≤ e.ctrl.twMin.toInt + K * e.ctrl.chirpStep.toInt →
    e.ctrl.twMin.toInt + K * e.ctrl.chirpStep.toInt < 2 ^ (c.w - 1) →
    ∃ e' : Engine c, execTimes .accept n ⟨c, e, scr⟩ = .next ⟨c, e', scr⟩ ∧
      e'.synth.freqAcc.toInt = e.ctrl.twMin.toInt + ((n % (K + 1) : Nat) : Int) * e.ctrl.chirpStep.toInt ∧
      e'.synth.phaseC = BitVec.ofInt c.w
        (∑ k ∈ Finset.range n, (e.ctrl.twMin.toInt + ((k % (K + 1) : Nat) : Int) * e.ctrl.chirpStep.toInt))

/-- After `n` transfers in dual-tone mode each tone's phase has advanced by `n` times its word modulo `2^W`, and the
counter, if there is one, by `n` (R126, R185, R216). -/
def Obligations.TonePhasesAreModularSums : Prop :=
  ∀ (c : Cfg) (e : Engine c) (scr : List Line) (n : Nat), e.Ready → e.ports.busWe = false → e.ports.mode = 2 →
    e.run.cont = true → e.ctrl.cmd = 0 →
    ∃ e' : Engine c, execTimes .accept n ⟨c, e, scr⟩ = .next ⟨c, e', scr⟩ ∧
      e'.synth.phase1.toNat = (e.synth.phase1.toNat + n * e.ctrl.twMin.toNat) % 2 ^ c.w ∧
      e'.synth.phase2.toNat = (e.synth.phase2.toNat + n * e.ctrl.twMax.toNat) % 2 ^ c.w ∧
      (c.sampleCntEn = true → e'.synth.sampleCnt.toNat = (e.synth.sampleCnt.toNat + n) % 2 ^ c.w)

/-! ## The stream gate -/

/-- Handshake non-advance: while `valid_out` is up and `ready_in` is held low for `n` ticks, no accumulator moves,
provided the mode-switch policy does not apply (R217). -/
def Obligations.StalledAccumulatorsDoNotAdvance : Prop :=
  ∀ (c : Cfg) (e : Engine c) (scr : List Line) (n : Nat), e.Ready → c.modeSwitchReset = false →
    (∀ (k : Nat) (f : Engine c), k < n → execTimes .stall k ⟨c, e, scr⟩ = .next ⟨c, f, scr⟩ →
      f.run.isRunning = true) →
    ∃ e' : Engine c, execTimes .stall n ⟨c, e, scr⟩ = .next ⟨c, e', scr⟩ ∧ e'.synth = e.synth

/-- The offered sample is stable: after a tick with `valid_out = 1` and `ready_in = 0`, if the next tick is still
running, does not reset and has the same mode, it offers the same sample, whatever it writes on the bus or does
elsewhere (R215). -/
def Obligations.OfferedSampleStaysOnOffer : Prop :=
  ∀ (c : Cfg) (e e1 : Engine c) (scr : List Line) (j : Instr), e.Ready → e.run.isRunning = true →
    exec .stall ⟨c, e, scr⟩ = .next ⟨c, e1, scr⟩ → e1.run.isRunning = true →
    j ≠ .reset → (e1.ports.drive j).mode = e1.ports.mode → e1.Runs j →
    ∃ e2 : Engine c, exec j ⟨c, e1, scr⟩ = .next ⟨c, e2, scr⟩ ∧
      e2.outs.validOut = true ∧ e2.outs.outI = e1.outs.outI ∧ e2.outs.outQ = e1.outs.outQ

/-- `STALL`: no transfer, so the counter holds, and while running the accumulators of the selected mode hold; the
offer is unaffected (R212, R214). -/
def Obligations.StallTransfersNothing : Prop :=
  ∀ (c : Cfg) (e : Engine c) (scr : List Line), e.Ready →
    ∃ e' : Engine c, exec .stall ⟨c, e, scr⟩ = .next ⟨c, e', scr⟩ ∧
      e'.synth.sampleCnt = e.synth.sampleCnt ∧
      (e.run.isRunning = true → c.modeSwitchReset = false → e'.synth = e.synth) ∧
      (e.run.isRunning = true → e.ports.mode = 1 →
        e'.synth.freqAcc = e.synth.freqAcc ∧ e'.synth.phaseC = e.synth.phaseC) ∧
      (e.ports.mode = 2 → e'.synth.phase1 = e.synth.phase1 ∧ e'.synth.phase2 = e.synth.phase2) ∧
      e'.outs.validOut = e.run.isRunning

/-- `ACCEPT`: with `valid_out = 1` a sample is transferred and counted and the selected mode's accumulators advance
once, in chirp mode the phase by the pre-step `freq_acc` and `freq_acc` by its wrap or its step, in dual-tone mode both
tones; the other mode's accumulators hold without the mode-switch policy. With `valid_out = 0` nothing is transferred:
the counter and, where the policy does not apply, the tones hold, and the chirp accumulators are forced as in every
idle tick (R213, R164, R165, R185, R163). And whichever operation is executed in a tick without reset, the counter
counts exactly when the tick transfers (R216). -/
def Obligations.AcceptTransfersTheOfferedSample : Prop :=
  (∀ (c : Cfg) (e : Engine c) (scr : List Line), e.Ready →
    ∃ e' : Engine c, exec .accept ⟨c, e, scr⟩ = .next ⟨c, e', scr⟩ ∧
      (e.run.isRunning = true → c.sampleCntEn = true → e'.synth.sampleCnt = e.synth.sampleCnt + 1) ∧
      (e.run.isRunning = false ∨ c.sampleCntEn = false → e'.synth.sampleCnt = e.synth.sampleCnt) ∧
      (e.run.isRunning = true → e.ports.mode = 1 →
        e'.synth.phaseC = e.synth.phaseC + e.synth.freqAcc ∧
        (e.ctrl.twMax.toInt ≤ e.synth.freqAcc.toInt → e'.synth.freqAcc = e.ctrl.twMin) ∧
        (e.synth.freqAcc.toInt < e.ctrl.twMax.toInt → e'.synth.freqAcc = e.synth.freqAcc + e.ctrl.chirpStep)) ∧
      (e.run.isRunning = true → e.ports.mode ≠ 1 → c.modeSwitchReset = false →
        e'.synth.freqAcc = e.synth.freqAcc ∧ e'.synth.phaseC = e.synth.phaseC) ∧
      (e.run.isRunning = false → e'.synth.freqAcc = e.ctrl.twMin ∧ e'.synth.phaseC = 0) ∧
      (e.run.isRunning = true → e.ports.mode = 2 →
        e'.synth.phase1 = e.synth.phase1 + e.ctrl.twMin ∧ e'.synth.phase2 = e.synth.phase2 + e.ctrl.twMax) ∧
      (e.run.isRunning = true → e.ports.mode ≠ 2 → c.modeSwitchReset = false →
        e'.synth.phase1 = e.synth.phase1 ∧ e'.synth.phase2 = e.synth.phase2) ∧
      (e.run.isRunning = false → ¬ (c.modeSwitchReset = true ∧ e.ports.mode ≠ 2) →
        e'.synth.phase1 = e.synth.phase1 ∧ e'.synth.phase2 = e.synth.phase2) ∧
      e'.outs.validOut = e.run.isRunning) ∧
  (∀ (c : Cfg) (e : Engine c) (scr : List Line) (i : Instr), e.Runs i →
    ∃ e' : Engine c, exec i ⟨c, e, scr⟩ = .next ⟨c, e', scr⟩ ∧
      e'.synth.sampleCnt =
        if c.sampleCntEn = true ∧ (e.run.cont || e.run.pulse) = true ∧ (e.ports.drive i).readyIn = true then
          e.synth.sampleCnt + 1
        else e.synth.sampleCnt)

/-! ## The mode selector and the samples -/

/-- The mode of the tick selects the samples, running or not (R201): zero, the chirp's, or the two tones' sums
clamped to the sample range. -/
def Obligations.ModeSelectsTheSamples : Prop :=
  ∀ (c : Cfg) (e : Engine c) (scr : List Line), e.Ready →
    (∃ e' : Engine c, exec .modeIdle ⟨c, e, scr⟩ = .next ⟨c, e', scr⟩ ∧ e'.outs.outI = 0 ∧ e'.outs.outQ = 0) ∧
    (∃ e' : Engine c, exec .modeChirp ⟨c, e, scr⟩ = .next ⟨c, e', scr⟩ ∧
      e'.outs.outI = cosRd c e.synth.phaseC ∧ e'.outs.outQ = sinRd c e.synth.phaseC) ∧
    (∃ e' : Engine c, exec .modeDual ⟨c, e, scr⟩ = .next ⟨c, e', scr⟩ ∧
      e'.outs.outI = max (-(2 ^ (c.sampleW - 1)))
        (min (2 ^ (c.sampleW - 1) - 1) (cosRd c e.synth.phase1 + cosRd c e.synth.phase2)) ∧
      e'.outs.outQ = max (-(2 ^ (c.sampleW - 1)))
        (min (2 ^ (c.sampleW - 1) - 1) (sinRd c e.synth.phase1 + sinRd c e.synth.phase2))) ∧
    (∃ e' : Engine c, exec .modeRsvd3 ⟨c, e, scr⟩ = .next ⟨c, e', scr⟩ ∧ e'.outs.outI = 0 ∧ e'.outs.outQ = 0)

/-- The unrecognised mode behaves as Idle in every respect: same registers, same outputs (R205). -/
def Obligations.ReservedModeBehavesAsIdle : Prop :=
  ∀ (c : Cfg) (e : Engine c) (scr : List Line), wordAligned e.ports.busAddr = true →
    ∃ e1 e2 : Engine c, exec .modeIdle ⟨c, e, scr⟩ = .next ⟨c, e1, scr⟩ ∧
      exec .modeRsvd3 ⟨c, e, scr⟩ = .next ⟨c, e2, scr⟩ ∧
      e2 = { e1 with ports := { e1.ports with mode := 3 } }

/-- Every sample on an output fits its port: `out_i`, `out_q` are `SAMPLE_W`-bit signed values, the hop samples lie
in `[-AMP, AMP]` (R191 (a), R121 (e)). -/
def Obligations.SamplesStayInRange : Prop :=
  ∀ (c : Cfg) (e e' : Engine c) (scr : List Line) (i : Instr), exec i ⟨c, e, scr⟩ = .next ⟨c, e', scr⟩ →
    (-(2 ^ (c.sampleW - 1)) ≤ e'.outs.outI ∧ e'.outs.outI ≤ 2 ^ (c.sampleW - 1) - 1) ∧
    (-(2 ^ (c.sampleW - 1)) ≤ e'.outs.outQ ∧ e'.outs.outQ ≤ 2 ^ (c.sampleW - 1) - 1) ∧
    (-c.amp ≤ e'.outs.hopI ∧ e'.outs.hopI ≤ c.amp) ∧ (-c.amp ≤ e'.outs.hopQ ∧ e'.outs.hopQ ≤ c.amp)

/-- Saturation happens exactly when the exact sum of two table values is beyond `AMP` in size, except for
`-AMP - 1`, which passes; one guard bit holds every sum (R191 (d), R188). -/
def Obligations.SaturationHappensExactlyBeyondTheRange : Prop :=
  ∀ (c : Cfg) (i j : Nat), i < c.size → j < c.size →
    (combine c.sampleW (tableRead c i) (tableRead c j) = tableRead c i + tableRead c j ↔
      |tableRead c i + tableRead c j| ≤ c.amp ∨ tableRead c i + tableRead c j = -c.amp - 1) ∧
    -(2 ^ c.sampleW) ≤ tableRead c i + tableRead c j ∧ tableRead c i + tableRead c j ≤ 2 ^ c.sampleW - 1

/-! ## The hop NCO -/

/-- In every tick without reset in which `hop_en` is 1, presented by `HOP_RUN` or standing on the port while another
operation is executed: the phase advances by the word the pre-step hop state selects, state 3 selecting word 0 again;
the dwell counter counts below the bound, and at or above it is cleared and the hop state advances modulo 4
(R140 to R144; that a count strictly above the bound hops is the spec's decision D10). `HOP_RUN` brings its own words
and bound. -/
def Obligations.HopRunCountsOrHops : Prop :=
  (∀ (c : Cfg) (e : Engine c) (scr : List Line) (f0 f1 f2 b : Nat), e.Ready →
    f0 < 2 ^ c.w → f1 < 2 ^ c.w → f2 < 2 ^ c.w → b < 2 ^ c.hopCntW →
    ∃ e' : Engine c, exec (.hopRun f0 f1 f2 b) ⟨c, e, scr⟩ = .next ⟨c, e', scr⟩ ∧
      (e.hop.hopState = 0 ∨ e.hop.hopState = 3 → e'.hop.hopPhase = e.hop.hopPhase + BitVec.ofNat c.w f0) ∧
      (e.hop.hopState = 1 → e'.hop.hopPhase = e.hop.hopPhase + BitVec.ofNat c.w f1) ∧
      (e.hop.hopState = 2 → e'.hop.hopPhase = e.hop.hopPhase + BitVec.ofNat c.w f2) ∧
      (e.hop.dwellCnt.toNat < b →
        e'.hop.dwellCnt.toNat = e.hop.dwellCnt.toNat + 1 ∧ e'.hop.hopState = e.hop.hopState) ∧
      (b ≤ e.hop.dwellCnt.toNat →
        e'.hop.dwellCnt = 0 ∧ e'.hop.hopState.toNat = (e.hop.hopState.toNat + 1) % 4)) ∧
  (∀ (c : Cfg) (e : Engine c) (scr : List Line) (i : Instr), e.Runs i → (e.ports.drive i).hopEn = true →
    ∃ e' : Engine c, exec i ⟨c, e, scr⟩ = .next ⟨c, e', scr⟩ ∧
      (e.hop.hopState = 0 ∨ e.hop.hopState = 3 →
        e'.hop.hopPhase = e.hop.hopPhase + (e.ports.drive i).hopFw0) ∧
      (e.hop.hopState = 1 → e'.hop.hopPhase = e.hop.hopPhase + (e.ports.drive i).hopFw1) ∧
      (e.hop.hopState = 2 → e'.hop.hopPhase = e.hop.hopPhase + (e.ports.drive i).hopFw2) ∧
      (e.hop.dwellCnt.toNat < (e.ports.drive i).hopBound.toNat →
        e'.hop.dwellCnt.toNat = e.hop.dwellCnt.toNat + 1 ∧ e'.hop.hopState = e.hop.hopState) ∧
      ((e.ports.drive i).hopBound.toNat ≤ e.hop.dwellCnt.toNat →
        e'.hop.dwellCnt = 0 ∧ e'.hop.hopState.toNat = (e.hop.hopState.toNat + 1) % 4))

/-- `HOP_HOLD`: hop state, dwell counter and phase hold, and the samples still show (R145, R146). -/
def Obligations.HopHoldHoldsTheHopNco : Prop :=
  ∀ (c : Cfg) (e : Engine c) (scr : List Line), e.Ready →
    ∃ e' : Engine c, exec .hopHold ⟨c, e, scr⟩ = .next ⟨c, e', scr⟩ ∧ e'.hop = e.hop ∧
      e'.outs.hopI = cosRd c e.hop.hopPhase ∧ e'.outs.hopQ = sinRd c e.hop.hopPhase

/-- The word sequence: from hop state 0 with the count at 0, after `n` enabled ticks with constant words and bound
`B` the state is `n / (B+1) mod 4`, the count `n mod (B+1)`, and the phase has taken in the words `f0, f1, f2, f0`
in turn, each for `B + 1` ticks (R147, R143). -/
def Obligations.HopWordsRunInACycleOfFourDwells : Prop :=
  ∀ (c : Cfg) (e : Engine c) (scr : List Line) (f0 f1 f2 B n : Nat), e.Ready →
    f0 < 2 ^ c.w → f1 < 2 ^ c.w → f2 < 2 ^ c.w → B < 2 ^ c.hopCntW →
    e.hop.hopState = 0 → e.hop.dwellCnt = 0 →
    ∃ e' : Engine c, execTimes (.hopRun f0 f1 f2 B) n ⟨c, e, scr⟩ = .next ⟨c, e', scr⟩ ∧
      e'.hop.hopState.toNat = n / (B + 1) % 4 ∧ e'.hop.dwellCnt.toNat = n % (B + 1) ∧
      e'.hop.hopPhase.toNat =
        (e.hop.hopPhase.toNat + ∑ k ∈ Finset.range n, [f0, f1, f2, f0].getD (k / (B + 1) % 4) 0) % 2 ^ c.w

/-! ## The delay line -/

/-- `DL_IDLE`: nothing is written or read, so the pointer, the memory and the bank outputs hold and `re_q` clears
(for what the output then carries see `OutputWithoutAReadIsAFreshDraw`). `DL_RD`: the pointer and the memory hold, the
entry at the read pointer goes to its bank's output, and the read pointer has not moved (R232, R233). -/
def Obligations.DelayIdleAndReadLeaveTheMemory : Prop :=
  ∀ (c : Cfg) (e : Engine c) (scr : List Line), e.Ready → e.dl.wptr < c.total →
    (∃ e' : Engine c, exec .dlIdle ⟨c, e, scr⟩ = .next ⟨c, e', scr⟩ ∧
      e'.dl.wptr = e.dl.wptr ∧ (∀ q, e'.dl.bank.read q = e.dl.bank.read q) ∧
      (∀ b, e'.dl.reQ.getD b false = false) ∧
      (∀ b, b < c.nb → e'.dl.bankQ.getD b 0 = e.dl.bankQ.getD b 0)) ∧
    (∃ e' : Engine c, exec .dlRd ⟨c, e, scr⟩ = .next ⟨c, e', scr⟩ ∧
      e'.dl.wptr = e.dl.wptr ∧ (∀ q, e'.dl.bank.read q = e.dl.bank.read q) ∧
      (∀ b, b < c.nb → e'.dl.reQ.getD b false = (bankOf c (readPtr c e.dl.wptr) == b) ∧
        e'.dl.bankQ.getD b 0 =
          if bankOf c (readPtr c e.dl.wptr) = b then e.dl.bank.read (readPtr c e.dl.wptr)
          else e.dl.bankQ.getD b 0) ∧
      readPtr c e'.dl.wptr = readPtr c e.dl.wptr)

/-- `DL_WR`: the entry at the write pointer is overwritten and no other, the pointer advances modulo `TOTAL`, `re_q`
clears and the bank outputs hold. `DL_WRRD`: the same write, and the read of `DL_RD` from the pre-step pointer and
memory, never of the same entry (R234, R235). -/
def Obligations.DelayWritesStoreAtTheWritePointer : Prop :=
  ∀ (c : Cfg) (e : Engine c) (scr : List Line) (d : Nat), e.Ready → d < 2 ^ c.dataW → e.dl.wptr < c.total →
    e.dl.bank.wf = true →
    (∃ e' : Engine c, exec (.dlWr d) ⟨c, e, scr⟩ = .next ⟨c, e', scr⟩ ∧
      e'.dl.wptr = (e.dl.wptr + 1) % c.total ∧
      e'.dl.bank.read e.dl.wptr = BitVec.ofNat c.dataW d ∧
      (∀ q, q ≠ e.dl.wptr → e'.dl.bank.read q = e.dl.bank.read q) ∧
      (∀ b, e'.dl.reQ.getD b false = false) ∧
      (∀ b, b < c.nb → e'.dl.bankQ.getD b 0 = e.dl.bankQ.getD b 0)) ∧
    (∃ e' : Engine c, exec (.dlWrrd d) ⟨c, e, scr⟩ = .next ⟨c, e', scr⟩ ∧
      e'.dl.wptr = (e.dl.wptr + 1) % c.total ∧
      e'.dl.bank.read e.dl.wptr = BitVec.ofNat c.dataW d ∧
      (∀ q, q ≠ e.dl.wptr → e'.dl.bank.read q = e.dl.bank.read q) ∧
      (∀ b, b < c.nb → e'.dl.reQ.getD b false = (bankOf c (readPtr c e.dl.wptr) == b) ∧
        e'.dl.bankQ.getD b 0 =
          if bankOf c (readPtr c e.dl.wptr) = b then e.dl.bank.read (readPtr c e.dl.wptr)
          else e.dl.bankQ.getD b 0) ∧
      readPtr c e.dl.wptr ≠ e.dl.wptr)

/-- In every tick without reset, whichever operation is presented: `re_q` registers the read enables, a bank that is
read-enabled loads the pre-step content of the entry at the read pointer, and any other bank keeps its output
register (R230, R231). -/
def Obligations.EveryTickLoadsTheBankItReads : Prop :=
  ∀ (c : Cfg) (e : Engine c) (scr : List Line) (i : Instr), e.Runs i →
    ∃ e' : Engine c, exec i ⟨c, e, scr⟩ = .next ⟨c, e', scr⟩ ∧
      ∀ b, b < c.nb →
        e'.dl.reQ.getD b false = readEn c (e.ports.drive i) e.dl.wptr b ∧
        (readEn c (e.ports.drive i) e.dl.wptr b = true →
          e'.dl.bankQ.getD b 0 = e.dl.bank.read (b * c.bankDepth + readPtr c e.dl.wptr % c.bankDepth)) ∧
        (readEn c (e.ports.drive i) e.dl.wptr b = false → e'.dl.bankQ.getD b 0 = e.dl.bankQ.getD b 0)

/-- A read's data is on `dl_dout` in the next tick, or one tick later with the output register, whatever those ticks
present, as long as they do not reset (R230, R236, R237). -/
def Obligations.ReadDataArrivesAfterTheLatency : Prop :=
  ∀ (c : Cfg) (e : Engine c) (scr : List Line) (i j k : Instr), e.Runs i →
    (e.ports.drive i).dlRdEn = true → e.dl.wptr < c.total →
    ∀ e1 e2 e3 : Engine c, exec i ⟨c, e, scr⟩ = .next ⟨c, e1, scr⟩ → j ≠ .reset → k ≠ .reset →
      exec j ⟨c, e1, scr⟩ = .next ⟨c, e2, scr⟩ → exec k ⟨c, e2, scr⟩ = .next ⟨c, e3, scr⟩ →
      (c.outReg = false → e2.outs.dlDout = e.dl.bank.read (readPtr c e.dl.wptr)) ∧
      (c.outReg = true → e3.outs.dlDout = e.dl.bank.read (readPtr c e.dl.wptr))

/-- In a tick whose previous tick read no bank the multiplexer carries an unspecified value, the next free draw,
whatever the count of draws is (R236; the counter is the model's, log 10). -/
def Obligations.OutputWithoutAReadIsAFreshDraw : Prop :=
  ∀ (c : Cfg) (e : Engine c) (scr : List Line) (i : Instr), e.Runs i →
    (∀ b, b < c.nb → e.dl.reQ.getD b false = false) →
    ∃ e' : Engine c, exec i ⟨c, e, scr⟩ = .next ⟨c, e', scr⟩ ∧ e'.draws = e.draws + 1 ∧
      (c.outReg = false → e'.outs.dlDout = Config.anyMux c.dataW e.draws) ∧
      (c.outReg = true → e'.outs.dlDout = e.dl.doutReg ∧ e'.dl.doutReg = Config.anyMux c.dataW e.draws)

/-- `rptr = (wptr - DELAY) mod TOTAL` is an entry of the memory and never the one being written (R226, R72). -/
def Obligations.ReadPointerIsNeverTheWritePointer : Prop :=
  ∀ (c : Cfg) (wptr : Nat), wptr < c.total →
    readPtr c wptr = (wptr + c.total - c.delay) % c.total ∧ readPtr c wptr < c.total ∧ readPtr c wptr ≠ wptr

/-- The translation of pointers to banks and rows: bank `p div BANK_DEPTH`, row `p mod BANK_DEPTH`, a bijection with
inverse `bank * BANK_DEPTH + row`, consecutive pointers filling a bank before the next (R67). -/
def Obligations.BankTranslationIsABijection : Prop :=
  ∀ c : Cfg,
    (∀ p, p < c.total → bankOf c p = p / c.bankDepth ∧ rowOf c p = p % c.bankDepth ∧ bankOf c p < c.nb ∧
      rowOf c p < c.bankDepth ∧ bankOf c p * c.bankDepth + rowOf c p = p) ∧
    (∀ b r, b < c.nb → r < c.bankDepth →
      b * c.bankDepth + r < c.total ∧ bankOf c (b * c.bankDepth + r) = b ∧ rowOf c (b * c.bankDepth + r) = r) ∧
    (∀ p, rowOf c p + 1 < c.bankDepth → bankOf c (p + 1) = bankOf c p ∧ rowOf c (p + 1) = rowOf c p + 1)

/-- The enables of each bank, and static exclusion: in every tick at most one bank is written and at most one is
read, and exactly one where the enable is set and there is no reset (R227; R238 follows). -/
def Obligations.AtMostOneBankIsWrittenAndOneRead : Prop :=
  ∀ (c : Cfg) (p : Ports c.w c.hopCntW c.dataW) (wptr : Nat), wptr < c.total →
    (∀ b, writeEn c p wptr b = true ↔ p.dlWrEn = true ∧ wptr / c.bankDepth = b ∧ p.rst = false) ∧
    (∀ b, readEn c p wptr b = true ↔
      p.dlRdEn = true ∧ (wptr + (c.total - c.delay)) % c.total / c.bankDepth = b ∧ p.rst = false) ∧
    (∀ b b', writeEn c p wptr b = true → writeEn c p wptr b' = true → b = b') ∧
    (∀ b b', readEn c p wptr b = true → readEn c p wptr b' = true → b = b') ∧
    ((∃ b, b < c.nb ∧ writeEn c p wptr b = true) ↔ p.dlWrEn = true ∧ p.rst = false) ∧
    ((∃ b, b < c.nb ∧ readEn c p wptr b = true) ↔ p.dlRdEn = true ∧ p.rst = false)

/-- Delay fidelity: when every tick from a reset on is `DL_WRRD` and `din t` is what tick `t` writes, then from the
fill point on `dl_dout` in tick `t` is `din (t - DELAY - LAT)`, with `LAT` 1, or 2 with the output register
(R240, R239). -/
def Obligations.DelayLineDelaysByDelayPlusLatency : Prop :=
  ∀ (c : Cfg) (e e0 : Engine c) (scr : List Line) (din : Nat → Nat) (t lat : Nat),
    e.dl.bank.wf = true → exec .reset ⟨c, e, scr⟩ = .next ⟨c, e0, scr⟩ → (∀ k, din k < 2 ^ c.dataW) →
    lat = (if c.outReg then 2 else 1) → c.delay + lat ≤ t →
    ∃ e' : Engine c, execSeq (fun k => .dlWrrd (din k)) (t + 1) ⟨c, e0, scr⟩ = .next ⟨c, e', scr⟩ ∧
      e'.outs.dlDout = BitVec.ofNat c.dataW (din (t - c.delay - lat))

/-- The smaller model of the read path, with one valid bit and one data register, cannot be told from the banked
one, reset ticks included: from states that correspond, the multiplexers of the states a tick shows agree, draws
included, and the next states correspond; and for every operation executed `dl_dout` is the smaller model's and the
next states correspond (R242). -/
def Obligations.SmallDelayModelIsEquivalent : Prop :=
  (∀ (c : Cfg) (d : DelayLine c.dataW) (m : SmallDelay c.dataW) (p : Ports c.w c.hopCntW c.dataW) (n : Nat),
    d.wptr < c.total → (∀ b b', d.reQ.getD b false = true → d.reQ.getD b' false = true → b = b') →
    m.Simulates d →
    (m.shown p.rst).mux c n = mux c (if p.rst then d.reset c.nb else d) n ∧
    (p.rst = false → (m.next c p (m.mux c n).1).Simulates (d.next c p (mux c d n).1)) ∧
    (p.rst = true → ∀ x, (m.next c p x).Simulates (d.reset c.nb))) ∧
  (∀ (c : Cfg) (e e' : Engine c) (m : SmallDelay c.dataW) (scr : List Line) (i : Instr),
    e.dl.wptr < c.total → (∀ b b', e.dl.reQ.getD b false = true → e.dl.reQ.getD b' false = true → b = b') →
    m.Simulates e.dl → exec i ⟨c, e, scr⟩ = .next ⟨c, e', scr⟩ →
    let v := m.shown (e.ports.drive i).rst
    e'.outs.dlDout = v.dout c (v.mux c e.draws).1 ∧ e'.draws = (v.mux c e.draws).2 ∧
      (m.next c (e.ports.drive i) (v.mux c e.draws).1).Simulates e'.dl)

/-! ## Frames -/

/-- No operation changes an entry of the delay memory except the one at the write pointer, and that one only with
the write enable up and no reset, to `dl_din` (R228, R69, R323). -/
def Obligations.OnlyTheWriteEnableChangesTheMemory : Prop :=
  ∀ (c : Cfg) (e e' : Engine c) (scr : List Line) (i : Instr), e.dl.wptr < c.total → e.dl.bank.wf = true →
    exec i ⟨c, e, scr⟩ = .next ⟨c, e', scr⟩ →
    ∀ q, e'.dl.bank.read q =
      if (e.ports.drive i).dlWrEn = true ∧ (e.ports.drive i).rst = false ∧ q = e.dl.wptr then (e.ports.drive i).dlDin
      else e.dl.bank.read q

/-- What a field cannot influence: two operations of the same field, presented in the same state, leave the same
registers in every group the field does not feed, and the same outputs but those it selects (R20, R208, R214, R270,
R90). The bus feeds the control registers and `bus_rdata` only; the mode only the synthesis accumulators and
`out_i`, `out_q`; ready only the synthesis accumulators; hop and delay-line fields only their own unit. -/
def Obligations.FieldsInfluenceOnlyTheirOwnUnit : Prop :=
  ∀ (c : Cfg) (e e1 e2 : Engine c) (scr : List Line) (i j : Instr),
    exec i ⟨c, e, scr⟩ = .next ⟨c, e1, scr⟩ → exec j ⟨c, e, scr⟩ = .next ⟨c, e2, scr⟩ → i.field = j.field →
    (i.field = .bus → e1.run = e2.run ∧ e1.synth = e2.synth ∧ e1.hop = e2.hop ∧ e1.dl = e2.dl ∧
      e1.outs = { e2.outs with busRdata := e1.outs.busRdata } ∧ e1.ports = e2.ports) ∧
    (i.field = .mode → e1.ctrl = e2.ctrl ∧ e1.run = e2.run ∧ e1.hop = e2.hop ∧ e1.dl = e2.dl ∧
      e1.synth.sampleCnt = e2.synth.sampleCnt ∧
      e1.outs = { e2.outs with outI := e1.outs.outI, outQ := e1.outs.outQ }) ∧
    (i.field = .rdy → e1.ctrl = e2.ctrl ∧ e1.run = e2.run ∧ e1.hop = e2.hop ∧ e1.dl = e2.dl ∧ e1.outs = e2.outs) ∧
    (i.field = .hop → e1.ctrl = e2.ctrl ∧ e1.run = e2.run ∧ e1.synth = e2.synth ∧ e1.dl = e2.dl ∧
      e1.outs = e2.outs) ∧
    (i.field = .dl → e1.ctrl = e2.ctrl ∧ e1.run = e2.run ∧ e1.synth = e2.synth ∧ e1.hop = e2.hop ∧
      e1.outs = e2.outs)

/-- A quiet tick holds everything: running, with no command pending, no pulse, no write or read on the bus but the
idle one, ready low, the hop NCO and the delay line disabled and the retention policy on, every register keeps its
value, the delay memory included; only the registered read enables clear (R166, R190, R212, R145, R232, R261). -/
def Obligations.QuietTickHoldsEveryRegister : Prop :=
  ∀ (c : Cfg) (e : Engine c) (scr : List Line), e.Inv → e.ports.hopEn = false → c.modeSwitchReset = false →
    c.outReg = false → e.run.cont = true → e.run.pulse = false → e.ctrl.cmd = 0 →
    ∃ e' : Engine c, exec .stall ⟨c, e, scr⟩ = .next ⟨c, e', scr⟩ ∧
      e'.ctrl = e.ctrl ∧ e'.run = e.run ∧ e'.synth = e.synth ∧ e'.hop = e.hop ∧
      e'.dl = { e.dl with reQ := List.replicate c.nb false }

/-- The frame of every operation that is not `RESET`: a unit whose own enable is down in the tick holds. Without a
bus write the three words hold and only the command latch clears; with `hop_en = 0` the hop NCO holds; without a
write the pointer and the memory hold; without a read no bank is marked and the bank outputs hold; an absent counter
or output register holds. The level ports keep what the tick carried, which is the model's (log 2). -/
def Obligations.UnitsHoldUnlessTheirOwnEnableIsUp : Prop :=
  ∀ (c : Cfg) (e : Engine c) (scr : List Line) (i : Instr), e.Runs i →
    ∃ e' : Engine c, exec i ⟨c, e, scr⟩ = .next ⟨c, e', scr⟩ ∧
      ((e.ports.drive i).busWe = false → e'.ctrl = ⟨0, e.ctrl.twMin, e.ctrl.twMax, e.ctrl.chirpStep⟩) ∧
      ((e.ports.drive i).hopEn = false → e'.hop = e.hop) ∧
      ((e.ports.drive i).dlWrEn = false → e'.dl.wptr = e.dl.wptr ∧ e'.dl.bank = e.dl.bank) ∧
      ((e.ports.drive i).dlRdEn = false →
        (∀ b, e'.dl.reQ.getD b false = false) ∧ (∀ b, b < c.nb → e'.dl.bankQ.getD b 0 = e.dl.bankQ.getD b 0)) ∧
      (c.outReg = false → e'.dl.doutReg = e.dl.doutReg) ∧
      (c.sampleCntEn = false → e'.synth.sampleCnt = e.synth.sampleCnt) ∧
      e'.ports = (e.ports.drive i).relax
end

