-- ==== Sys2Proof/Laws/Encoding.lean ====
section
/-! SUPPORT. The fields of a bus word built from its fields. -/

namespace Sys2Proof.Laws

theorem busWord_eq (w : Nat) (we : Bool) (a d : Nat) :
    busWord w we a d = (16 * we.toNat + a) * 2 ^ w + d := by
  cases we
  · simp [busWord]
  · simp only [busWord, Nat.pow_add]; simp; ring

theorem busData_busWord (w : Nat) (we : Bool) (a d : Nat) (hd : d < 2 ^ w) : busData w (busWord w we a d) = d := by
  rw [busWord_eq, busData, Nat.add_comm, Nat.add_mul_mod_self_right, Nat.mod_eq_of_lt hd]

theorem busAddr_busWord (w : Nat) (we : Bool) (a d : Nat) (ha : a < 16) (hd : d < 2 ^ w) :
    busAddr w (busWord w we a d) = a := by
  rw [busWord_eq, busAddr, Nat.add_comm, Nat.add_mul_div_right _ _ (Nat.two_pow_pos w), Nat.div_eq_of_lt hd]
  omega

theorem busWe_busWord (w : Nat) (we : Bool) (a d : Nat) (ha : a < 16) (hd : d < 2 ^ w) :
    busWe w (busWord w we a d) = we := by
  have h : busWord w we a d / 2 ^ (w + 4) = we.toNat := by
    rw [busWord_eq, Nat.pow_add, ← Nat.div_div_eq_div_mul, Nat.add_comm, Nat.add_mul_div_right _ _ (Nat.two_pow_pos w),
      Nat.div_eq_of_lt hd]
    omega
  rw [busWe, h]
  cases we <;> rfl

theorem busWord_lt (w : Nat) (we : Bool) (a d : Nat) (ha : a < 16) (hd : d < 2 ^ w) :
    busWord w we a d < 2 ^ (w + 5) := by
  have h : (16 * we.toNat + a) + 1 ≤ 32 := by cases we <;> simp <;> omega
  have h2 := Nat.mul_le_mul_right (2 ^ w) h
  rw [busWord_eq, Nat.pow_add]
  have : 2 ^ w * 2 ^ 5 = 32 * 2 ^ w := by ring
  rw [this]
  rw [Nat.add_mul] at h2
  omega

end Sys2Proof.Laws
end

