-- ==== Sys2Proof/Laws/Memory.lean ====
section
/-! SUPPORT. The laws of the delay memory: what a write does to every entry, and that it keeps the canonical form. -/

namespace Sys2Proof.Laws

open Sys2Proof.Machine

variable {dw : Nat}

theorem written_write (m : DelayMem dw) (q a : Nat) (v : Word dw) (lo : Nat)
    (hm : m.risingFrom lo = true) :
    (m.write q v).written a = if a = q then some v else m.written a := by
  induction m generalizing lo with
  | nil => simp only [DelayMem.write, DelayMem.written]; split <;> split <;> first | rfl | omega
  | cons x rest ih =>
    obtain ⟨b, u⟩ := x
    simp only [DelayMem.risingFrom, Bool.and_eq_true, decide_eq_true_eq] at hm
    have h := ih (b + 1) hm.2
    simp only [DelayMem.write]
    split
    · simp only [DelayMem.written]
      by_cases ha : a = q
      · subst ha; simp
      · simp [ha, Ne.symm ha]
    · split
      · rename_i hb
        subst hb
        by_cases ha : a = b
        · subst ha; simp [DelayMem.written]
        · simp [DelayMem.written, ha, Ne.symm ha]
      · rename_i hq hb
        simp only [DelayMem.written]
        by_cases hba : b = a
        · subst hba; simp [hb]
        · simp [hba, h]

theorem risingFrom_write (m : DelayMem dw) (q : Nat) (v : Word dw) (lo : Nat) (hlo : lo ≤ q)
    (hm : m.risingFrom lo = true) : (m.write q v).risingFrom lo = true := by
  induction m generalizing lo with
  | nil => simp [DelayMem.write, DelayMem.risingFrom, hlo]
  | cons x rest ih =>
    obtain ⟨b, u⟩ := x
    simp only [DelayMem.risingFrom, Bool.and_eq_true, decide_eq_true_eq] at hm
    simp only [DelayMem.write]
    split
    · rename_i h
      simp only [DelayMem.risingFrom, Bool.and_eq_true, decide_eq_true_eq]
      exact ⟨hlo, by omega, hm.2⟩
    · split
      · rename_i hb
        subst hb
        simp only [DelayMem.risingFrom, Bool.and_eq_true, decide_eq_true_eq]
        exact hm
      · rename_i hq hb
        simp only [DelayMem.risingFrom, Bool.and_eq_true, decide_eq_true_eq]
        exact ⟨hm.1, ih (b + 1) (by omega) hm.2⟩

/-- A write keeps the canonical form. -/
theorem write_wf (m : DelayMem dw) (q : Nat) (v : Word dw) (hm : m.wf = true) : (m.write q v).wf = true :=
  risingFrom_write m q v 0 (Nat.zero_le q) hm

/-- Reading after a write: the written entry gives the value written, every other entry what it gave before. -/
theorem read_write (m : DelayMem dw) (q a : Nat) (v : Word dw) (hm : m.wf = true) :
    (m.write q v).read a = if a = q then v else m.read a := by
  simp only [DelayMem.read, written_write m q a v 0 hm]
  split <;> simp

/-- The memory of a fresh instance is in canonical form. -/
theorem fresh_wf (nb dw : Nat) : (DelayLine.fresh nb dw).bank.wf = true := rfl

end Sys2Proof.Laws
end

