-- ==== Sys2Proof/Laws/State.lean ====
section
/-! SUPPORT. One lemma per field per update: what driving the ports, presenting an operation, relaxing the ports and
resetting the registers leave in each field, all by definition. -/

namespace Sys2Proof.Laws

open Sys2Proof.Machine

section ports
variable {w hw dw : Nat} (p : Ports w hw dw)

@[simp] theorem driveBus_rst (we : Bool) (addr : BitVec 4) (data : Nat) : (p.driveBus we addr data).rst = p.rst := rfl
@[simp] theorem driveBus_busWe (we : Bool) (addr : BitVec 4) (data : Nat) : (p.driveBus we addr data).busWe = we := rfl
@[simp] theorem driveBus_busAddr (we : Bool) (addr : BitVec 4) (data : Nat) : (p.driveBus we addr data).busAddr = addr := rfl
@[simp] theorem driveBus_busWdata (we : Bool) (addr : BitVec 4) (data : Nat) : (p.driveBus we addr data).busWdata = BitVec.ofNat w data := rfl
@[simp] theorem driveBus_mode (we : Bool) (addr : BitVec 4) (data : Nat) : (p.driveBus we addr data).mode = p.mode := rfl
@[simp] theorem driveBus_readyIn (we : Bool) (addr : BitVec 4) (data : Nat) : (p.driveBus we addr data).readyIn = p.readyIn := rfl
@[simp] theorem driveBus_hopEn (we : Bool) (addr : BitVec 4) (data : Nat) : (p.driveBus we addr data).hopEn = p.hopEn := rfl
@[simp] theorem driveBus_hopFw0 (we : Bool) (addr : BitVec 4) (data : Nat) : (p.driveBus we addr data).hopFw0 = p.hopFw0 := rfl
@[simp] theorem driveBus_hopFw1 (we : Bool) (addr : BitVec 4) (data : Nat) : (p.driveBus we addr data).hopFw1 = p.hopFw1 := rfl
@[simp] theorem driveBus_hopFw2 (we : Bool) (addr : BitVec 4) (data : Nat) : (p.driveBus we addr data).hopFw2 = p.hopFw2 := rfl
@[simp] theorem driveBus_hopBound (we : Bool) (addr : BitVec 4) (data : Nat) : (p.driveBus we addr data).hopBound = p.hopBound := rfl
@[simp] theorem driveBus_dlWrEn (we : Bool) (addr : BitVec 4) (data : Nat) : (p.driveBus we addr data).dlWrEn = p.dlWrEn := rfl
@[simp] theorem driveBus_dlRdEn (we : Bool) (addr : BitVec 4) (data : Nat) : (p.driveBus we addr data).dlRdEn = p.dlRdEn := rfl
@[simp] theorem driveBus_dlDin (we : Bool) (addr : BitVec 4) (data : Nat) : (p.driveBus we addr data).dlDin = p.dlDin := rfl

@[simp] theorem driveMode_rst (m : BitVec 2) : (p.driveMode m).rst = p.rst := rfl
@[simp] theorem driveMode_busWe (m : BitVec 2) : (p.driveMode m).busWe = p.busWe := rfl
@[simp] theorem driveMode_busAddr (m : BitVec 2) : (p.driveMode m).busAddr = p.busAddr := rfl
@[simp] theorem driveMode_busWdata (m : BitVec 2) : (p.driveMode m).busWdata = p.busWdata := rfl
@[simp] theorem driveMode_mode (m : BitVec 2) : (p.driveMode m).mode = m := rfl
@[simp] theorem driveMode_readyIn (m : BitVec 2) : (p.driveMode m).readyIn = p.readyIn := rfl
@[simp] theorem driveMode_hopEn (m : BitVec 2) : (p.driveMode m).hopEn = p.hopEn := rfl
@[simp] theorem driveMode_hopFw0 (m : BitVec 2) : (p.driveMode m).hopFw0 = p.hopFw0 := rfl
@[simp] theorem driveMode_hopFw1 (m : BitVec 2) : (p.driveMode m).hopFw1 = p.hopFw1 := rfl
@[simp] theorem driveMode_hopFw2 (m : BitVec 2) : (p.driveMode m).hopFw2 = p.hopFw2 := rfl
@[simp] theorem driveMode_hopBound (m : BitVec 2) : (p.driveMode m).hopBound = p.hopBound := rfl
@[simp] theorem driveMode_dlWrEn (m : BitVec 2) : (p.driveMode m).dlWrEn = p.dlWrEn := rfl
@[simp] theorem driveMode_dlRdEn (m : BitVec 2) : (p.driveMode m).dlRdEn = p.dlRdEn := rfl
@[simp] theorem driveMode_dlDin (m : BitVec 2) : (p.driveMode m).dlDin = p.dlDin := rfl

@[simp] theorem driveReady_rst (b : Bool) : (p.driveReady b).rst = p.rst := rfl
@[simp] theorem driveReady_busWe (b : Bool) : (p.driveReady b).busWe = p.busWe := rfl
@[simp] theorem driveReady_busAddr (b : Bool) : (p.driveReady b).busAddr = p.busAddr := rfl
@[simp] theorem driveReady_busWdata (b : Bool) : (p.driveReady b).busWdata = p.busWdata := rfl
@[simp] theorem driveReady_mode (b : Bool) : (p.driveReady b).mode = p.mode := rfl
@[simp] theorem driveReady_readyIn (b : Bool) : (p.driveReady b).readyIn = b := rfl
@[simp] theorem driveReady_hopEn (b : Bool) : (p.driveReady b).hopEn = p.hopEn := rfl
@[simp] theorem driveReady_hopFw0 (b : Bool) : (p.driveReady b).hopFw0 = p.hopFw0 := rfl
@[simp] theorem driveReady_hopFw1 (b : Bool) : (p.driveReady b).hopFw1 = p.hopFw1 := rfl
@[simp] theorem driveReady_hopFw2 (b : Bool) : (p.driveReady b).hopFw2 = p.hopFw2 := rfl
@[simp] theorem driveReady_hopBound (b : Bool) : (p.driveReady b).hopBound = p.hopBound := rfl
@[simp] theorem driveReady_dlWrEn (b : Bool) : (p.driveReady b).dlWrEn = p.dlWrEn := rfl
@[simp] theorem driveReady_dlRdEn (b : Bool) : (p.driveReady b).dlRdEn = p.dlRdEn := rfl
@[simp] theorem driveReady_dlDin (b : Bool) : (p.driveReady b).dlDin = p.dlDin := rfl

@[simp] theorem driveHopHold_rst : p.driveHopHold.rst = p.rst := rfl
@[simp] theorem driveHopHold_busWe : p.driveHopHold.busWe = p.busWe := rfl
@[simp] theorem driveHopHold_busAddr : p.driveHopHold.busAddr = p.busAddr := rfl
@[simp] theorem driveHopHold_busWdata : p.driveHopHold.busWdata = p.busWdata := rfl
@[simp] theorem driveHopHold_mode : p.driveHopHold.mode = p.mode := rfl
@[simp] theorem driveHopHold_readyIn : p.driveHopHold.readyIn = p.readyIn := rfl
@[simp] theorem driveHopHold_hopEn : p.driveHopHold.hopEn = false := rfl
@[simp] theorem driveHopHold_hopFw0 : p.driveHopHold.hopFw0 = p.hopFw0 := rfl
@[simp] theorem driveHopHold_hopFw1 : p.driveHopHold.hopFw1 = p.hopFw1 := rfl
@[simp] theorem driveHopHold_hopFw2 : p.driveHopHold.hopFw2 = p.hopFw2 := rfl
@[simp] theorem driveHopHold_hopBound : p.driveHopHold.hopBound = p.hopBound := rfl
@[simp] theorem driveHopHold_dlWrEn : p.driveHopHold.dlWrEn = p.dlWrEn := rfl
@[simp] theorem driveHopHold_dlRdEn : p.driveHopHold.dlRdEn = p.dlRdEn := rfl
@[simp] theorem driveHopHold_dlDin : p.driveHopHold.dlDin = p.dlDin := rfl

@[simp] theorem driveHopRun_rst (f0 f1 f2 b : Nat) : (p.driveHopRun f0 f1 f2 b).rst = p.rst := rfl
@[simp] theorem driveHopRun_busWe (f0 f1 f2 b : Nat) : (p.driveHopRun f0 f1 f2 b).busWe = p.busWe := rfl
@[simp] theorem driveHopRun_busAddr (f0 f1 f2 b : Nat) : (p.driveHopRun f0 f1 f2 b).busAddr = p.busAddr := rfl
@[simp] theorem driveHopRun_busWdata (f0 f1 f2 b : Nat) : (p.driveHopRun f0 f1 f2 b).busWdata = p.busWdata := rfl
@[simp] theorem driveHopRun_mode (f0 f1 f2 b : Nat) : (p.driveHopRun f0 f1 f2 b).mode = p.mode := rfl
@[simp] theorem driveHopRun_readyIn (f0 f1 f2 b : Nat) : (p.driveHopRun f0 f1 f2 b).readyIn = p.readyIn := rfl
@[simp] theorem driveHopRun_hopEn (f0 f1 f2 b : Nat) : (p.driveHopRun f0 f1 f2 b).hopEn = true := rfl
@[simp] theorem driveHopRun_hopFw0 (f0 f1 f2 b : Nat) : (p.driveHopRun f0 f1 f2 b).hopFw0 = BitVec.ofNat w f0 := rfl
@[simp] theorem driveHopRun_hopFw1 (f0 f1 f2 b : Nat) : (p.driveHopRun f0 f1 f2 b).hopFw1 = BitVec.ofNat w f1 := rfl
@[simp] theorem driveHopRun_hopFw2 (f0 f1 f2 b : Nat) : (p.driveHopRun f0 f1 f2 b).hopFw2 = BitVec.ofNat w f2 := rfl
@[simp] theorem driveHopRun_hopBound (f0 f1 f2 b : Nat) : (p.driveHopRun f0 f1 f2 b).hopBound = BitVec.ofNat hw b := rfl
@[simp] theorem driveHopRun_dlWrEn (f0 f1 f2 b : Nat) : (p.driveHopRun f0 f1 f2 b).dlWrEn = p.dlWrEn := rfl
@[simp] theorem driveHopRun_dlRdEn (f0 f1 f2 b : Nat) : (p.driveHopRun f0 f1 f2 b).dlRdEn = p.dlRdEn := rfl
@[simp] theorem driveHopRun_dlDin (f0 f1 f2 b : Nat) : (p.driveHopRun f0 f1 f2 b).dlDin = p.dlDin := rfl

@[simp] theorem driveDelay_rst (wr rd : Bool) (din : Nat) : (p.driveDelay wr rd din).rst = p.rst := rfl
@[simp] theorem driveDelay_busWe (wr rd : Bool) (din : Nat) : (p.driveDelay wr rd din).busWe = p.busWe := rfl
@[simp] theorem driveDelay_busAddr (wr rd : Bool) (din : Nat) : (p.driveDelay wr rd din).busAddr = p.busAddr := rfl
@[simp] theorem driveDelay_busWdata (wr rd : Bool) (din : Nat) : (p.driveDelay wr rd din).busWdata = p.busWdata := rfl
@[simp] theorem driveDelay_mode (wr rd : Bool) (din : Nat) : (p.driveDelay wr rd din).mode = p.mode := rfl
@[simp] theorem driveDelay_readyIn (wr rd : Bool) (din : Nat) : (p.driveDelay wr rd din).readyIn = p.readyIn := rfl
@[simp] theorem driveDelay_hopEn (wr rd : Bool) (din : Nat) : (p.driveDelay wr rd din).hopEn = p.hopEn := rfl
@[simp] theorem driveDelay_hopFw0 (wr rd : Bool) (din : Nat) : (p.driveDelay wr rd din).hopFw0 = p.hopFw0 := rfl
@[simp] theorem driveDelay_hopFw1 (wr rd : Bool) (din : Nat) : (p.driveDelay wr rd din).hopFw1 = p.hopFw1 := rfl
@[simp] theorem driveDelay_hopFw2 (wr rd : Bool) (din : Nat) : (p.driveDelay wr rd din).hopFw2 = p.hopFw2 := rfl
@[simp] theorem driveDelay_hopBound (wr rd : Bool) (din : Nat) : (p.driveDelay wr rd din).hopBound = p.hopBound := rfl
@[simp] theorem driveDelay_dlWrEn (wr rd : Bool) (din : Nat) : (p.driveDelay wr rd din).dlWrEn = wr := rfl
@[simp] theorem driveDelay_dlRdEn (wr rd : Bool) (din : Nat) : (p.driveDelay wr rd din).dlRdEn = rd := rfl
@[simp] theorem driveDelay_dlDin (wr rd : Bool) (din : Nat) : (p.driveDelay wr rd din).dlDin = BitVec.ofNat dw din := rfl

@[simp] theorem driveRst_rst (b : Bool) : (p.driveRst b).rst = b := rfl
@[simp] theorem driveRst_busWe (b : Bool) : (p.driveRst b).busWe = p.busWe := rfl
@[simp] theorem driveRst_busAddr (b : Bool) : (p.driveRst b).busAddr = p.busAddr := rfl
@[simp] theorem driveRst_busWdata (b : Bool) : (p.driveRst b).busWdata = p.busWdata := rfl
@[simp] theorem driveRst_mode (b : Bool) : (p.driveRst b).mode = p.mode := rfl
@[simp] theorem driveRst_readyIn (b : Bool) : (p.driveRst b).readyIn = p.readyIn := rfl
@[simp] theorem driveRst_hopEn (b : Bool) : (p.driveRst b).hopEn = p.hopEn := rfl
@[simp] theorem driveRst_hopFw0 (b : Bool) : (p.driveRst b).hopFw0 = p.hopFw0 := rfl
@[simp] theorem driveRst_hopFw1 (b : Bool) : (p.driveRst b).hopFw1 = p.hopFw1 := rfl
@[simp] theorem driveRst_hopFw2 (b : Bool) : (p.driveRst b).hopFw2 = p.hopFw2 := rfl
@[simp] theorem driveRst_hopBound (b : Bool) : (p.driveRst b).hopBound = p.hopBound := rfl
@[simp] theorem driveRst_dlWrEn (b : Bool) : (p.driveRst b).dlWrEn = p.dlWrEn := rfl
@[simp] theorem driveRst_dlRdEn (b : Bool) : (p.driveRst b).dlRdEn = p.dlRdEn := rfl
@[simp] theorem driveRst_dlDin (b : Bool) : (p.driveRst b).dlDin = p.dlDin := rfl

@[simp] theorem relax_rst : p.relax.rst = false := rfl
@[simp] theorem relax_busWe : p.relax.busWe = false := rfl
@[simp] theorem relax_busAddr : p.relax.busAddr = 0 := rfl
@[simp] theorem relax_busWdata : p.relax.busWdata = 0 := rfl
@[simp] theorem relax_mode : p.relax.mode = p.mode := rfl
@[simp] theorem relax_readyIn : p.relax.readyIn = p.readyIn := rfl
@[simp] theorem relax_hopEn : p.relax.hopEn = p.hopEn := rfl
@[simp] theorem relax_hopFw0 : p.relax.hopFw0 = p.hopFw0 := rfl
@[simp] theorem relax_hopFw1 : p.relax.hopFw1 = p.hopFw1 := rfl
@[simp] theorem relax_hopFw2 : p.relax.hopFw2 = p.hopFw2 := rfl
@[simp] theorem relax_hopBound : p.relax.hopBound = p.hopBound := rfl
@[simp] theorem relax_dlWrEn : p.relax.dlWrEn = false := rfl
@[simp] theorem relax_dlRdEn : p.relax.dlRdEn = false := rfl
@[simp] theorem relax_dlDin : p.relax.dlDin = 0 := rfl

end ports

section engine
variable {c : Cfg} (e : Engine c)

@[simp] theorem resetRegs_ctrl : e.resetRegs.ctrl = .reset c.w := rfl
@[simp] theorem resetRegs_run : e.resetRegs.run = .reset c.pulseCntW := rfl
@[simp] theorem resetRegs_synth : e.resetRegs.synth = .reset c.w := rfl
@[simp] theorem resetRegs_hop : e.resetRegs.hop = .reset c.w c.hopCntW := rfl
@[simp] theorem resetRegs_dl : e.resetRegs.dl = e.dl.reset c.nb := rfl
@[simp] theorem resetRegs_ports : e.resetRegs.ports = e.ports := rfl
@[simp] theorem resetRegs_outs : e.resetRegs.outs = e.outs := rfl
@[simp] theorem resetRegs_draws : e.resetRegs.draws = e.draws := rfl

@[simp] theorem advance_ctrl (m : Word c.dataW) : (e.advance m).ctrl = e.ctrl.next e.ports := rfl
@[simp] theorem advance_run (m : Word c.dataW) : (e.advance m).run = e.run.next c.pulseLen e.ctrl.cmd := rfl
@[simp] theorem advance_synth (m : Word c.dataW) : (e.advance m).synth = e.synth.next c.modeSwitchReset c.sampleCntEn e.ctrl e.run e.ports := rfl
@[simp] theorem advance_hop (m : Word c.dataW) : (e.advance m).hop = e.hop.next e.ports := rfl
@[simp] theorem advance_dl (m : Word c.dataW) : (e.advance m).dl = e.dl.next c e.ports m := rfl
@[simp] theorem advance_ports (m : Word c.dataW) : (e.advance m).ports = e.ports := rfl
@[simp] theorem advance_outs (m : Word c.dataW) : (e.advance m).outs = e.outs := rfl
@[simp] theorem advance_draws (m : Word c.dataW) : (e.advance m).draws = e.draws := rfl

theorem shown_of_run (h : e.ports.rst = false) : e.shown = e := by simp [Engine.shown, h]
theorem shown_of_reset (h : e.ports.rst = true) : e.shown = e.resetRegs := by simp [Engine.shown, h]
@[simp] theorem shown_ports : e.shown.ports = e.ports := by unfold Engine.shown; split <;> rfl
@[simp] theorem shown_draws : e.shown.draws = e.draws := by unfold Engine.shown; split <;> rfl

@[simp] theorem tick_ports (r : Word c.w) : (e.tick r).ports = e.ports.relax := rfl
@[simp] theorem tick_outs (r : Word c.w) : (e.tick r).outs = e.shown.outputs r (mux c e.shown.dl e.draws).1 := rfl
@[simp] theorem tick_draws (r : Word c.w) : (e.tick r).draws = (mux c e.shown.dl e.draws).2 := rfl

/-- A tick without reset: every group advances from the same snapshot. -/
theorem tick_of_run (r : Word c.w) (h : e.ports.rst = false) :
    e.tick r =
      { ctrl := e.ctrl.next e.ports
        run := e.run.next c.pulseLen e.ctrl.cmd
        synth := e.synth.next c.modeSwitchReset c.sampleCntEn e.ctrl e.run e.ports
        hop := e.hop.next e.ports
        dl := e.dl.next c e.ports (mux c e.dl e.draws).1
        ports := e.ports.relax
        outs := e.outputs r (mux c e.dl e.draws).1
        draws := (mux c e.dl e.draws).2 } := by
  simp [Engine.tick, Engine.shown, h, Engine.advance]

/-- A reset tick: every group goes to its reset value, and the outputs show those. -/
theorem tick_of_reset (r : Word c.w) (h : e.ports.rst = true) :
    e.tick r =
      { ctrl := .reset c.w
        run := .reset c.pulseCntW
        synth := .reset c.w
        hop := .reset c.w c.hopCntW
        dl := e.dl.reset c.nb
        ports := e.ports.relax
        outs := e.resetRegs.outputs r (mux c (e.dl.reset c.nb) e.draws).1
        draws := (mux c (e.dl.reset c.nb) e.draws).2 } := by
  simp [Engine.tick, Engine.shown, h, Engine.resetRegs]

@[simp] theorem withPorts_ctrl (p : Ports c.w c.hopCntW c.dataW) : (e.withPorts p).ctrl = e.ctrl := rfl
@[simp] theorem withPorts_run (p : Ports c.w c.hopCntW c.dataW) : (e.withPorts p).run = e.run := rfl
@[simp] theorem withPorts_synth (p : Ports c.w c.hopCntW c.dataW) : (e.withPorts p).synth = e.synth := rfl
@[simp] theorem withPorts_hop (p : Ports c.w c.hopCntW c.dataW) : (e.withPorts p).hop = e.hop := rfl
@[simp] theorem withPorts_dl (p : Ports c.w c.hopCntW c.dataW) : (e.withPorts p).dl = e.dl := rfl
@[simp] theorem withPorts_ports (p : Ports c.w c.hopCntW c.dataW) : (e.withPorts p).ports = p := rfl
@[simp] theorem withPorts_outs (p : Ports c.w c.hopCntW c.dataW) : (e.withPorts p).outs = e.outs := rfl
@[simp] theorem withPorts_draws (p : Ports c.w c.hopCntW c.dataW) : (e.withPorts p).draws = e.draws := rfl

variable (r : Word c.w) (m : Word c.dataW)

@[simp] theorem outputs_busRdata : (e.outputs r m).busRdata = r := rfl
@[simp] theorem outputs_isRunning : (e.outputs r m).isRunning = e.run.isRunning := rfl
@[simp] theorem outputs_validOut : (e.outputs r m).validOut = e.run.isRunning := rfl
@[simp] theorem outputs_outI : (e.outputs r m).outI = (selectSamples c e.ports.mode e.synth).1 := rfl
@[simp] theorem outputs_outQ : (e.outputs r m).outQ = (selectSamples c e.ports.mode e.synth).2 := rfl
@[simp] theorem outputs_hopI : (e.outputs r m).hopI = cosRd c e.hop.hopPhase := rfl
@[simp] theorem outputs_hopQ : (e.outputs r m).hopQ = sinRd c e.hop.hopPhase := rfl
@[simp] theorem outputs_dlDout : (e.outputs r m).dlDout = dlDout c e.dl m := rfl
@[simp] theorem outputs_sampleCount :
    (e.outputs r m).sampleCount = if c.sampleCntEn then some e.synth.sampleCnt else none := rfl

end engine

@[simp] theorem present_mk (i : Instr) (c : Cfg) (e : Engine c) (scr : List Line) :
    present i ⟨c, e, scr⟩ = ⟨c, e.withPorts (e.ports.drive i), scr⟩ := rfl
@[simp] theorem present_cfg (i : Instr) (s : State) : (present i s).cfg = s.cfg := rfl
@[simp] theorem present_script (i : Instr) (s : State) : (present i s).script = s.script := rfl

end Sys2Proof.Laws
end

