-- ==== Sys2Proof/Laws/Ops.lean ====
section
/-! SUPPORT. For each shared operation what it can do, said once. -/

namespace Sys2Proof.Laws

open Sys2Proof.Machine

/-! ## The bus -/

@[simp] theorem busRead_status {w pw : Nat} (k : CtrlRegs w) (r : RunState pw) :
    busRead k r 0x0 = some (statusWord w r.isRunning) := rfl
@[simp] theorem busRead_twMin {w pw : Nat} (k : CtrlRegs w) (r : RunState pw) : busRead k r 0x4 = some k.twMin := rfl
@[simp] theorem busRead_twMax {w pw : Nat} (k : CtrlRegs w) (r : RunState pw) : busRead k r 0x8 = some k.twMax := rfl
@[simp] theorem busRead_chirpStep {w pw : Nat} (k : CtrlRegs w) (r : RunState pw) :
    busRead k r 0xC = some k.chirpStep := rfl

/-- The word-aligned addresses are the four mapped ones (R62). -/
theorem wordAligned_iff (a : BitVec 4) :
    wordAligned a = true ↔ a = 0x0#4 ∨ a = 0x4#4 ∨ a = 0x8#4 ∨ a = 0xC#4 := by
  revert a; decide

/-- A read answers exactly at a word-aligned address (R260, R335). -/
theorem busRead_isSome {w pw : Nat} (k : CtrlRegs w) (r : RunState pw) (a : BitVec 4) :
    (busRead k r a).isSome = wordAligned a := by
  by_cases h : wordAligned a = true
  · rw [h]
    rcases (wordAligned_iff a).1 h with rfl | rfl | rfl | rfl <;> rfl
  · have h' : ¬ (a = 0x0#4 ∨ a = 0x4#4 ∨ a = 0x8#4 ∨ a = 0xC#4) := fun x => h ((wordAligned_iff a).2 x)
    simp only [not_or] at h'
    simp [busRead, h', Bool.eq_false_iff.2 h]

/-! ## The tick and an operation executed -/

/-- A tick at a word-aligned bus address gives the next state; the configuration and the script stand. -/
theorem tick_of_aligned (c : Cfg) (e : Engine c) (scr : List Line) (h : wordAligned e.ports.busAddr = true) :
    ∃ r, e.rdata = some r ∧ tick ⟨c, e, scr⟩ = .next ⟨c, e.tick r, scr⟩ := by
  have hs : e.rdata.isSome = true := by simpa [Engine.rdata, busRead_isSome] using h
  obtain ⟨r, hr⟩ := Option.isSome_iff_exists.1 hs
  exact ⟨r, hr, by simp [tick, hr]⟩

/-- A tick at any other bus address is refused (R335). -/
theorem tick_of_misaligned (c : Cfg) (e : Engine c) (scr : List Line) (h : wordAligned e.ports.busAddr = false) :
    tick ⟨c, e, scr⟩ = .refused (.misalignedBusAddress e.ports.busAddr) := by
  have hs : e.rdata.isSome = false := by simpa [Engine.rdata, busRead_isSome] using h
  have hn : e.rdata = none := by simpa using hs
  simp [tick, hn]

/-- Every arm of `exec` is `perform` of its own operation. -/
theorem exec_eq_perform (i : Instr) (s : State) : exec i s = perform i s := by cases i <;> rfl

/-- An operation whose operands fit, on ports whose bus address is then word-aligned, runs one tick. -/
theorem exec_of_fits (i : Instr) (c : Cfg) (e : Engine c) (scr : List Line) (hf : i.operandsFit c.raw = true)
    (ha : wordAligned (e.ports.drive i).busAddr = true) :
    ∃ r, (e.withPorts (e.ports.drive i)).rdata = some r ∧
      exec i ⟨c, e, scr⟩ = .next ⟨c, (e.withPorts (e.ports.drive i)).tick r, scr⟩ := by
  obtain ⟨r, h1, h2⟩ := tick_of_aligned c (e.withPorts (e.ports.drive i)) scr ha
  exact ⟨r, h1, by rw [exec_eq_perform]; simp [perform, hf, h2]⟩

/-- All that an operation executed can do: its operands fit, the bus address is word-aligned, and the next state is
the tick of the engine with the operation on its ports. -/
theorem exec_next_inv (i : Instr) (c : Cfg) (e : Engine c) (scr : List Line) (t : State)
    (h : exec i ⟨c, e, scr⟩ = .next t) :
    i.operandsFit c.raw = true ∧ wordAligned (e.ports.drive i).busAddr = true ∧
      ∃ r, (e.withPorts (e.ports.drive i)).rdata = some r ∧
        t = ⟨c, (e.withPorts (e.ports.drive i)).tick r, scr⟩ := by
  rw [exec_eq_perform] at h
  by_cases hf : i.operandsFit c.raw = true
  · simp only [perform, hf, if_true, present_mk] at h
    by_cases ha : wordAligned (e.ports.drive i).busAddr = true
    · obtain ⟨r, h1, h2⟩ := tick_of_aligned c (e.withPorts (e.ports.drive i)) scr ha
      rw [h2] at h
      exact ⟨hf, ha, r, h1, by simpa using h.symm⟩
    · rw [tick_of_misaligned c (e.withPorts (e.ports.drive i)) scr (by simpa using ha)] at h
      cases h
  · simp [perform, hf] at h

/-! ## The delay line -/

/-- What `find?` over the banks gives, when at most one bank answers. -/
theorem find_bank_eq {n : Nat} {f : Nat → Bool} {b : Nat} (hb : b < n) (hf : f b = true)
    (h1 : ∀ b', f b' = true → b' = b) : (List.range n).find? f = some b := by
  cases h : (List.range n).find? f with
  | none =>
    rw [List.find?_eq_none] at h
    exact absurd hf (h b (List.mem_range.2 hb))
  | some a => rw [h1 a (List.find?_some h)]

theorem find_bank_none {n : Nat} {f : Nat → Bool} (h1 : ∀ b, b < n → f b = false) :
    (List.range n).find? f = none := by
  rw [List.find?_eq_none]
  intro b hb
  simp [h1 b (List.mem_range.1 hb)]

/-- The read pointer is an entry of the delay memory. -/
theorem readPtr_lt (c : Cfg) (wptr : Nat) (ht : 0 < c.total) : readPtr c wptr < c.total := by
  have h0 : (0 : Int) < (c.total : Int) := by exact_mod_cast ht
  have h1 := Int.emod_nonneg ((wptr : Int) - (c.delay : Int)) (by omega : (c.total : Int) ≠ 0)
  have h2 := Int.emod_lt_of_pos ((wptr : Int) - (c.delay : Int)) h0
  unfold readPtr
  omega

/-- A constructed instance's parameters meet every constraint (R290 to R293). -/
theorem cfg_constraints (c : Cfg) :
    (0 < c.raw.delay ∧ c.raw.delay < (c.total : Int)) ∧ 2 ≤ c.lutAw ∧ c.lutAw ≤ c.w ∧ 3 ≤ c.w ∧ 2 ≤ c.sampleW ∧
      c.pulseLen < 2 ^ c.pulseCntW ∧ 0 ≤ c.raw.bankBits ∧ 1 ≤ c.bankDepth ∧ 1 ≤ c.dataW := by
  have h := c.noError
  simp only [Config.errors, List.append_eq_nil_iff] at h
  obtain ⟨⟨h1, h2⟩, h3⟩ := h
  split at h1
  · simp at h1
  split at h2
  · simp at h2
  split at h3
  · simp at h3
  rename_i a b d
  simp only [not_or, not_le, not_lt] at a b d
  exact ⟨a, b, d.1, d.2.1, d.2.2.1, d.2.2.2.1, d.2.2.2.2.1, d.2.2.2.2.2.1, d.2.2.2.2.2.2⟩

/-- `0 < DELAY < TOTAL` in natural numbers. -/
theorem delay_range (c : Cfg) : 0 < c.delay ∧ c.delay < c.total := by
  have h := (cfg_constraints c).1
  constructor
  · have := h.1; simp only [Cfg.delay]; omega
  · have := h.2; have := h.1; simp only [Cfg.delay]; omega

/-- A pointer's bank exists. -/
theorem bankOf_lt (c : Cfg) (p : Nat) (h : p < c.total) : bankOf c p < c.nb := by
  have hd : 0 < c.bankDepth := (cfg_constraints c).2.2.2.2.2.2.2.1
  unfold bankOf
  rw [Nat.div_lt_iff_lt_mul hd]
  exact h

/-- The translation's inverse gives the pointer back (R67). -/
theorem pointerOf_bankOf (c : Cfg) (p : Nat) : pointerOf c (bankOf c p) (rowOf c p) = p := by
  unfold pointerOf bankOf rowOf
  rw [Nat.mul_comm]
  exact Nat.div_add_mod p c.bankDepth

/-- The memory after a tick: with the write enable and a pointer in range the entry at the pointer is written, else
nothing is (R227, R228). -/
theorem bankWrite_spec (c : Cfg) (p : Ports c.w c.hopCntW c.dataW) (d : DelayLine c.dataW) (hw : d.wptr < c.total) :
    bankWrite c p d = if p.dlWrEn && !p.rst then d.bank.write d.wptr p.dlDin else d.bank := by
  unfold bankWrite
  by_cases h : (p.dlWrEn && !p.rst) = true
  · simp only [h, if_true]
    simp only [Bool.and_eq_true, Bool.not_eq_true'] at h
    have hf := find_bank_eq (f := writeEn c p d.wptr) (bankOf_lt c d.wptr hw)
      (by simp [writeEn, h.1, h.2]) (by intro b hb; simp [writeEn, h.1, h.2] at hb; exact hb.symm)
    rw [hf]
    simp only [pointerOf_bankOf]
  · have hf := find_bank_none (n := c.nb) (f := writeEn c p d.wptr) (by
      intro b _
      simp only [Bool.and_eq_true, Bool.not_eq_true', not_and, Bool.not_eq_false] at h
      unfold writeEn
      by_cases hw' : p.dlWrEn = true
      · simp [h hw']
      · simp [hw'])
    rw [hf]
    simp [h]

/-- The multiplexer when a read is pending in exactly one bank (R236). -/
theorem mux_pending (c : Cfg) (d : DelayLine c.dataW) (n b : Nat) (hb : b < c.nb) (h : d.reQ.getD b false = true)
    (h1 : ∀ b', d.reQ.getD b' false = true → b' = b) : mux c d n = (d.bankQ.getD b 0, n) := by
  unfold mux
  rw [find_bank_eq (f := fun b => d.reQ.getD b false) hb h h1]

/-- The multiplexer when no read is pending: the next free draw (R236). -/
theorem mux_idle (c : Cfg) (d : DelayLine c.dataW) (n : Nat) (h : ∀ b, b < c.nb → d.reQ.getD b false = false) :
    mux c d n = (Config.anyMux c.dataW n, n + 1) := by
  unfold mux
  rw [find_bank_none (f := fun b => d.reQ.getD b false) h]

end Sys2Proof.Laws
end

