-- ==== Sys2Proof/Laws/Exec.lean ====
section
/-! SUPPORT. What one operation executed does to the whole engine, and what the smaller operations under it do. -/

namespace Sys2Proof.Laws

open Sys2Proof.Machine

/-! ## A whole operation -/

/-- An operation in a tick without reset, whole: the bus read data, and every group advanced from the same snapshot
with the operation on the ports. -/
theorem exec_of_runs {c : Cfg} {e : Engine c} {i : Instr} (scr : List Line) (h : e.Runs i) :
    ∃ r, busRead e.ctrl e.run (e.ports.drive i).busAddr = some r ∧
      exec i ⟨c, e, scr⟩ = .next ⟨c,
        { ctrl := e.ctrl.next (e.ports.drive i)
          run := e.run.next c.pulseLen e.ctrl.cmd
          synth := e.synth.next c.modeSwitchReset c.sampleCntEn e.ctrl e.run (e.ports.drive i)
          hop := e.hop.next (e.ports.drive i)
          dl := e.dl.next c (e.ports.drive i) (mux c e.dl e.draws).1
          ports := (e.ports.drive i).relax
          outs := (e.withPorts (e.ports.drive i)).outputs r (mux c e.dl e.draws).1
          draws := (mux c e.dl e.draws).2 }, scr⟩ := by
  obtain ⟨r, h1, h2⟩ := exec_of_fits i c e scr h.1 h.2.2
  refine ⟨r, ?_, ?_⟩
  · rw [Engine.rdata, shown_of_run _ (by exact h.2.1)] at h1
    exact h1
  · rw [h2, tick_of_run _ _ (by exact h.2.1)]
    rfl

/-- The same, group by group, for chains of operations. -/
theorem exec_groups {c : Cfg} {e : Engine c} {i : Instr} (scr : List Line) (h : e.Runs i) :
    ∃ e' : Engine c, exec i ⟨c, e, scr⟩ = .next ⟨c, e', scr⟩ ∧
      e'.ctrl = e.ctrl.next (e.ports.drive i) ∧
      e'.run = e.run.next c.pulseLen e.ctrl.cmd ∧
      e'.synth = e.synth.next c.modeSwitchReset c.sampleCntEn e.ctrl e.run (e.ports.drive i) ∧
      e'.hop = e.hop.next (e.ports.drive i) ∧
      e'.dl = e.dl.next c (e.ports.drive i) (mux c e.dl e.draws).1 ∧
      e'.ports = (e.ports.drive i).relax ∧
      e'.draws = (mux c e.dl e.draws).2 ∧
      ∃ r, busRead e.ctrl e.run (e.ports.drive i).busAddr = some r ∧
        e'.outs = (e.withPorts (e.ports.drive i)).outputs r (mux c e.dl e.draws).1 := by
  obtain ⟨r, h1, h2⟩ := exec_of_runs scr h
  exact ⟨_, h2, rfl, rfl, rfl, rfl, rfl, rfl, rfl, r, h1, rfl⟩

/-- Every aligned address reads 0 from the reset registers (R322, R325). -/
theorem busRead_of_reset (w pw : Nat) (a : BitVec 4) (ha : wordAligned a = true) :
    busRead (CtrlRegs.reset w) (RunState.reset pw) a = some 0 := by
  rcases (wordAligned_iff _).1 ha with rfl | rfl | rfl | rfl <;> rfl

/-- An operation in a reset tick, whole: the registers at their reset values, which the outputs show. -/
theorem exec_of_resets {c : Cfg} {e : Engine c} {i : Instr} (scr : List Line) (hf : i.operandsFit c.raw = true)
    (hr : (e.ports.drive i).rst = true) (ha : wordAligned (e.ports.drive i).busAddr = true) :
    exec i ⟨c, e, scr⟩ = .next ⟨c,
      { ctrl := .reset c.w
        run := .reset c.pulseCntW
        synth := .reset c.w
        hop := .reset c.w c.hopCntW
        dl := e.dl.reset c.nb
        ports := (e.ports.drive i).relax
        outs := ((e.withPorts (e.ports.drive i)).resetRegs).outputs 0 (mux c (e.dl.reset c.nb) e.draws).1
        draws := (mux c (e.dl.reset c.nb) e.draws).2 }, scr⟩ := by
  obtain ⟨r, h1, h2⟩ := exec_of_fits i c e scr hf ha
  have h0 : r = 0 := by
    rw [Engine.rdata, shown_of_reset _ (by exact hr)] at h1
    exact Option.some.inj (h1.symm.trans (busRead_of_reset _ _ _ ha))
  rw [h2, tick_of_reset _ _ (by exact hr), h0]
  rfl

/-! ## Tick after tick -/

/-- One more tick of a sequence of operations. -/
theorem execSeq_succ {f : Nat → Instr} {n : Nat} {s t : State} (h : execSeq f n s = .next t) :
    execSeq f (n + 1) s = exec (f n) t := by
  simp only [execSeq, h]

/-- One more tick of the same operation. -/
theorem execTimes_succ {i : Instr} {n : Nat} {s t : State} (h : execTimes i n s = .next t) :
    execTimes i (n + 1) s = exec i t := execSeq_succ h

/-- After a tick every operation that fits runs, but for `RESET` and the two refused bus patterns (R104). -/
theorem runs_of_atRest {c : Cfg} {e : Engine c} {i : Instr} (hf : i.operandsFit c.raw = true)
    (hr : e.ports.rst = false) (ha : e.ports.busAddr = 0) (h1 : i ≠ .reset) (h2 : misaligned i = false) :
    e.Runs i := by
  refine ⟨hf, ?_, ?_⟩
  · cases i <;> first | exact hr | rfl | exact absurd rfl h1
  · cases i <;> simp [misaligned] at h2 <;> simp [Ports.drive, ha] <;> decide

/-! ## Registers and flags -/

/-- Saturation is the clamp to the sample range (R187). -/
theorem sat_eq_clamp (n : Nat) (v : Int) : sat n v = max (-(2 ^ (n - 1))) (min (2 ^ (n - 1) - 1) v) := by
  have h : (0 : Int) < 2 ^ (n - 1) := by positivity
  unfold sat
  generalize (2 : Int) ^ (n - 1) = b at *
  rw [max_def, min_def]
  split_ifs <;> first | rfl | (exfalso; omega) | (show (_ : Int) = _; omega)

/-- The status word as a number (R25). -/
theorem statusWord_toNat {w : Nat} (hw : 0 < w) (b : Bool) : (statusWord w b).toNat = if b then 1 else 0 := by
  cases b
  · rfl
  · simp [statusWord, Nat.mod_eq_of_lt (Nat.one_lt_two_pow (by omega : w ≠ 0))]

/-- The timer's comparison is one of numbers, since `PULSE_LEN` fits the counter (R157, R293). -/
theorem pulseCnt_eq_iff (c : Cfg) (x : Word c.pulseCntW) :
    x = BitVec.ofNat c.pulseCntW c.pulseLen ↔ x.toNat = c.pulseLen := by
  have hk := (cfg_constraints c).2.2.2.2.2.1
  rw [← BitVec.toNat_inj, BitVec.toNat_ofNat, Nat.mod_eq_of_lt hk]

/-! ## The delay line -/

theorem getD_map_range {α : Type} (n b : Nat) (f : Nat → α) (d : α) :
    ((List.range n).map f).getD b d = if b < n then f b else d := by
  simp only [List.getD_eq_getElem?_getD, List.getElem?_map]
  split
  · rename_i h; simp [List.getElem?_range h]
  · rename_i h; rw [List.getElem?_eq_none (by simpa using h)]; rfl

/-- The registered read enables after a tick (R231): the addressed bank's when there is a read. -/
theorem next_reQ (c : Cfg) (d : DelayLine c.dataW) (p : Ports c.w c.hopCntW c.dataW) (m : Word c.dataW) (b : Nat)
    (hb : b < c.nb) : (d.next c p m).reQ.getD b false = readEn c p d.wptr b := by
  simp only [DelayLine.next, getD_map_range, hb, if_true]

/-- A bank's output register after a tick (R230). -/
theorem next_bankQ (c : Cfg) (d : DelayLine c.dataW) (p : Ports c.w c.hopCntW c.dataW) (m : Word c.dataW) (b : Nat)
    (hb : b < c.nb) :
    (d.next c p m).bankQ.getD b 0 =
      if readEn c p d.wptr b then d.bank.read (readPtr c d.wptr) else d.bankQ.getD b 0 := by
  simp only [DelayLine.next, getD_map_range, hb, if_true]
  by_cases h : readEn c p d.wptr b = true
  · have hb' : bankOf c (readPtr c d.wptr) = b := by
      simp only [readEn, Bool.and_eq_true, beq_iff_eq] at h; exact h.1.2
    rw [if_pos h, if_pos h, ← hb', bankEntry, pointerOf_bankOf]
  · rw [if_neg h, if_neg h]

/-- The memory after a tick without reset (R228). -/
theorem next_bank (c : Cfg) (d : DelayLine c.dataW) (p : Ports c.w c.hopCntW c.dataW) (m : Word c.dataW)
    (hw : d.wptr < c.total) (hr : p.rst = false) :
    (d.next c p m).bank = if p.dlWrEn then d.bank.write d.wptr p.dlDin else d.bank := by
  simp only [DelayLine.next, bankWrite_spec c p d hw, hr, Bool.not_false, Bool.and_true]

/-- The read pointer in natural numbers (R226). -/
theorem readPtr_eq (c : Cfg) (wptr : Nat) : readPtr c wptr = (wptr + (c.total - c.delay)) % c.total := by
  have hd := delay_range c
  unfold readPtr
  have h : ((wptr : Int) - (c.delay : Int)) % (c.total : Int) =
      (((wptr + (c.total - c.delay)) % c.total : Nat) : Int) := by
    push_cast [Nat.cast_sub hd.2.le]
    rw [← Int.add_emod_right]
    congr 1
    ring
  rw [h]
  exact Int.toNat_natCast _

end Sys2Proof.Laws
end

