-- ==== Sys2Proof/Tests/Slice0.lean ====
section
/-! SUPPORT. Tests: each expected value is one of spec/95_test_vectors.md (its section is named) or follows by hand
from the rule named. Then, for every statement with hypotheses, a witness that meets them. -/

namespace Sys2Proof.Tests

open Sys2Proof.Machine

/-! ## Well-formedness: an ill-formed term for each check, and the largest operand each port carries -/

theorem test_wf_refuses_wide_write :
    (Instr.wrTwmin (2 ^ 32)).wellFormed .paramsT = false ∧ (Instr.wrTwmax (2 ^ 32)).wellFormed .paramsT = false ∧
    (Instr.wrStep (2 ^ 32)).wellFormed .paramsT = false ∧ (Instr.wrCtrl (2 ^ 32 + 7)).wellFormed .paramsT = false := by
  decide

theorem test_wf_refuses_wide_read :
    (Instr.rdStatus (2 ^ 32)).wellFormed .paramsT = false ∧ (Instr.rdTwmin (2 ^ 32)).wellFormed .paramsT = false ∧
    (Instr.rdTwmax (2 ^ 32)).wellFormed .paramsT = false ∧ (Instr.rdStep (2 ^ 32)).wellFormed .paramsT = false ∧
    (Instr.busMisalignedA true 0 (2 ^ 32)).wellFormed .paramsT = false ∧
    (Instr.busMisalignedB true 0 (2 ^ 32)).wellFormed .paramsT = false := by decide

theorem test_wf_refuses_wide_alias :
    (Instr.startCont (2 ^ 29)).wellFormed .paramsT = false ∧ (Instr.stopCont (2 ^ 29)).wellFormed .paramsT = false ∧
    (Instr.startPulse (2 ^ 29)).wellFormed .paramsT = false ∧
    (Instr.ctrlNop (2 ^ 29)).wellFormed .paramsT = false := by decide

theorem test_wf_refuses_alias_word_under_general_name :
    (Instr.wrCtrl 0).wellFormed .paramsT = false ∧ (Instr.wrCtrl 9).wellFormed .paramsT = false ∧
    (Instr.wrCtrl 2).wellFormed .paramsT = false ∧ (Instr.wrCtrl 4).wellFormed .paramsT = false := by decide

theorem test_wf_refuses_wide_hop_operand :
    (Instr.hopRun (2 ^ 32) 0 0 0).wellFormed .paramsT = false ∧
    (Instr.hopRun 0 (2 ^ 32) 0 0).wellFormed .paramsT = false ∧
    (Instr.hopRun 0 0 (2 ^ 32) 0).wellFormed .paramsT = false ∧
    (Instr.hopRun 0 0 0 (2 ^ 32)).wellFormed .paramsT = false := by decide

theorem test_wf_refuses_wide_delay_operand :
    (Instr.dlWr (2 ^ 36)).wellFormed .paramsT = false ∧ (Instr.dlWrrd (2 ^ 36)).wellFormed .paramsT = false := by
  decide

/-! ## Decode: a word of every operation, written from the encodings of R91 to R100 (`W = 32`) -/

theorem test_decode_writes :
    decodeTableWord 40 0x1000000003 = some (.wrCtrl 3) ∧ decodeTableWord 40 0x1412345678 = some (.wrTwmin 0x12345678) ∧
    decodeTableWord 40 0x1880000001 = some (.wrTwmax 0x80000001) ∧
    decodeTableWord 40 0x1C0000FFFF = some (.wrStep 0xFFFF) := by decide

theorem test_decode_reads :
    decodeTableWord 40 0x0000000000 = some (.rdStatus 0) ∧ decodeTableWord 40 0x0412345678 = some (.rdTwmin 0x12345678) ∧
    decodeTableWord 40 0x0800000000 = some (.rdTwmax 0) ∧ decodeTableWord 40 0x0C00000000 = some (.rdStep 0) := by
  decide

/-- `addr = 0001` and `1011` with `we`, `addr = 0110` and `1110` (section 2.10). -/
theorem test_decode_misaligned :
    decodeTableWord 40 0x1100000005 = some (.busMisalignedA true 0 5) ∧
    decodeTableWord 40 0x1B00000000 = some (.busMisalignedA true 5 0) ∧
    decodeTableWord 40 0x0600000000 = some (.busMisalignedB false 1 0) ∧
    decodeTableWord 40 0x0E00000000 = some (.busMisalignedB false 3 0) := by decide

theorem test_decode_aliases :
    decodeTableWord 40 0x1000000009 = some (.startCont 1) ∧ decodeTableWord 40 0x1000000002 = some (.stopCont 0) ∧
    decodeTableWord 40 0x1000000004 = some (.startPulse 0) ∧
    decodeTableWord 40 0x10FFFFFFF8 = some (.ctrlNop 0x1FFFFFFF) := by decide

theorem test_decode_codes :
    decode .paramsT (.mode 0b00) = .ok .modeIdle ∧ decode .paramsT (.mode 0b01) = .ok .modeChirp ∧
    decode .paramsT (.mode 0b10) = .ok .modeDual ∧ decode .paramsT (.mode 0b11) = .ok .modeRsvd3 ∧
    decode .paramsT (.rdy 0) = .ok .stall ∧ decode .paramsT (.rdy 1) = .ok .accept ∧
    decode .paramsT (.rst 0) = .ok .run ∧ decode .paramsT (.rst 1) = .ok .reset := ⟨rfl, rfl, rfl, rfl, rfl, rfl, rfl, rfl⟩

theorem test_decode_operand_ports :
    decode .paramsT (.hop 0 1 2 3 4) = .ok .hopHold ∧ decode .paramsT (.hop 1 1 2 3 4) = .ok (.hopRun 1 2 3 4) ∧
    decode .paramsT (.dl 0b00 7) = .ok .dlIdle ∧ decode .paramsT (.dl 0b01 7) = .ok .dlRd ∧
    decode .paramsT (.dl 0b10 7) = .ok (.dlWr 7) ∧ decode .paramsT (.dl 0b11 7) = .ok (.dlWrrd 7) :=
  ⟨rfl, rfl, rfl, rfl, rfl, rfl⟩

/-- A number that does not fit its port is rejected by name (R338). -/
theorem test_decode_rejects_by_name :
    decode .paramsT (.bus (2 ^ 37)) = .error .busWordTooWide ∧ decode .paramsT (.mode 4) = .error .modeCodeTooWide ∧
    decode .paramsT (.rdy 2) = .error .readyCodeTooWide ∧ decode .paramsT (.hop 2 0 0 0 0) = .error .hopFieldTooWide ∧
    decode .paramsT (.hop 1 0 0 0 (2 ^ 32)) = .error .hopFieldTooWide ∧
    decode .paramsT (.dl 4 0) = .error .delayFieldTooWide ∧
    decode .paramsT (.dl 2 (2 ^ 36)) = .error .delayFieldTooWide ∧
    decode .paramsT (.rst 2) = .error .resetCodeTooWide := ⟨rfl, rfl, rfl, rfl, rfl, rfl, rfl, rfl⟩

/-! ## Configurations -/

/-- The source's delay scenario (section 1.5): `TOTAL = 2048`. -/
def scenario (delay : Int) : Config := { Config.paramsT with bankBits := 2, bankDepth := 512, delay := delay }

/-- The construction row of section 2.9. -/
theorem test_config_delay :
    (scenario (-1)).errors = [.ce1] ∧ (scenario 0).errors = [.ce1] ∧ (scenario 1).errors = [] ∧
    (scenario 10).errors = [] ∧ (scenario 2047).errors = [] ∧ (scenario 2048).errors = [.ce1] ∧
    (scenario 2049).errors = [.ce1] := by decide

/-- The other construction vectors of section 2.9, and a `PULSE_LEN` that does not fit (R293). -/
theorem test_config_other :
    ({ Config.paramsT with lutAw := 1 } : Config).errors = [.ce2] ∧
    ({ Config.paramsT with lutAw := 2 } : Config).errors = [] ∧
    ({ Config.paramsT with w := 2, lutAw := 2 } : Config).errors = [.ce3] ∧
    ({ Config.paramsT with sampleW := 1 } : Config).errors = [.ce3] ∧
    ({ Config.paramsT with bankDepth := 0, delay := 1 } : Config).errors = [.ce1, .ce3] ∧
    ({ Config.paramsT with lutAw := 33 } : Config).errors = [.ce3] ∧
    ({ Config.paramsT with bankBits := 0 } : Config).errors = [] ∧
    ({ Config.paramsT with pulseCntW := 2, pulseLen := 4 } : Config).errors = [.ce3] := by decide

/-- Configuration T with the output register. -/
def cfgOut : Cfg := ⟨{ Config.paramsT with outReg := true }, by decide, Config.tableOk_of_eighths _ rfl rfl rfl⟩

/-- Configuration T with the retention policy on. -/
def cfgPolicy : Cfg :=
  ⟨{ Config.paramsT with modeSwitchReset := true }, by decide, Config.tableOk_of_eighths _ rfl rfl rfl⟩

/-- Configuration T without the sample counter. -/
def cfgBare : Cfg := ⟨{ Config.paramsT with sampleCntEn := false }, by decide, Config.tableOk_of_eighths _ rfl rfl rfl⟩

/-! ## Small states -/

/-- The state of the priority-chain table of section 2.6, running, ready low, mode chirp, with a hop NCO of section
2.4 and a delay line whose pointer is 7 and whose entry 4 holds 44. -/
def base (c : Cfg) : Engine c :=
  { ctrl := ⟨0, BitVec.ofNat _ 0x10000000, BitVec.ofNat _ 0x30000000, BitVec.ofNat _ 0x10000000⟩
    run := ⟨true, false, 0⟩
    synth := ⟨BitVec.ofNat _ 0x20000000, BitVec.ofNat _ 0x50000000, BitVec.ofNat _ 0x11000000,
      BitVec.ofNat _ 0x22000000, 0⟩
    hop := ⟨2, 7, BitVec.ofNat _ 0x12345678⟩
    dl := { wptr := 7, bank := [(4, BitVec.ofNat _ 44)], reQ := List.replicate c.nb false,
            bankQ := List.replicate c.nb (BitVec.ofNat _ 9), doutReg := 0 }
    ports := { Ports.quiet _ _ _ with mode := 1 }
    outs := .afterReset c
    draws := 5 }

/-- The same with `ready_in = 1`. -/
def ready (c : Cfg) : Engine c := { base c with ports := (base c).ports.driveReady true }

/-- The same with the command latch at `cmd` and the run state at `run`. -/
def inRun (c : Cfg) (cmd : BitVec 3) (run : RunState c.pulseCntW) : Engine c :=
  { base c with ctrl := { (base c).ctrl with cmd := cmd }, run := run }

/-- The same with another hop NCO. -/
def inHop (c : Cfg) (state : BitVec 2) (dwell phase : Nat) : Engine c :=
  { base c with hop := ⟨state, BitVec.ofNat _ dwell, BitVec.ofNat _ phase⟩ }

/-- A state of an instance, no line to come. -/
def st {c : Cfg} (e : Engine c) : State := ⟨c, e, []⟩

/-- What `f` reads from the next state, if there is one. -/
def after {α : Type} (r : Host.Outcome State Fault Refusal) (f : State → α) : Option α :=
  match r with
  | .next t => some (f t)
  | .fault _ => none
  | .refused _ => none

/-! ## One step of every operation -/

/-- Section 2.10. -/
theorem test_wrCtrl : after (exec (.wrCtrl 7) (st (base .t))) (fun t => t.engine.ctrl.cmd) = some 0b111 := by decide

theorem test_wrTwmin :
    after (exec (.wrTwmin 0xFFFFFFFF) (st (base .t)))
      (fun t => (t.engine.ctrl.twMin.toNat, t.engine.outs.busRdata.toNat)) = some (0xFFFFFFFF, 0x10000000) := by decide

theorem test_wrTwmax :
    after (exec (.wrTwmax 0xFFFFFFFF) (st (base .t)))
      (fun t => (t.engine.ctrl.twMax.toNat, t.engine.outs.busRdata.toNat)) = some (0xFFFFFFFF, 0x30000000) := by decide

theorem test_wrStep :
    after (exec (.wrStep 0x00010000) (st (base .t)))
      (fun t => (t.engine.ctrl.chirpStep.toNat, t.engine.outs.busRdata.toNat)) = some (0x10000, 0x10000000) := by decide

theorem test_rdStatus :
    after (exec (.rdStatus 0) (st (base .t))) (fun t => t.engine.outs.busRdata.toNat) = some 1 := by decide

theorem test_rdTwmin :
    after (exec (.rdTwmin 0) (st (base .t))) (fun t => t.engine.outs.busRdata.toNat) = some 0x10000000 := by decide

theorem test_rdTwmax :
    after (exec (.rdTwmax 0) (st (base .t))) (fun t => t.engine.outs.busRdata.toNat) = some 0x30000000 := by decide

theorem test_rdStep :
    after (exec (.rdStep 0) (st (base .t)))
      (fun t => (t.engine.outs.busRdata.toNat, t.engine.ctrl.cmd)) = some (0x10000000, 0) := by decide

theorem test_misaligned_read_refused :
    exec (.busMisalignedB false 1 0) (st (base .t)) = .refused (.misalignedBusAddress 6) := rfl

theorem test_misaligned_write_refused :
    exec (.busMisalignedA true 0 1) (st (base .t)) = .refused (.misalignedBusAddress 1) := rfl

theorem test_startCont :
    after (exec (.startCont 0x1FFFFFFF) (st (base .t))) (fun t => t.engine.ctrl.cmd) = some 0b001 := by decide

theorem test_stopCont :
    after (exec (.stopCont 0) (st (base .t))) (fun t => t.engine.ctrl.cmd) = some 0b010 := by decide

theorem test_startPulse :
    after (exec (.startPulse 0) (st (base .t))) (fun t => t.engine.ctrl.cmd) = some 0b100 := by decide

/-- `WR 0x0,0xFFFFFFF8` of section 2.10. -/
theorem test_ctrlNop :
    after (exec (.ctrlNop 0x1FFFFFFF) (st (inRun .t 1 ⟨false, false, 0⟩))) (fun t => t.engine.ctrl.cmd) = some 0 := by
  decide

/-- What the priority-chain table lists: the five registers and the two samples. -/
def chain (t : State) : (Nat × Nat × Nat × Nat × Nat) × Int × Int :=
  ((t.engine.synth.freqAcc.toNat, t.engine.synth.phaseC.toNat, t.engine.synth.phase1.toNat, t.engine.synth.phase2.toNat,
    t.engine.synth.sampleCnt.toNat), t.engine.outs.outI, t.engine.outs.outQ)

/-- Section 2.6, `cont=1`, IDLE, `rdy=1`. -/
theorem test_modeIdle :
    after (exec .modeIdle (st (ready .t))) chain =
      some ((0x20000000, 0x50000000, 0x11000000, 0x22000000, 1), 0, 0) := by decide

/-- The same with the policy. -/
theorem test_modeIdle_policy :
    after (exec .modeIdle (st (ready cfgPolicy))) chain = some ((0x10000000, 0, 0, 0, 1), 0, 0) := by decide

/-- Section 2.6, `cont=1`, CHIRP, `rdy=1`. -/
theorem test_modeChirp :
    after (exec .modeChirp (st (ready .t))) chain =
      some ((0x30000000, 0x70000000, 0x11000000, 0x22000000, 1), 0, 127) := by decide

/-- The same with the policy. -/
theorem test_modeChirp_policy :
    after (exec .modeChirp (st (ready cfgPolicy))) chain = some ((0x30000000, 0x70000000, 0, 0, 1), 0, 127) := by decide

/-- Section 2.6, `cont=1`, DUAL, `rdy=1`. -/
theorem test_modeDual :
    after (exec .modeDual (st (ready .t))) chain =
      some ((0x20000000, 0x50000000, 0x21000000, 0x52000000, 1), 127, 90) := by decide

/-- The same with the policy. -/
theorem test_modeDual_policy :
    after (exec .modeDual (st (ready cfgPolicy))) chain =
      some ((0x10000000, 0, 0x21000000, 0x52000000, 1), 127, 90) := by decide

/-- Section 2.6, RSVD3, `rdy=1`. -/
theorem test_modeRsvd3 :
    after (exec .modeRsvd3 (st (ready .t))) chain =
      some ((0x20000000, 0x50000000, 0x11000000, 0x22000000, 1), 0, 0) := by decide

/-- Section 2.6, CHIRP, `rdy=0`. -/
theorem test_stall :
    after (exec .stall (st (ready .t))) chain =
      some ((0x20000000, 0x50000000, 0x11000000, 0x22000000, 0), 0, 127) := by decide

/-- Section 2.6, CHIRP, `rdy=1` while idle: the chirp registers are forced, nothing is transferred. -/
theorem test_accept_idle :
    after (exec .accept (st (inRun .t 0 ⟨false, false, 0⟩))) chain =
      some ((0x10000000, 0, 0x11000000, 0x22000000, 0), 0, 127) := by decide

/-- The signed comparison: `tw_max = -2^31` (section 2.6), a step of `10000000` from `10000000`. -/
theorem test_accept_signed :
    after (exec .accept (st ({ base .t with
        ctrl := ⟨0, BitVec.ofNat _ 0x10000000, BitVec.ofNat _ 0x80000000, BitVec.ofNat _ 0x10000000⟩
        synth := ⟨BitVec.ofNat _ 0x10000000, 0, 0, 0, 0⟩ } : Engine .t)))
      (fun t => (t.engine.synth.freqAcc.toNat, t.engine.synth.phaseC.toNat)) = some (0x10000000, 0x10000000) := by decide

/-- Section 2.4, the row of `HOP_HOLD`. -/
theorem test_hopHold :
    after (exec .hopHold (st (base .t)))
      (fun t => (t.engine.hop.hopState.toNat, t.engine.hop.dwellCnt.toNat, t.engine.hop.hopPhase.toNat)) =
      some (2, 7, 0x12345678) := by decide

/-- Section 2.4: state 3 uses word 0 and wraps while hopping. -/
theorem test_hopRun_hops :
    after (exec (.hopRun 0x11111111 0x22222222 0x33333333 5) (st (inHop .t 3 5 0xEEEEEEEF)))
      (fun t => (t.engine.hop.hopState.toNat, t.engine.hop.dwellCnt.toNat, t.engine.hop.hopPhase.toNat)) =
      some (0, 0, 0) := by decide

/-- Section 2.4: the largest bound, one below it. -/
theorem test_hopRun_counts :
    after (exec (.hopRun 0x11111111 0x22222222 0x33333333 4294967295) (st (inHop .t 1 4294967294 0)))
      (fun t => (t.engine.hop.hopState.toNat, t.engine.hop.dwellCnt.toNat, t.engine.hop.hopPhase.toNat)) =
      some (1, 4294967295, 0x22222222) := by decide

/-- What a delay-line test looks at. -/
def line (t : State) : Nat × List (Nat × Nat) × List Bool × List Nat :=
  (t.engine.dl.wptr, t.engine.dl.bank.map (fun x => (x.1, x.2.toNat)), t.engine.dl.reQ,
    t.engine.dl.bankQ.map (·.toNat))

theorem test_dlIdle :
    after (exec .dlIdle (st (base .t))) line = some (7, [(4, 44)], [false, false], [9, 9]) := by decide

/-- Section 2.9: at `wptr = 7` the read is from bank 1, row 0, pointer 4. -/
theorem test_dlRd : after (exec .dlRd (st (base .t))) line = some (7, [(4, 44)], [false, true], [9, 44]) := by decide

theorem test_dlWr :
    after (exec (.dlWr 115) (st (base .t))) line = some (0, [(4, 44), (7, 115)], [false, false], [9, 9]) := by decide

/-- P4, tick 18 from `wptr = 7`. -/
theorem test_dlWrrd :
    after (exec (.dlWrrd 115) (st (base .t))) line = some (0, [(4, 44), (7, 115)], [false, true], [9, 44]) := by decide

/-- What a run-state test looks at. -/
def runs (t : State) : Bool × Bool × Nat := (t.engine.run.cont, t.engine.run.pulse, t.engine.run.pulseCnt.toNat)

/-- Section 2.5: retrigger in the expiry tick, and all three bits while both are set. -/
theorem test_run_retrigger :
    after (exec .run (st (inRun .t 0b100 ⟨false, true, 3⟩))) runs = some (false, true, 0) ∧
    after (exec .run (st (inRun .t 0b111 ⟨true, true, 1⟩))) runs = some (false, true, 0) := by decide

/-- Section 2.5: expiry holds the count, and stop does not touch the pulse. -/
theorem test_run_expiry :
    after (exec .run (st (inRun .t 0 ⟨false, true, 3⟩))) runs = some (false, false, 3) ∧
    after (exec .run (st (inRun .t 0b010 ⟨false, true, 0⟩))) runs = some (false, true, 1) := by decide

/-- Section 2.11: the registers go to 0, the memory and the bank outputs stay. -/
theorem test_reset_registers :
    after (exec .reset (st (base .t))) line = some (0, [(4, 44)], [false, false], [9, 9]) ∧
    after (exec .reset (st (base .t))) runs = some (false, false, 0) := by decide

theorem test_reset_outputs :
    after (exec .reset (st (base cfgOut)))
      (fun t => (t.engine.outs.validOut, t.engine.outs.busRdata.toNat, t.engine.outs.hopI, t.engine.outs.hopQ,
        t.engine.outs.dlDout.toNat)) = some (false, 0, 127, 0, 0) := by decide

/-- An operand that does not fit its port is refused (R338). -/
theorem test_wide_operand_refused : exec (.wrTwmin (2 ^ 32)) (st (base .t)) = .refused .operandDoesNotFit := rfl

/-! ## Steps -/

/-- Two fields in one line take effect in one tick (R90): P6, tick 4's write with the mode of tick 0. -/
theorem test_step_line :
    after (step { st (base .t) with script := [{ bus := some 0x1000000001, mode := some 2, rst := some 0 }] })
      (fun t => (t.engine.ctrl.cmd, t.engine.ports.mode, t.script.length)) = some (1, 2, 0) := by decide

theorem test_step_reject :
    step { st (base .t) with script := [{ mode := some 4 }] } = .refused (.rejectedWord .modeCodeTooWide) := rfl

/-- A table word is run by the very next step. -/
theorem test_step_table_word :
    after (step (State.reset.withFetchWord 40 0x1410000000)) (fun t => t.engine.ctrl.twMin.toNat) = some 0x10000000 := by
  decide

/-! ## The table and the pointers -/

/-- Section 2.2: address, quadrature and in-phase reads. -/
theorem test_table_reads :
    (tableAddr .t (BitVec.ofNat 32 0x7FFFFFFF), sinRd .t (BitVec.ofNat 32 0x7FFFFFFF), cosRd .t (BitVec.ofNat 32 0x7FFFFFFF)) =
      (3, 90, -90) ∧
    (tableAddr .t (BitVec.ofNat 32 0xE0000000), sinRd .t (BitVec.ofNat 32 0xE0000000), cosRd .t (BitVec.ofNat 32 0xE0000000)) =
      (7, -90, 90) := by decide

/-- Section 2.7. -/
theorem test_sat :
    [254, 217, 180, 128, 127, 126, 0, -127, -128, -129, -180, -217, -254].map (sat 8) =
      [127, 127, 127, 127, 127, 126, 0, -127, -128, -128, -128, -128, -128] ∧
    [4094, 2048, 2047, -2047, -2048, -2049, -4094].map (sat 12) =
      [2047, 2047, 2047, -2047, -2048, -2048, -2048] := by decide

/-- Section 2.9, configuration T. -/
theorem test_pointers :
    [0, 2, 3, 4, 7].map (fun w => (bankOf .t w, rowOf .t w, readPtr .t w)) =
      [(0, 0, 5), (0, 2, 7), (0, 3, 0), (1, 0, 1), (1, 3, 4)] := by decide

/-! ## Witnesses: for every statement with hypotheses, states and operands that meet all of them, with the boundary
values of its clauses -/

theorem witness_DecodeOfEncodeIsTheOperation :
    3 ≤ Config.paramsT.w ∧ (Instr.wrCtrl (2 ^ 32 - 1)).wellFormed .paramsT = true ∧
    (Instr.wrTwmin (2 ^ 32 - 1)).wellFormed .paramsT = true ∧
    (Instr.startCont (2 ^ 29 - 1)).wellFormed .paramsT = true ∧
    (Instr.busMisalignedA true 7 (2 ^ 32 - 1)).wellFormed .paramsT = true ∧
    (Instr.hopRun (2 ^ 32 - 1) (2 ^ 32 - 1) (2 ^ 32 - 1) (2 ^ 32 - 1)).wellFormed .paramsT = true ∧
    (Instr.dlWrrd (2 ^ 36 - 1)).wellFormed .paramsT = true := by decide

theorem witness_EveryBusWordIsOneOperation : 3 ≤ Config.paramsT.w ∧ 2 ^ 37 - 1 < 2 ^ (Config.paramsT.w + 5) := by decide

/-- One word for each row, with the largest data. -/
theorem witness_BusWordsReadAsTheirTableRows :
    0x14FFFFFFFF &&& 0x1F00000000 = 0x1400000000 ∧ 0x18FFFFFFFF &&& 0x1F00000000 = 0x1800000000 ∧
    0x1CFFFFFFFF &&& 0x1F00000000 = 0x1C00000000 ∧ 0x00FFFFFFFF &&& 0x1F00000000 = 0x0000000000 ∧
    0x04FFFFFFFF &&& 0x1F00000000 = 0x0400000000 ∧ 0x08FFFFFFFF &&& 0x1F00000000 = 0x0800000000 ∧
    0x0CFFFFFFFF &&& 0x1F00000000 = 0x0C00000000 ∧ 0x1FFFFFFFFF &&& 0x0100000000 = 0x0100000000 ∧
    0x1EFFFFFFFF &&& 0x0300000000 = 0x0200000000 ∧ 0x10FFFFFFF9 &&& 0x1F00000007 = 0x1000000001 ∧
    0x10FFFFFFFA &&& 0x1F00000007 = 0x1000000002 ∧ 0x10FFFFFFFC &&& 0x1F00000007 = 0x1000000004 ∧
    0x10FFFFFFF8 &&& 0x1F00000007 = 0x1000000000 ∧
    (0x10FFFFFFFF &&& 0x1F00000000 = 0x1000000000 ∧ 0x10FFFFFFFF % 8 = 7) := by decide

theorem witness_StepRunsTheDecodedOperation :
    ({ st (base .t) with script := [Line.only (.dl 3 115), {}] } : State).script = Line.only (.dl 3 115) :: [{}] ∧
    decode (st (base .t)).cfg.raw (.dl 3 115) = .ok (.dlWrrd 115) ∧ State.reset.script = [] := ⟨rfl, rfl, rfl⟩

theorem witness_OrderOfFieldsInALineDoesNotMatter :
    [Instr.modeDual, .accept, .wrStep 1].Perm [.wrStep 1, .modeDual, .accept] ∧
    ([Instr.modeDual, .accept, .wrStep 1].map Instr.field).Nodup ∧
    ∀ i ∈ [Instr.modeDual, .accept, .wrStep 1], i.operandsFit (st (base .t)).cfg.raw = true := by decide

/-- Every field presented, each at its largest value. -/
def fullLine : Line :=
  { bus := some 0x1CFFFFFFFF
    mode := some 3
    rdy := some 1
    hop := some ⟨1, 2 ^ 32 - 1, 0, 5, 2 ^ 32 - 1⟩
    dl := some ⟨3, 2 ^ 36 - 1⟩
    rst := some 1 }

theorem witness_EveryLegalLineRuns :
    ({ st (base .t) with script := [fullLine] } : State).script = fullLine :: [] ∧
    legalLine (st (base .t)).cfg.raw fullLine = true ∧
    wordAligned (st (base .t)).engine.ports.busAddr = true := by decide

/-- A state in the invariant that is not the reset state. -/
theorem base_inv : (st (base .t)).Inv := by
  refine ⟨by decide, by decide, ?_, by decide, ?_, by decide, by decide, by decide, by decide, rfl, ⟨rfl, rfl⟩, ⟨rfl, rfl⟩⟩
  · intro q h
    by_cases hq : q = 4
    · subst hq; decide
    · exact absurd (by simp [st, base, DelayMem.written, Ne.symm hq]) h
  · intro b b' h
    have h2 : ∀ b, (List.replicate 2 false).getD b false = false := by
      intro b; match b with
        | 0 => rfl
        | 1 => rfl
        | _ + 2 => rfl
    exact absurd ((h2 b).symm.trans h) (by decide)

theorem witness_EveryStepKeepsTheInvariant : (st (base .t)).Inv ∧ ∃ t, step (st (base .t)) = .next t :=
  ⟨base_inv, _, rfl⟩

theorem witness_NoStepChangesTheConfiguration : ∃ t, step (st (base .t)) = .next t := ⟨_, rfl⟩

/-- `TableOk` holds of parameters with and without errors; one set for each error, and one with none. -/
theorem witness_ConstructionFailsExactlyOnTheErrors :
    Config.paramsT.TableOk ∧ Config.paramsT.errors = [] ∧
    ({ Config.paramsT with delay := 8 } : Config).TableOk ∧ ({ Config.paramsT with delay := 8 } : Config).errors = [.ce1] ∧
    ({ Config.paramsT with dataW := 0 } : Config).TableOk ∧ ({ Config.paramsT with dataW := 0 } : Config).errors = [.ce3] :=
  ⟨Config.tableOk_of_eighths _ rfl rfl rfl, by decide, Config.tableOk_of_eighths _ rfl rfl rfl, by decide,
    Config.tableOk_of_eighths _ rfl rfl rfl, by decide⟩

theorem witness_TableDependsOnlyOnItsTwoWidths :
    (-127 : Int) ∈ Cfg.t.table ∧ (∃ t, step (st (base .t)) = .next t) ∧ Cfg.t.lutAw = cfgOut.lutAw ∧
    Cfg.t.sampleW = cfgOut.sampleW ∧ Cfg.t ≠ cfgOut := by
  refine ⟨by decide, ⟨_, rfl⟩, rfl, rfl, fun h => ?_⟩
  have := congrArg Cfg.outReg h
  exact absurd this (by decide)

theorem witness_NegatedPhaseAddress :
    (BitVec.ofNat 32 0x20000000).toNat % 2 ^ (Cfg.t.w - Cfg.t.lutAw) = 0 ∧
    (BitVec.ofNat 32 0).toNat % 2 ^ (Cfg.t.w - Cfg.t.lutAw) = 0 ∧
    (BitVec.ofNat 32 0x1FFFFFFF).toNat % 2 ^ (Cfg.t.w - Cfg.t.lutAw) ≠ 0 := by decide

/-- Two phases with the same top bits; `LUT_AW = W` in an instance with an eight-entry table and `W = 3`. -/
def cfgNarrow : Cfg := ⟨{ Config.paramsT with w := 3 }, by decide, Config.tableOk_of_eighths _ rfl rfl rfl⟩

theorem witness_TableAddressIsTheTopBitsOfThePhase :
    (BitVec.ofNat 32 0x3FFFFFFF) >>> (Cfg.t.w - Cfg.t.lutAw) = (BitVec.ofNat 32 0x20000000) >>> (Cfg.t.w - Cfg.t.lutAw) ∧
    cfgNarrow.lutAw = cfgNarrow.w := by decide

theorem witness_ResetTickPutsEveryRegisterAtItsResetValue : wordAligned (base .t).ports.busAddr = true := by decide

/-- Each mode, with and without the output register. -/
theorem witness_ResetTickShowsTheResetState :
    wordAligned (base .t).ports.busAddr = true ∧ (base .t).ports.mode = 1 ∧
    ({ base .t with ports := (base .t).ports.driveMode 3 } : Engine .t).ports.mode = 3 ∧ Cfg.t.outReg = false ∧
    cfgOut.outReg = true := by decide

theorem witness_ResetHeldForManyTicksIsOneReset : wordAligned (base .t).ports.busAddr = true := by decide

theorem witness_StateAfterResetAsAUserSeesIt : wordAligned 0x0 = true ∧ wordAligned 0xC = true := by decide

/-- For the writes, reads and the control word: the largest data, no reset. -/
theorem witness_BusWritesStoreTheWord : 2 ^ 32 - 1 < 2 ^ Cfg.t.w ∧ (base .t).ports.rst = false := by decide

theorem witness_ControlWordLoadsTheCommandLatch : 7 < 2 ^ Cfg.t.w ∧ (base .t).ports.rst = false := by decide

theorem witness_AliasesLoadOneCommandBit : 2 ^ 29 - 1 < 2 ^ (Cfg.t.w - 3) ∧ (base .t).ports.rst = false := by decide

theorem witness_AliasesAreTheControlWord : 2 ^ 29 - 1 < 2 ^ ((st (base .t)).cfg.w - 3) := by decide

theorem witness_BusReadsShowTheWord : 2 ^ 32 - 1 < 2 ^ Cfg.t.w ∧ (base .t).ports.rst = false := by decide

/-- The read tick may carry other fields with the read: here dual-tone mode with ready high. -/
theorem witness_WrittenWordIsReadBackInTheNextTick :
    2 ^ 32 - 1 < 2 ^ Cfg.t.w ∧ 0 < 2 ^ Cfg.t.w ∧ (base .t).ports.rst = false ∧
    (((base .t).ports.driveMode 2).driveReady true).rst = false := by decide

theorem witness_MisalignedBusAddressIsRefused : 2 ^ 32 - 1 < 2 ^ (st (base .t)).cfg.w := by decide

theorem runs_of {c : Cfg} {e : Engine c} {i : Instr} (h1 : i.operandsFit c.raw = true) (h2 : (e.ports.drive i).rst = false)
    (h3 : wordAligned (e.ports.drive i).busAddr = true) : e.Runs i := ⟨h1, h2, h3⟩

/-- Each command bit, and each case of the pulse timer, `PULSE_LEN = 3`. -/
theorem witness_RunStateMachineInEveryTick :
    (inRun .t 0b010 ⟨true, false, 0⟩).Runs .run ∧ (inRun .t 0b001 ⟨false, true, 3⟩).Runs (.dlWr 1) ∧
    (inRun .t 0b100 ⟨false, true, 2⟩).Runs .modeIdle ∧ (inRun .t 0 ⟨false, true, 2⟩).Runs (.wrTwmax 5) ∧
    (inRun .t 0b001 ⟨false, true, 3⟩).run.pulseCnt.toNat = Cfg.t.pulseLen ∧
    (inRun .t 0 ⟨false, true, 2⟩).run.pulseCnt.toNat ≠ Cfg.t.pulseLen ∧
    (inRun .t 0b010 ⟨true, false, 0⟩).run.pulse = false :=
  ⟨runs_of (by decide) (by decide) (by decide), runs_of (by decide) (by decide) (by decide),
    runs_of (by decide) (by decide) (by decide), runs_of (by decide) (by decide) (by decide), by decide, by decide,
    by decide⟩

/-- Each bus address, each mode, with and without the output register. -/
theorem witness_EveryTickShowsTheRegistersItStartsFrom :
    ((base .t).Runs (.rdStatus 0) ∧ (base .t).Runs (.wrTwmin 5) ∧ (base .t).Runs (.rdTwmax 0) ∧
      (base .t).Runs (.rdStep 0)) ∧
    ((base .t).Runs .modeIdle ∧ (base .t).Runs .accept ∧ (base .t).Runs .modeDual ∧ (base cfgOut).Runs .modeRsvd3) ∧
    ((base .t).ports.drive (.rdStatus 0)).busAddr = 0x0 ∧ ((base .t).ports.drive (.wrTwmin 5)).busAddr = 0x4 ∧
    ((base .t).ports.drive (.rdTwmax 0)).busAddr = 0x8 ∧ ((base .t).ports.drive (.rdStep 0)).busAddr = 0xC ∧
    ((base .t).ports.drive .modeIdle).mode = 0 ∧ ((base .t).ports.drive .accept).mode = 1 ∧
    ((base .t).ports.drive .modeDual).mode = 2 ∧ ((base cfgOut).ports.drive .modeRsvd3).mode = 3 :=
  ⟨⟨runs_of (by decide) (by decide) (by decide), runs_of (by decide) (by decide) (by decide),
      runs_of (by decide) (by decide) (by decide), runs_of (by decide) (by decide) (by decide)⟩,
    ⟨runs_of (by decide) (by decide) (by decide), runs_of (by decide) (by decide) (by decide),
      runs_of (by decide) (by decide) (by decide), runs_of (by decide) (by decide) (by decide)⟩, by decide⟩

/-- A stop command in every tick. `n = 3` is the last tick of the pulse, `n = 4` the first after it. -/
theorem witness_PulseLastsPulseLenPlusOneTicks :
    let f : Nat → Instr := fun _ => .stopCont 0
    (inRun .t 0b110 ⟨true, false, 2⟩).Runs (f 0) ∧ (inRun .t 0b110 ⟨true, false, 2⟩).ports.busWe = false ∧
    (inRun .t 0b110 ⟨true, false, 2⟩).ctrl.cmd.getLsbD 2 = true ∧ 3 ≤ Cfg.t.pulseLen ∧ Cfg.t.pulseLen < 4 ∧
    ∀ k, k ≤ 4 → (f k).operandsFit Cfg.t.raw = true ∧ f k ≠ .reset ∧ misaligned (f k) = false ∧
      startsPulse (f k) = false :=
  ⟨runs_of (by decide) (by decide) (by decide), by decide⟩

theorem witness_StartCommandTakesEffectTwoTicksAfterTheWrite :
    0 < 2 ^ (Cfg.t.w - 3) ∧ (inRun .t 0 ⟨false, false, 0⟩).ports.rst = false ∧
    (inRun .t 0 ⟨false, false, 0⟩).run.cont = false ∧ (inRun .t 0 ⟨false, false, 0⟩).run.pulse = false ∧
    (inRun .t 0 ⟨false, false, 0⟩).ctrl.cmd = 0 := by decide

theorem witness_StopCommandForcesTheChirpAccumulators :
    wordAligned (inRun .t 0b010 ⟨true, false, 0⟩).ports.busAddr = true ∧
    (inRun .t 0b010 ⟨true, false, 0⟩).ports.busWe = false ∧ (inRun .t 0b010 ⟨true, false, 0⟩).run.pulse = false ∧
    (inRun .t 0b010 ⟨true, false, 0⟩).run.cont = true ∧ (inRun .t 0b010 ⟨true, false, 0⟩).ctrl.cmd = 0b010 := by decide

/-- Each row of the chain: idle, policy, advance below and at the bound, hold. -/
theorem witness_ChirpAccumulatorsFollowThePriorityChain :
    ((inRun .t 0 ⟨false, false, 0⟩).Runs .accept ∧
      ((inRun .t 0 ⟨false, false, 0⟩).run.cont || (inRun .t 0 ⟨false, false, 0⟩).run.pulse) = false) ∧
    ((base cfgPolicy).Runs .modeDual ∧ cfgPolicy.modeSwitchReset = true ∧
      ((base cfgPolicy).ports.drive .modeDual).mode ≠ 1) ∧
    ((base .t).Runs .accept ∧ ((base .t).ports.drive .accept).mode = 1 ∧
      ((base .t).ports.drive .accept).readyIn = true ∧
      (base .t).synth.freqAcc.toInt < (base .t).ctrl.twMax.toInt) ∧
    ((base .t).Runs .stall ∧ ¬ (Cfg.t.modeSwitchReset = true ∧ ((base .t).ports.drive .stall).mode ≠ 1) ∧
      ¬ (((base .t).ports.drive .stall).mode = 1 ∧ ((base .t).ports.drive .stall).readyIn = true)) :=
  ⟨⟨runs_of (by decide) (by decide) (by decide), by decide⟩, ⟨runs_of (by decide) (by decide) (by decide), by decide⟩,
    ⟨runs_of (by decide) (by decide) (by decide), by decide⟩, ⟨runs_of (by decide) (by decide) (by decide), by decide⟩⟩

theorem witness_ToneAccumulatorsFollowThePriorityChain :
    ((base cfgPolicy).Runs .modeChirp ∧ cfgPolicy.modeSwitchReset = true ∧
      ((base cfgPolicy).ports.drive .modeChirp).mode ≠ 2) ∧
    ((ready .t).Runs .modeDual ∧ ((ready .t).ports.drive .modeDual).mode = 2 ∧
      (((ready .t).run.cont || (ready .t).run.pulse) && ((ready .t).ports.drive .modeDual).readyIn) = true) ∧
    ((base .t).Runs .modeDual ∧ ¬ (Cfg.t.modeSwitchReset = true ∧ ((base .t).ports.drive .modeDual).mode ≠ 2) ∧
      ¬ (((base .t).ports.drive .modeDual).mode = 2 ∧
        (((base .t).run.cont || (base .t).run.pulse) && ((base .t).ports.drive .modeDual).readyIn) = true)) :=
  ⟨⟨runs_of (by decide) (by decide) (by decide), by decide⟩, ⟨runs_of (by decide) (by decide) (by decide), by decide⟩,
    ⟨runs_of (by decide) (by decide) (by decide), by decide⟩⟩

/-- Running, mode chirp, at the start of a sweep from `10000000` to `30000000` in steps of `10000000` (P1). -/
def sweep : Engine .t := { ready .t with synth := ⟨BitVec.ofNat _ 0x10000000, 0, 0, 0, 0⟩ }

theorem witness_SweepRepeatsAfterTheFirstValueAtOrAboveTheBound :
    sweep.Ready ∧ sweep.ports.busWe = false ∧ sweep.ports.mode = 1 ∧ sweep.run.cont = true ∧ sweep.ctrl.cmd = 0 ∧
    sweep.synth.freqAcc = sweep.ctrl.twMin ∧ sweep.synth.phaseC = 0 ∧
    sweep.ctrl.twMin.toInt < sweep.ctrl.twMax.toInt ∧ 0 < sweep.ctrl.chirpStep.toInt ∧
    (∀ k : Nat, k < 2 → sweep.ctrl.twMin.toInt + k * sweep.ctrl.chirpStep.toInt < sweep.ctrl.twMax.toInt) ∧
    sweep.ctrl.twMax.toInt ≤ sweep.ctrl.twMin.toInt + (2 : Nat) * sweep.ctrl.chirpStep.toInt ∧
    sweep.ctrl.twMin.toInt + (2 : Nat) * sweep.ctrl.chirpStep.toInt < 2 ^ (Cfg.t.w - 1) :=
  ⟨⟨rfl, by decide⟩, by decide, by decide, by decide, by decide, by decide, by decide, by decide, by decide, by decide,
    by decide, by decide⟩

/-- Running in dual-tone mode. -/
def dual : Engine .t := { base .t with ports := (base .t).ports.driveMode 2 }

theorem witness_TonePhasesAreModularSums :
    dual.Ready ∧ dual.ports.busWe = false ∧ dual.ports.mode = 2 ∧ dual.run.cont = true ∧ dual.ctrl.cmd = 0 ∧
    Cfg.t.sampleCntEn = true := ⟨⟨rfl, by decide⟩, by decide⟩

theorem witness_StalledAccumulatorsDoNotAdvance :
    (base .t).Ready ∧ Cfg.t.modeSwitchReset = false ∧
    ∀ (k : Nat) (f : Engine .t), k < 2 → execTimes .stall k ⟨.t, base .t, []⟩ = .next ⟨.t, f, []⟩ →
      f.run.isRunning = true := by
  refine ⟨⟨rfl, by decide⟩, by decide, fun k f hk h => ?_⟩
  have h2 : k = 0 ∨ k = 1 := by omega
  rcases h2 with rfl | rfl
  · injection h with h
    injection h with _ h
    subst h; rfl
  · injection h with h
    injection h with _ h
    subst h; decide

/-- The next tick with a write on the bus, with `RUN`, and with the mode presented again. -/
theorem witness_OfferedSampleStaysOnOffer :
    (base .t).Ready ∧ (base .t).run.isRunning = true ∧
    ∃ e1 : Engine .t, exec .stall ⟨.t, base .t, []⟩ = .next ⟨.t, e1, []⟩ ∧ e1.run.isRunning = true ∧
      (Instr.wrTwmin 5 ≠ .reset ∧ (e1.ports.drive (.wrTwmin 5)).mode = e1.ports.mode ∧ e1.Runs (.wrTwmin 5)) ∧
      (Instr.run ≠ .reset ∧ (e1.ports.drive .run).mode = e1.ports.mode ∧ e1.Runs .run) ∧
      (Instr.modeChirp ≠ .reset ∧ (e1.ports.drive .modeChirp).mode = e1.ports.mode ∧ e1.Runs .modeChirp) :=
  ⟨⟨rfl, by decide⟩, by decide, _, rfl, by decide,
    ⟨by decide, rfl, runs_of (by decide) (by decide) (by decide)⟩,
    ⟨by decide, rfl, runs_of (by decide) (by decide) (by decide)⟩,
    ⟨by decide, rfl, runs_of (by decide) (by decide) (by decide)⟩⟩

/-- For `STALL`, `ACCEPT`, the modes and `HOP_HOLD`: ready states in chirp and in dual-tone mode, running and idle. -/
theorem witness_StallTransfersNothing :
    (base .t).Ready ∧ (base .t).run.isRunning = true ∧ (base .t).ports.mode = 1 ∧ Cfg.t.modeSwitchReset = false ∧
    dual.Ready ∧ dual.ports.mode = 2 := ⟨⟨rfl, by decide⟩, by decide, by decide, by decide, ⟨rfl, by decide⟩, by decide⟩

/-- Transfers in chirp mode below the bound and at it and in dual-tone mode, an idle machine, no policy, no counter;
and a tick of another operation with ready high. -/
theorem witness_AcceptTransfersTheOfferedSample :
    (base .t).Ready ∧ (base .t).run.isRunning = true ∧ (base .t).ports.mode = 1 ∧ Cfg.t.sampleCntEn = true ∧
    Cfg.t.modeSwitchReset = false ∧ (base .t).synth.freqAcc.toInt < (base .t).ctrl.twMax.toInt ∧
    ({ base .t with ctrl := ⟨0, 0, BitVec.ofNat _ 0x20000000, 0⟩ } : Engine .t).ctrl.twMax.toInt ≤
      (base .t).synth.freqAcc.toInt ∧
    dual.Ready ∧ dual.run.isRunning = true ∧ dual.ports.mode = 2 ∧
    (inRun .t 0 ⟨false, false, 0⟩).Ready ∧ (inRun .t 0 ⟨false, false, 0⟩).run.isRunning = false ∧
    cfgBare.sampleCntEn = false ∧ (ready .t).Runs (.dlWr 1) ∧ ((ready .t).ports.drive (.dlWr 1)).readyIn = true :=
  ⟨⟨rfl, by decide⟩, by decide, by decide, by decide, by decide, by decide, by decide, ⟨rfl, by decide⟩, by decide,
    by decide, ⟨rfl, by decide⟩, by decide, by decide, runs_of (by decide) (by decide) (by decide), by decide⟩

theorem witness_ModeSelectsTheSamples : (base .t).Ready := ⟨rfl, by decide⟩

theorem witness_ReservedModeBehavesAsIdle : wordAligned (base .t).ports.busAddr = true := by decide

theorem witness_SamplesStayInRange :
    ∃ e' : Engine .t, exec .modeDual ⟨.t, base .t, []⟩ = .next ⟨.t, e', []⟩ := ⟨_, rfl⟩

theorem witness_SaturationHappensExactlyBeyondTheRange : 7 < Cfg.t.size ∧ 0 < Cfg.t.size := by decide

/-- Hop state 3 with the count at the bound, `hop_en` and its operands standing on their ports. -/
def hopping : Engine .t := { inHop .t 3 5 0 with ports := (base .t).ports.driveHopRun 1 2 3 5 }

/-- Each hop state; the dwell count one below the bound and at it; and `hop_en` standing on the port at 1 while
another operation is executed. -/
theorem witness_HopRunCountsOrHops :
    ((inHop .t 0 4 0).Ready ∧ (inHop .t 1 5 0).Ready ∧ (inHop .t 2 5 0).Ready ∧ (inHop .t 3 5 0).Ready ∧
      2 ^ 32 - 1 < 2 ^ Cfg.t.w ∧ 5 < 2 ^ Cfg.t.hopCntW ∧ (inHop .t 0 4 0).hop.hopState = 0 ∧
      (inHop .t 1 5 0).hop.hopState = 1 ∧ (inHop .t 2 5 0).hop.hopState = 2 ∧ (inHop .t 3 5 0).hop.hopState = 3 ∧
      (inHop .t 0 4 0).hop.dwellCnt.toNat < 5 ∧ 5 ≤ (inHop .t 1 5 0).hop.dwellCnt.toNat) ∧
    hopping.Runs .run ∧ (hopping.ports.drive .run).hopEn = true ∧ hopping.hop.hopState = 3 ∧
    (hopping.ports.drive .run).hopBound.toNat ≤ hopping.hop.dwellCnt.toNat :=
  ⟨⟨⟨rfl, by decide⟩, ⟨rfl, by decide⟩, ⟨rfl, by decide⟩, ⟨rfl, by decide⟩, by decide⟩,
    runs_of (by decide) (by decide) (by decide), by decide⟩

theorem witness_HopHoldHoldsTheHopNco : (base .t).Ready := ⟨rfl, by decide⟩

theorem witness_HopWordsRunInACycleOfFourDwells :
    (inHop .t 0 0 9).Ready ∧ 2 ^ 32 - 1 < 2 ^ Cfg.t.w ∧ 1 < 2 ^ Cfg.t.hopCntW ∧ (inHop .t 0 0 9).hop.hopState = 0 ∧
    (inHop .t 0 0 9).hop.dwellCnt = 0 := ⟨⟨rfl, by decide⟩, by decide⟩

/-- For the delay line's operations: the last pointer, and a memory with an entry. -/
theorem witness_DelayIdleAndReadLeaveTheMemory : (base .t).Ready ∧ (base .t).dl.wptr < Cfg.t.total ∧ 1 < Cfg.t.nb :=
  ⟨⟨rfl, by decide⟩, by decide⟩

theorem witness_DelayWritesStoreAtTheWritePointer :
    (base .t).Ready ∧ 2 ^ 36 - 1 < 2 ^ Cfg.t.dataW ∧ (base .t).dl.wptr < Cfg.t.total ∧ (base .t).dl.bank.wf = true :=
  ⟨⟨rfl, by decide⟩, by decide⟩

/-- Bank 1 is the one read, bank 0 the other. -/
theorem witness_EveryTickLoadsTheBankItReads :
    (base .t).Runs .dlRd ∧ 1 < Cfg.t.nb ∧ readEn .t ((base .t).ports.drive .dlRd) (base .t).dl.wptr 1 = true ∧
    readEn .t ((base .t).ports.drive .dlRd) (base .t).dl.wptr 0 = false :=
  ⟨runs_of (by decide) (by decide) (by decide), by decide⟩

theorem witness_ReadDataArrivesAfterTheLatency :
    ((base .t).Runs .dlRd ∧ ((base .t).ports.drive .dlRd).dlRdEn = true ∧ (base .t).dl.wptr < Cfg.t.total ∧
      ∃ e1 e2 e3 : Engine .t, exec .dlRd ⟨.t, base .t, []⟩ = .next ⟨.t, e1, []⟩ ∧
        exec (.dlWr 1) ⟨.t, e1, []⟩ = .next ⟨.t, e2, []⟩ ∧ exec .run ⟨.t, e2, []⟩ = .next ⟨.t, e3, []⟩) ∧
    ((base cfgOut).Runs .dlRd ∧ ((base cfgOut).ports.drive .dlRd).dlRdEn = true ∧
      (base cfgOut).dl.wptr < cfgOut.total ∧
      ∃ e1 e2 e3 : Engine cfgOut, exec .dlRd ⟨cfgOut, base cfgOut, []⟩ = .next ⟨cfgOut, e1, []⟩ ∧
        exec (.dlWr 1) ⟨cfgOut, e1, []⟩ = .next ⟨cfgOut, e2, []⟩ ∧
        exec .run ⟨cfgOut, e2, []⟩ = .next ⟨cfgOut, e3, []⟩) :=
  ⟨⟨runs_of (by decide) (by decide) (by decide), by decide, by decide, _, _, _, rfl, rfl, rfl⟩,
    ⟨runs_of (by decide) (by decide) (by decide), by decide, by decide, _, _, _, rfl, rfl, rfl⟩⟩

theorem witness_OutputWithoutAReadIsAFreshDraw :
    (base .t).Runs .dlIdle ∧ (∀ b, b < Cfg.t.nb → (base .t).dl.reQ.getD b false = false) ∧ (base cfgOut).Runs .dlIdle ∧
    (∀ b, b < cfgOut.nb → (base cfgOut).dl.reQ.getD b false = false) :=
  ⟨runs_of (by decide) (by decide) (by decide), by decide, runs_of (by decide) (by decide) (by decide), by decide⟩

theorem witness_ReadPointerIsNeverTheWritePointer : 0 < Cfg.t.total ∧ 7 < Cfg.t.total := by decide

theorem witness_BankTranslationIsABijection :
    7 < Cfg.t.total ∧ 1 < Cfg.t.nb ∧ 3 < Cfg.t.bankDepth ∧ rowOf .t 6 + 1 < Cfg.t.bankDepth := by decide

theorem witness_AtMostOneBankIsWrittenAndOneRead :
    7 < Cfg.t.total ∧ writeEn .t ((base .t).ports.driveDelay true true 0) 7 1 = true ∧
    readEn .t ((base .t).ports.driveDelay true true 0) 7 1 = true := by decide

/-- The first tick of the fill point, with each latency. -/
theorem witness_DelayLineDelaysByDelayPlusLatency :
    ((base .t).dl.bank.wf = true ∧ (∃ e0 : Engine .t, exec .reset ⟨.t, base .t, []⟩ = .next ⟨.t, e0, []⟩) ∧
      100 < 2 ^ Cfg.t.dataW ∧ 1 = (if Cfg.t.outReg then 2 else 1) ∧ Cfg.t.delay + 1 ≤ 4) ∧
    ((base cfgOut).dl.bank.wf = true ∧
      (∃ e0 : Engine cfgOut, exec .reset ⟨cfgOut, base cfgOut, []⟩ = .next ⟨cfgOut, e0, []⟩) ∧
      100 < 2 ^ cfgOut.dataW ∧ 2 = (if cfgOut.outReg then 2 else 1) ∧ cfgOut.delay + 2 ≤ 5) :=
  ⟨⟨by decide, ⟨_, rfl⟩, by decide⟩, ⟨by decide, ⟨_, rfl⟩, by decide⟩⟩

/-- A delay line with a read pending in bank 1, and the smaller model that stands for it, in a tick without reset and
in a reset tick; both operations run. -/
theorem witness_SmallDelayModelIsEquivalent :
    let d : DelayLine Cfg.t.dataW := { (base .t).dl with reQ := [false, true], bankQ := [0, 9] }
    let e : Engine .t := { base .t with dl := d }
    d.wptr < Cfg.t.total ∧ (∀ b b', d.reQ.getD b false = true → d.reQ.getD b' false = true → b = b') ∧
    ((base .t).ports.driveDelay true true 3).rst = false ∧ ((base .t).ports.driveRst true).rst = true ∧
    (∃ e' : Engine .t, exec (.dlWrrd 3) ⟨.t, e, []⟩ = .next ⟨.t, e', []⟩) ∧
    (∃ e' : Engine .t, exec .reset ⟨.t, e, []⟩ = .next ⟨.t, e', []⟩) ∧
    SmallDelay.Simulates (c := .t) ⟨d.wptr, d.bank, true, 9, d.doutReg⟩ d := by
  have h1 : ∀ b, [false, true].getD b false = true → b = 1 := by
    intro b h
    match b with
    | 0 => exact absurd h (by decide)
    | 1 => rfl
    | _ + 2 => exact absurd h Bool.false_ne_true
  refine ⟨by decide, fun b b' h h' => (h1 b h).trans (h1 b' h').symm, rfl, rfl, ⟨_, rfl⟩, ⟨_, rfl⟩, rfl, rfl, rfl, ?_, ?_⟩
  · exact ⟨fun _ => ⟨1, by decide, rfl⟩, fun _ => rfl⟩
  · intro b _ h
    obtain rfl := h1 b h
    rfl

theorem witness_OnlyTheWriteEnableChangesTheMemory :
    (base .t).dl.wptr < Cfg.t.total ∧ (base .t).dl.bank.wf = true ∧
    (∃ e' : Engine .t, exec (.dlWr 1) ⟨.t, base .t, []⟩ = .next ⟨.t, e', []⟩) ∧
    (∃ e' : Engine .t, exec .reset ⟨.t, base .t, []⟩ = .next ⟨.t, e', []⟩) := ⟨by decide, by decide, ⟨_, rfl⟩, ⟨_, rfl⟩⟩

/-- Two operations of each field that both run. -/
theorem witness_FieldsInfluenceOnlyTheirOwnUnit :
    ∀ p ∈ [(Instr.wrTwmin 1, Instr.startCont 0), (.modeChirp, .modeDual), (.stall, .accept), (.hopHold, .hopRun 1 2 3 4),
        (.dlIdle, .dlWrrd 1)],
      p.1.field = p.2.field ∧ (after (exec p.1 ⟨.t, base .t, []⟩) (fun _ => true)) = some true ∧
        (after (exec p.2 ⟨.t, base .t, []⟩) (fun _ => true)) = some true := by decide

theorem witness_QuietTickHoldsEveryRegister :
    (base .t).Inv ∧ (base .t).ports.hopEn = false ∧ Cfg.t.modeSwitchReset = false ∧ Cfg.t.outReg = false ∧
    (base .t).run.cont = true ∧ (base .t).run.pulse = false ∧ (base .t).ctrl.cmd = 0 :=
  ⟨base_inv, by decide⟩

/-- An operation for each clause's enable. -/
theorem witness_UnitsHoldUnlessTheirOwnEnableIsUp :
    (base cfgBare).Runs .accept ∧ ((base cfgBare).ports.drive .accept).busWe = false ∧
    ((base cfgBare).ports.drive .accept).hopEn = false ∧ ((base cfgBare).ports.drive .accept).dlWrEn = false ∧
    ((base cfgBare).ports.drive .accept).dlRdEn = false ∧ cfgBare.outReg = false ∧ cfgBare.sampleCntEn = false :=
  ⟨runs_of (by decide) (by decide) (by decide), by decide⟩

end Sys2Proof.Tests
end

section
/-! PROOFS. Scope, step and configuration: no step changes the configuration fixed at construction (section 3
of spec/00_scope.md, R75). -/

namespace Sys2Proof.Proofs

open Sys2Proof.Machine Sys2Proof.Laws

theorem exec_next_cfg {i : Instr} {s t : State} (h : exec i s = .next t) : t.cfg = s.cfg := by
  obtain ⟨c, e, scr⟩ := s
  obtain ⟨_, _, r, _, rfl⟩ := exec_next_inv i c e scr t h
  rfl

theorem runLine_next_cfg {is : List Instr} {s t : State} (h : runLine is s = .next t) : t.cfg = s.cfg := by
  fun_induction runLine is s with
  | case1 s => exact exec_next_cfg h
  | case2 s i => exact exec_next_cfg h
  | case3 s i j rest ih => exact ih h

theorem fetch_cfg (s : State) : (fetch s).2.cfg = s.cfg := by
  unfold fetch
  split <;> rfl

/-- All that a step can do: the next line decodes, and the next state is that of running its operations. -/
theorem step_next_inv {s t : State} (h : step s = .next t) :
    ∃ is, decodeLine s.cfg.raw (fetch s).1 = .ok is ∧ runLine is (fetch s).2 = .next t := by
  unfold step runNext at h
  split at h
  · exact ⟨_, ‹_›, h⟩
  · cases h

theorem step_next_cfg {s t : State} (h : step s = .next t) : t.cfg = s.cfg := by
  obtain ⟨is, _, hrun⟩ := step_next_inv h
  exact (runLine_next_cfg hrun).trans (fetch_cfg s)

end Sys2Proof.Proofs
end

section
/-! PROOFS. Scope, the sine table: R120 makes it a function of `LUT_AW` and `SAMPLE_W`, and rounding keeps its entries
between `-AMP` and `AMP` (R14, R121 (e)). -/

namespace Sys2Proof.Proofs

open Sys2Proof.Machine

theorem round_mono : Monotone (round : ℝ → ℤ) := by
  intro x y h
  simp only [round_eq]
  exact Int.floor_mono (by gcongr)

/-- An integer bound on a real's size bounds the rounded value too. -/
theorem abs_round_le {x : ℝ} {n : ℤ} (h : |x| ≤ n) : |round x| ≤ n := by
  obtain ⟨hlo, hhi⟩ := abs_le.1 h
  have hn : round ((-n : ℤ) : ℝ) ≤ round x := round_mono (by push_cast; exact hlo)
  have hp : round x ≤ round (n : ℝ) := round_mono hhi
  rw [round_intCast] at hn hp
  exact abs_le.2 ⟨hn, hp⟩

/-- Entry `i` of the table by R120, from the two widths alone. -/
noncomputable def sineEntry (lutAw sampleW i : Nat) : Sample :=
  round (Real.sin (2 * Real.pi * (i : ℝ) / ((2 ^ lutAw : Nat) : ℝ)) * ((2 ^ (sampleW - 1) - 1 : Int) : ℝ))

theorem abs_sineEntry_le (lutAw sampleW i : Nat) : |sineEntry lutAw sampleW i| ≤ 2 ^ (sampleW - 1) - 1 := by
  have hamp : (0 : Int) ≤ 2 ^ (sampleW - 1) - 1 := sub_nonneg.2 (one_le_pow₀ one_le_two)
  have hampR : (0 : ℝ) ≤ ((2 ^ (sampleW - 1) - 1 : Int) : ℝ) := by exact_mod_cast hamp
  refine abs_round_le ?_
  rw [abs_mul, abs_of_nonneg hampR]
  exact mul_le_of_le_one_left hampR (Real.abs_sin_le_one _)

/-- Every constructed table is the list of R120's entries. -/
theorem table_eq_sineEntries (c : Cfg) :
    c.table = (List.range (2 ^ c.lutAw)).map (sineEntry c.lutAw c.sampleW) := by
  obtain ⟨hlen, hval⟩ := c.tableOk
  refine List.ext_getElem (by rw [List.length_map, List.length_range]; exact hlen) fun i hi _ => ?_
  have h := hval i (hlen ▸ hi)
  rw [List.getD_eq_getElem _ _ hi] at h
  rw [List.getElem_map, List.getElem_range]
  exact h

theorem table_length (c : Cfg) : c.table.length = c.size := c.tableOk.1

theorem abs_le_amp_of_mem_table {c : Cfg} {x : Sample} (h : x ∈ c.table) : |x| ≤ 2 ^ (c.sampleW - 1) - 1 := by
  rw [table_eq_sineEntries, List.mem_map] at h
  obtain ⟨i, _, rfl⟩ := h
  exact abs_sineEntry_le _ _ i

theorem table_eq_of_widths_eq {c c' : Cfg} (hl : c.lutAw = c'.lutAw) (hs : c.sampleW = c'.sampleW) :
    c.table = c'.table := by
  rw [table_eq_sineEntries c, table_eq_sineEntries c', hl, hs]

/-- Settles O12: the length and the entries are R120's, and a step keeps the configuration that holds the table. -/
theorem tableDependsOnlyOnItsTwoWidths : Obligations.TableDependsOnlyOnItsTwoWidths := by
  refine ⟨fun c => ⟨table_length c, fun x hx => ?_⟩, fun _ _ => table_eq_of_widths_eq,
    fun s t h => congrArg Cfg.table (step_next_cfg h)⟩
  obtain ⟨hlo, hhi⟩ := abs_le.1 (abs_le_amp_of_mem_table hx)
  exact ⟨by linarith, hhi⟩

end Sys2Proof.Proofs
end

section
/-! PROOFS. Scope, the frame of a tick without reset: each unit with its own enable down (R17). -/

namespace Sys2Proof.Proofs

open Sys2Proof.Machine Sys2Proof.Laws

/-- Without a bus write the command latch clears and the three words hold (R261). -/
theorem ctrlNext_of_busWe_false {w hw dw : Nat} {p : Ports w hw dw} (k : CtrlRegs w) (h : p.busWe = false) :
    k.next p = ⟨0, k.twMin, k.twMax, k.chirpStep⟩ := by
  simp [CtrlRegs.next, h]

/-- `HOP_HOLD` (R145). -/
theorem hopNext_of_hopEn_false {w hw dw : Nat} {p : Ports w hw dw} (n : HopNco w hw) (h : p.hopEn = false) :
    n.next p = n := by
  simp [HopNco.next, h]

/-- A configuration without the sample counter keeps the field as it is (R34, log 14). -/
theorem synthNext_sampleCnt_of_absent {w hw dw pw : Nat} (a : SynthAcc w) (policy : Bool) (k : CtrlRegs w)
    (r : RunState pw) (p : Ports w hw dw) : (a.next policy false k r p).sampleCnt = a.sampleCnt := by
  simp [SynthAcc.next, sampleCntNext]

section delay
variable {c : Cfg} {p : Ports c.w c.hopCntW c.dataW} (d : DelayLine c.dataW) (m : Word c.dataW)

theorem writeEn_of_dlWrEn_false (h : p.dlWrEn = false) (wptr b : Nat) : writeEn c p wptr b = false := by
  simp [writeEn, h]

theorem readEn_of_dlRdEn_false (h : p.dlRdEn = false) (wptr b : Nat) : readEn c p wptr b = false := by
  simp [readEn, h]

theorem next_wptr_of_dlWrEn_false (h : p.dlWrEn = false) : (d.next c p m).wptr = d.wptr := by
  simp [DelayLine.next, h]

/-- No bank is enabled for a write, so the memory holds whatever the pointer is (R227, R228). -/
theorem next_bank_of_dlWrEn_false (h : p.dlWrEn = false) : (d.next c p m).bank = d.bank := by
  have hnone := find_bank_none (n := c.nb) fun b _ => writeEn_of_dlWrEn_false h d.wptr b
  simp only [DelayLine.next, bankWrite, hnone]

/-- Without a read no bank is marked, and there is no mark beyond the banks (R231). -/
theorem next_reQ_of_dlRdEn_false (h : p.dlRdEn = false) (b : Nat) : (d.next c p m).reQ.getD b false = false := by
  simp only [DelayLine.next, getD_map_range, readEn_of_dlRdEn_false h, ite_self]

theorem next_bankQ_of_dlRdEn_false (h : p.dlRdEn = false) {b : Nat} (hb : b < c.nb) :
    (d.next c p m).bankQ.getD b 0 = d.bankQ.getD b 0 := by
  rw [next_bankQ c d p m b hb, readEn_of_dlRdEn_false h, if_neg Bool.false_ne_true]

/-- A configuration without the output register keeps the field as it is (R43, log 14). -/
theorem next_doutReg_of_absent (h : c.outReg = false) : (d.next c p m).doutReg = d.doutReg := by
  simp [DelayLine.next, h]

end delay

/-- Settles O60: the tick advances every group from one snapshot, and each group with its enable down is its own
frame lemma. -/
theorem unitsHoldUnlessTheirOwnEnableIsUp : Obligations.UnitsHoldUnlessTheirOwnEnableIsUp := by
  intro c e scr i hruns
  obtain ⟨e', hexec, hctrl, -, hsynth, hhop, hdl, hports, -⟩ := exec_groups scr hruns
  refine ⟨e', hexec, fun hwe => ?bus, fun hen => ?hop, fun hwr => ?write, fun hrd => ?read, fun hout => ?doutReg,
    fun hcnt => ?sampleCnt, hports⟩
  case bus => rw [hctrl, ctrlNext_of_busWe_false _ hwe]
  case hop => rw [hhop, hopNext_of_hopEn_false _ hen]
  case write =>
    rw [hdl]
    exact ⟨next_wptr_of_dlWrEn_false _ _ hwr, next_bank_of_dlWrEn_false _ _ hwr⟩
  case read =>
    rw [hdl]
    exact ⟨next_reQ_of_dlRdEn_false _ _ hrd, fun _ => next_bankQ_of_dlRdEn_false _ _ hrd⟩
  case doutReg => rw [hdl, next_doutReg_of_absent _ _ hout]
  case sampleCnt => rw [hsynth, hcnt, synthNext_sampleCnt_of_absent]

end Sys2Proof.Proofs
end

section
/-! PROOFS. State, the invariant: its clauses about the registers hold of a fresh delay line, after a reset tick and
after a tick without reset, whatever stands on the ports; a tick puts the pulse fields of the ports at rest (R104). -/

namespace Sys2Proof.Proofs

open Sys2Proof.Machine Sys2Proof.Laws

/-- The invariant's clauses about the delay line. -/
structure DelayInv (c : Cfg) (d : DelayLine c.dataW) : Prop where
  wptr_lt : d.wptr < c.total
  bank_wf : d.bank.wf = true
  bank_lt : ∀ q, d.bank.written q ≠ none → q < c.total
  reQ_length : d.reQ.length = c.nb
  reQ_one : ∀ b b', d.reQ.getD b false = true → d.reQ.getD b' false = true → b = b'
  bankQ_length : d.bankQ.length = c.nb
  doutReg_absent : c.outReg = false → d.doutReg = 0

/-- The invariant's clauses about the registers: all that does not speak of the ports, so that operations may be
presented between ticks. -/
structure RegsInv {c : Cfg} (e : Engine c) : Prop where
  dl : DelayInv c e.dl
  pulseCnt_le : e.run.pulseCnt.toNat ≤ c.pulseLen
  sampleCnt_absent : c.sampleCntEn = false → e.synth.sampleCnt = 0

/-- The invariant's clauses about the ports (R104). -/
structure AtRest {w hw dw : Nat} (p : Ports w hw dw) : Prop where
  rst_low : p.rst = false
  bus_idle : p.busWe = false ∧ p.busAddr = 0
  dl_idle : p.dlWrEn = false ∧ p.dlRdEn = false

theorem inv_iff {c : Cfg} (e : Engine c) : e.Inv ↔ RegsInv e ∧ AtRest e.ports := by
  constructor
  · intro h
    exact ⟨⟨⟨h.wptr_lt, h.bank_wf, h.bank_lt, h.reQ_length, h.reQ_one, h.bankQ_length, h.doutReg_absent⟩,
      h.pulseCnt_le, h.sampleCnt_absent⟩, ⟨h.rst_low, h.bus_idle, h.dl_idle⟩⟩
  · rintro ⟨⟨hd, hpulse, hcnt⟩, hrst, hbus, hdl⟩
    exact ⟨hd.wptr_lt, hd.bank_wf, hd.bank_lt, hd.reQ_length, hd.reQ_one, hd.bankQ_length, hpulse, hcnt,
      hd.doutReg_absent, hrst, hbus, hdl⟩

theorem regsInv_withPorts {c : Cfg} {e : Engine c} (h : RegsInv e) (p : Ports c.w c.hopCntW c.dataW) :
    RegsInv (e.withPorts p) := ⟨h.dl, h.pulseCnt_le, h.sampleCnt_absent⟩

theorem atRest_quiet (w hw dw : Nat) : AtRest (Ports.quiet w hw dw) := ⟨rfl, ⟨rfl, rfl⟩, rfl, rfl⟩

theorem atRest_relax {w hw dw : Nat} (p : Ports w hw dw) : AtRest p.relax := ⟨rfl, ⟨rfl, rfl⟩, rfl, rfl⟩

theorem total_pos (c : Cfg) : 0 < c.total := (Nat.zero_le _).trans_lt (delay_range c).2

/-- A written entry is the one just written or one written before. -/
theorem written_lt_of_write {dw n : Nat} {m : DelayMem dw} {a : Nat} (v : Word dw) (hwf : m.wf = true)
    (hlt : ∀ q, m.written q ≠ none → q < n) (ha : a < n) (q : Nat)
    (hq : (m.write a v).written q ≠ none) : q < n := by
  rw [written_write m a q v 0 hwf] at hq
  split at hq
  next heq => exact heq ▸ ha
  next => exact hlt q hq

/-- A set registered enable is the one of the bank the read pointer lies in (R227, R231). -/
theorem bankOf_readPtr_of_next_reQ {c : Cfg} {d : DelayLine c.dataW} {p : Ports c.w c.hopCntW c.dataW}
    {m : Word c.dataW} {b : Nat} (h : (d.next c p m).reQ.getD b false = true) : bankOf c (readPtr c d.wptr) = b := by
  simp only [DelayLine.next, getD_map_range] at h
  split at h
  next =>
    simp only [readEn, Bool.and_eq_true, beq_iff_eq] at h
    obtain ⟨⟨-, hbank⟩, -⟩ := h
    exact hbank
  next => cases h

/-- No entry written, no enable set (R39, R40, R42, R324). -/
theorem delayInv_fresh (c : Cfg) : DelayInv c (.fresh c.nb c.dataW) where
  wptr_lt := total_pos c
  bank_wf := fresh_wf c.nb c.dataW
  bank_lt _ h := absurd rfl h
  reQ_length := List.length_replicate
  reQ_one b _ h := absurd h (by simp [DelayLine.fresh])
  bankQ_length := by simp [DelayLine.fresh]
  doutReg_absent _ := rfl

/-- Reset clears the pointer and the enables and keeps the memory and the bank outputs (R320, R323). -/
theorem delayInv_reset {c : Cfg} {d : DelayLine c.dataW} (h : DelayInv c d) : DelayInv c (d.reset c.nb) where
  wptr_lt := total_pos c
  bank_wf := h.bank_wf
  bank_lt := h.bank_lt
  reQ_length := List.length_replicate
  reQ_one b _ hb := absurd hb (by simp [DelayLine.reset])
  bankQ_length := h.bankQ_length
  doutReg_absent _ := rfl

/-- A tick writes at the pointer only, advances the pointer modulo `TOTAL` and enables the bank of the read pointer
only (R227 to R231). -/
theorem delayInv_next {c : Cfg} {d : DelayLine c.dataW} (h : DelayInv c d) (p : Ports c.w c.hopCntW c.dataW)
    (m : Word c.dataW) : DelayInv c (d.next c p m) where
  wptr_lt := by
    simp only [DelayLine.next]
    split
    · exact Nat.mod_lt _ (total_pos c)
    · exact h.wptr_lt
  bank_wf := by
    simp only [DelayLine.next, bankWrite_spec c p d h.wptr_lt]
    split
    · exact write_wf _ _ _ h.bank_wf
    · exact h.bank_wf
  bank_lt := by
    simp only [DelayLine.next, bankWrite_spec c p d h.wptr_lt]
    split
    · exact written_lt_of_write _ h.bank_wf h.bank_lt h.wptr_lt
    · exact h.bank_lt
  reQ_length := by simp [DelayLine.next]
  reQ_one _ _ hb hb' := (bankOf_readPtr_of_next_reQ hb).symm.trans (bankOf_readPtr_of_next_reQ hb')
  bankQ_length := by simp [DelayLine.next]
  doutReg_absent ho := (next_doutReg_of_absent d m ho).trans (h.doutReg_absent ho)

/-- "the counter never exceeds `PULSE_LEN`" (R157): a start zeroes it, and at `PULSE_LEN` it stops. -/
theorem pulseNext_le {c : Cfg} (cmd : BitVec 3) (pulse : Bool) {cnt : Word c.pulseCntW}
    (h : cnt.toNat ≤ c.pulseLen) : (pulseNext c.pulseLen cmd pulse cnt).2.toNat ≤ c.pulseLen := by
  unfold pulseNext
  split_ifs with hstart hpulse hend
  · exact Nat.zero_le _
  · exact h
  · have hne : cnt.toNat ≠ c.pulseLen := fun heq => hend ((pulseCnt_eq_iff c cnt).2 heq)
    calc (cnt + 1).toNat ≤ cnt.toNat + 1 := by
          rw [BitVec.toNat_add]
          exact (Nat.mod_le _ _).trans (Nat.add_le_add_left (Nat.mod_le _ _) _)
      _ ≤ c.pulseLen := by omega
  · exact h

/-- A tick from any engine whose registers meet the invariant: in both kinds of tick each group keeps its clauses, and
the ports relax. -/
theorem tick_inv {c : Cfg} {e : Engine c} (h : RegsInv e) (r : Word c.w) : (e.tick r).Inv := by
  refine (inv_iff _).2 ⟨?_, atRest_relax _⟩
  cases hrst : e.ports.rst with
  | true =>
    rw [tick_of_reset e r hrst]
    exact ⟨delayInv_reset h.dl, Nat.zero_le _, fun _ => rfl⟩
  | false =>
    rw [tick_of_run e r hrst]
    refine ⟨delayInv_next h.dl _ _, pulseNext_le _ _ h.pulseCnt_le, fun hcnt => ?_⟩
    simp only [hcnt, synthNext_sampleCnt_of_absent]
    exact h.sampleCnt_absent hcnt

theorem exec_next_keeps_inv {i : Instr} {s t : State} (h : RegsInv s.engine) (hex : exec i s = .next t) : t.Inv := by
  obtain ⟨c, e, scr⟩ := s
  obtain ⟨_, _, r, _, rfl⟩ := exec_next_inv i c e scr t hex
  exact tick_inv (regsInv_withPorts h _) r

/-- The operations of a line but the last only move the ports. -/
theorem runLine_next_keeps_inv {is : List Instr} {s t : State} (h : RegsInv s.engine)
    (hrun : runLine is s = .next t) : t.Inv := by
  fun_induction runLine is s with
  | case1 s => exact exec_next_keeps_inv h hrun
  | case2 s i => exact exec_next_keeps_inv h hrun
  | case3 s i j rest ih => exact ih (regsInv_withPorts h _) hrun

theorem regsInv_fetch {s : State} (h : RegsInv s.engine) : RegsInv (fetch s).2.engine := by
  unfold fetch
  split <;> exact h

/-- Settles O8: the next line is run from registers that meet the invariant, and its tick restores the ports. -/
theorem everyStepKeepsTheInvariant : Obligations.EveryStepKeepsTheInvariant := by
  intro s t hinv hstep
  obtain ⟨hregs, -⟩ := (inv_iff s.engine).1 hinv
  obtain ⟨is, -, hrun⟩ := step_next_inv hstep
  exact runLine_next_keeps_inv (regsInv_fetch hregs) hrun

theorem afterReset_inv (c : Cfg) : (Engine.afterReset c).Inv :=
  (inv_iff _).2 ⟨⟨delayInv_fresh c, Nat.zero_le _, fun _ => rfl⟩, atRest_quiet _ _ _⟩

/-- Settles O9: every register is 0 and the delay line is fresh, in any configuration. -/
theorem resetStateMeetsTheInvariant : Obligations.ResetStateMeetsTheInvariant :=
  ⟨afterReset_inv .t, afterReset_inv⟩

end Sys2Proof.Proofs
end

section
/-! PROOFS. State, the reset tick: the table of reset values (R45, R320). -/

namespace Sys2Proof.Proofs

open Sys2Proof.Machine Sys2Proof.Laws

/-- Settles O16: `RESET` raises `rst` and leaves the bus address, so its tick is a reset tick, in which every group
takes its own reset value. -/
theorem resetTickPutsEveryRegisterAtItsResetValue : Obligations.ResetTickPutsEveryRegisterAtItsResetValue := by
  intro c e scr haligned
  have hrst : (e.ports.drive .reset).rst = true := rfl
  refine ⟨_, exec_of_resets (i := .reset) scr rfl hrst haligned, ?_⟩
  have hctrl : CtrlRegs.reset c.w = ⟨0, 0, 0, 0⟩ := rfl
  have hrun : RunState.reset c.pulseCntW = ⟨false, false, 0⟩ := rfl
  have hsynth : SynthAcc.reset c.w = ⟨0, 0, 0, 0, 0⟩ := rfl
  have hhop : HopNco.reset c.w c.hopCntW = ⟨0, 0, 0⟩ := rfl
  have hdl : e.dl.reset c.nb = ⟨0, e.dl.bank, List.replicate c.nb false, e.dl.bankQ, 0⟩ := rfl
  simp only [hctrl, hrun, hsynth, hhop, hdl, and_self]

end Sys2Proof.Proofs
end

section
/-! PROOFS. State, what an input field can influence (R20, R90): which ports each unit and each output reads, and that
presenting an operation moves only the ports of its own field. -/

namespace Sys2Proof.Proofs

open Sys2Proof.Machine Sys2Proof.Laws

/-! ## The ports of a field -/

/-- Two port assignments carry the same values on the ports of one field (R90). -/
def AgreeOn {w hw dw : Nat} (f : Field) (p q : Ports w hw dw) : Prop :=
  match f with
  | .bus => p.busWe = q.busWe ∧ p.busAddr = q.busAddr ∧ p.busWdata = q.busWdata
  | .mode => p.mode = q.mode
  | .rdy => p.readyIn = q.readyIn
  | .hop => p.hopEn = q.hopEn ∧ p.hopFw0 = q.hopFw0 ∧ p.hopFw1 = q.hopFw1 ∧ p.hopFw2 = q.hopFw2 ∧
      p.hopBound = q.hopBound
  | .dl => p.dlWrEn = q.dlWrEn ∧ p.dlRdEn = q.dlRdEn ∧ p.dlDin = q.dlDin
  | .rst => p.rst = q.rst

/-- An operation moves the ports of its own field only (R90), case by case of the field looked at and the operation. -/
theorem drive_agreeOn_self {w hw dw : Nat} (p : Ports w hw dw) {i : Instr} {f : Field} (hi : i.field ≠ f) :
    AgreeOn f (p.drive i) p := by
  cases f <;> cases i <;> first | exact absurd rfl hi | simp [AgreeOn, Ports.drive]

/-- Operations of one field leave every other field's ports alike. -/
theorem drive_agreeOn_drive {w hw dw : Nat} (p : Ports w hw dw) {i j : Instr} {f : Field} (hi : i.field ≠ f)
    (hj : j.field ≠ f) : AgreeOn f (p.drive i) (p.drive j) := by
  have hip := drive_agreeOn_self p hi
  have hjp := drive_agreeOn_self p hj
  cases f <;> simp_all [AgreeOn]

/-- The level ports stand after a tick as the tick carried them, all others at their defaults (R104). -/
theorem relax_congr {w hw dw : Nat} {p q : Ports w hw dw} (hmode : AgreeOn .mode p q) (hrdy : AgreeOn .rdy p q)
    (hhop : AgreeOn .hop p q) : p.relax = q.relax := by
  simp_all [AgreeOn, Ports.relax]

/-! ## What a unit reads -/

/-- The registers after a tick of either kind with `p` on the ports, group by group. -/
theorem tick_withPorts_groups {c : Cfg} (e : Engine c) (p : Ports c.w c.hopCntW c.dataW) (r : Word c.w) :
    ((e.withPorts p).tick r).ctrl = (if p.rst then .reset c.w else e.ctrl.next p) ∧
    ((e.withPorts p).tick r).run = (if p.rst then .reset c.pulseCntW else e.run.next c.pulseLen e.ctrl.cmd) ∧
    ((e.withPorts p).tick r).synth = (if p.rst then .reset c.w else
      e.synth.next c.modeSwitchReset c.sampleCntEn e.ctrl e.run p) ∧
    ((e.withPorts p).tick r).hop = (if p.rst then .reset c.w c.hopCntW else e.hop.next p) ∧
    ((e.withPorts p).tick r).dl = (if p.rst then e.dl.reset c.nb else e.dl.next c p (mux c e.dl e.draws).1) := by
  cases hrst : p.rst with
  | true => rw [tick_of_reset _ r hrst]; exact ⟨rfl, rfl, rfl, rfl, rfl⟩
  | false => rw [tick_of_run _ r hrst]; exact ⟨rfl, rfl, rfl, rfl, rfl⟩

/-- What a tick shows does not depend on the ports but for `rst` (R321). -/
theorem shown_withPorts {c : Cfg} (e : Engine c) (p : Ports c.w c.hopCntW c.dataW) :
    (e.withPorts p).shown = (if p.rst then e.resetRegs else e).withPorts p := by
  cases hrst : p.rst with
  | true => exact shown_of_reset _ hrst
  | false => exact shown_of_run _ hrst

section units
variable {c : Cfg} {e : Engine c} {p q : Ports c.w c.hopCntW c.dataW} {r r' : Word c.w}

/-- The control registers read the bus (R261 to R264). -/
theorem tick_ctrl_congr (hrst : p.rst = q.rst) (hbus : AgreeOn .bus p q) :
    ((e.withPorts p).tick r).ctrl = ((e.withPorts q).tick r').ctrl := by
  obtain ⟨hwe, haddr, hdata⟩ := hbus
  have hnext : e.ctrl.next p = e.ctrl.next q := by simp only [CtrlRegs.next, hwe, haddr, hdata]
  obtain ⟨hp, -⟩ := tick_withPorts_groups e p r
  obtain ⟨hq, -⟩ := tick_withPorts_groups e q r'
  rw [hp, hq, hrst, hnext]

/-- The run state reads the command latch, no port but `rst` (R155 to R157). -/
theorem tick_run_congr (hrst : p.rst = q.rst) :
    ((e.withPorts p).tick r).run = ((e.withPorts q).tick r').run := by
  obtain ⟨-, hp, -⟩ := tick_withPorts_groups e p r
  obtain ⟨-, hq, -⟩ := tick_withPorts_groups e q r'
  rw [hp, hq, hrst]

/-- The accumulators read the mode and `ready_in` (R173, R194, R216). -/
theorem tick_synth_congr (hrst : p.rst = q.rst) (hmode : p.mode = q.mode) (hrdy : p.readyIn = q.readyIn) :
    ((e.withPorts p).tick r).synth = ((e.withPorts q).tick r').synth := by
  have hnext : e.synth.next c.modeSwitchReset c.sampleCntEn e.ctrl e.run p =
      e.synth.next c.modeSwitchReset c.sampleCntEn e.ctrl e.run q := by simp only [SynthAcc.next, hmode, hrdy]
  obtain ⟨-, -, hp, -⟩ := tick_withPorts_groups e p r
  obtain ⟨-, -, hq, -⟩ := tick_withPorts_groups e q r'
  rw [hp, hq, hrst, hnext]

/-- The sample counter reads `ready_in`, not the mode (R216). -/
theorem tick_sampleCnt_congr (hrst : p.rst = q.rst) (hrdy : p.readyIn = q.readyIn) :
    ((e.withPorts p).tick r).synth.sampleCnt = ((e.withPorts q).tick r').synth.sampleCnt := by
  have hnext : (e.synth.next c.modeSwitchReset c.sampleCntEn e.ctrl e.run p).sampleCnt =
      (e.synth.next c.modeSwitchReset c.sampleCntEn e.ctrl e.run q).sampleCnt := by
    simp only [SynthAcc.next, hrdy]
  obtain ⟨-, -, hp, -⟩ := tick_withPorts_groups e p r
  obtain ⟨-, -, hq, -⟩ := tick_withPorts_groups e q r'
  rw [hp, hq, hrst, apply_ite SynthAcc.sampleCnt, apply_ite SynthAcc.sampleCnt, hnext]

/-- The hop NCO reads its own field (R141 to R145). -/
theorem tick_hop_congr (hrst : p.rst = q.rst) (hhop : AgreeOn .hop p q) :
    ((e.withPorts p).tick r).hop = ((e.withPorts q).tick r').hop := by
  obtain ⟨hen, hfw0, hfw1, hfw2, hbound⟩ := hhop
  have hnext : e.hop.next p = e.hop.next q := by simp only [HopNco.next, hen, hfw0, hfw1, hfw2, hbound]
  obtain ⟨-, -, -, hp, -⟩ := tick_withPorts_groups e p r
  obtain ⟨-, -, -, hq, -⟩ := tick_withPorts_groups e q r'
  rw [hp, hq, hrst, hnext]

/-- The delay line reads its own field (R227 to R231). -/
theorem tick_dl_congr (hrst : p.rst = q.rst) (hdl : AgreeOn .dl p q) :
    ((e.withPorts p).tick r).dl = ((e.withPorts q).tick r').dl := by
  obtain ⟨hwr, hrd, hdin⟩ := hdl
  have hwe : writeEn c p e.dl.wptr = writeEn c q e.dl.wptr := by funext b; simp only [writeEn, hwr, hrst]
  have hre : readEn c p e.dl.wptr = readEn c q e.dl.wptr := by funext b; simp only [readEn, hrd, hrst]
  have hnext (m : Word c.dataW) : e.dl.next c p m = e.dl.next c q m := by
    simp only [DelayLine.next, bankWrite, hwe, hre, hwr, hdin]
  obtain ⟨-, -, -, -, hp⟩ := tick_withPorts_groups e p r
  obtain ⟨-, -, -, -, hq⟩ := tick_withPorts_groups e q r'
  rw [hp, hq, hrst, hnext]

/-! ## What an output reads -/

/-- The bus read data reads the bus address (R260, R269, R322). -/
theorem rdata_congr (hrst : p.rst = q.rst) (hbus : AgreeOn .bus p q) :
    (e.withPorts p).rdata = (e.withPorts q).rdata := by
  obtain ⟨-, haddr, -⟩ := hbus
  simp only [Engine.rdata, shown_withPorts, withPorts_ctrl, withPorts_run, withPorts_ports, haddr]
  rw [hrst]

/-- Only `bus_rdata` and the selected samples read a port other than `rst` (R20, R208, R270). -/
theorem tick_outs_congr (hrst : p.rst = q.rst) :
    ((e.withPorts p).tick r).outs =
      { ((e.withPorts q).tick r').outs with
        busRdata := r, outI := ((e.withPorts p).tick r).outs.outI, outQ := ((e.withPorts p).tick r).outs.outQ } := by
  simp only [tick_outs, shown_withPorts]
  rw [hrst]
  rfl

/-- The mode selects the samples (R201), so where it agrees too only `bus_rdata` is left. -/
theorem tick_outs_congr_of_mode (hrst : p.rst = q.rst) (hmode : p.mode = q.mode) :
    ((e.withPorts p).tick r).outs = { ((e.withPorts q).tick r').outs with busRdata := r } := by
  simp only [tick_outs, shown_withPorts]
  rw [hrst]
  simp only [Engine.outputs, withPorts_ports, hmode]
  rfl

/-- With the same bus read data, `ready_in`, the hop and the delay-line ports reach no output (R214). -/
theorem tick_outs_eq (hrst : p.rst = q.rst) (hmode : p.mode = q.mode) :
    ((e.withPorts p).tick r).outs = ((e.withPorts q).tick r).outs :=
  tick_outs_congr_of_mode (r' := r) hrst hmode

end units

/-- All that an operation executed can do to the engine. -/
theorem exec_next_engine {i : Instr} {c : Cfg} {e e' : Engine c} {scr : List Line}
    (h : exec i ⟨c, e, scr⟩ = .next ⟨c, e', scr⟩) :
    ∃ r, (e.withPorts (e.ports.drive i)).rdata = some r ∧ e' = (e.withPorts (e.ports.drive i)).tick r := by
  obtain ⟨_, _, r, hr, ht⟩ := exec_next_inv i c e scr _ h
  cases ht
  exact ⟨r, hr, rfl⟩

/-- Settles O58: the two operations leave every other field's ports alike, and each unit and each output reads the
ports of its own field only. -/
theorem fieldsInfluenceOnlyTheirOwnUnit : Obligations.FieldsInfluenceOnlyTheirOwnUnit := by
  intro c e e1 e2 scr i j hi hj hij
  obtain ⟨r1, hr1, rfl⟩ := exec_next_engine hi
  obtain ⟨r2, hr2, rfl⟩ := exec_next_engine hj
  have agree (f : Field) (hf : i.field ≠ f) : AgreeOn f (e.ports.drive i) (e.ports.drive j) :=
    drive_agreeOn_drive e.ports hf (hij ▸ hf)
  have sameRdata (hrst : i.field ≠ .rst) (hbus : i.field ≠ .bus) : r1 = r2 := by
    rw [rdata_congr (agree .rst hrst) (agree .bus hbus), hr2] at hr1
    exact (Option.some.inj hr1).symm
  refine ⟨fun h => ?bus, fun h => ?mode, fun h => ?rdy, fun h => ?hop, fun h => ?dl⟩ <;>
    rw [h] at agree sameRdata
  case bus =>
    have hrst := agree .rst nofun
    exact ⟨tick_run_congr hrst, tick_synth_congr hrst (agree .mode nofun) (agree .rdy nofun),
      tick_hop_congr hrst (agree .hop nofun), tick_dl_congr hrst (agree .dl nofun),
      tick_outs_congr_of_mode hrst (agree .mode nofun),
      relax_congr (agree .mode nofun) (agree .rdy nofun) (agree .hop nofun)⟩
  case mode =>
    have hrst := agree .rst nofun
    obtain rfl := sameRdata nofun nofun
    exact ⟨tick_ctrl_congr hrst (agree .bus nofun), tick_run_congr hrst,
      tick_hop_congr hrst (agree .hop nofun), tick_dl_congr hrst (agree .dl nofun),
      tick_sampleCnt_congr hrst (agree .rdy nofun), tick_outs_congr hrst⟩
  case rdy =>
    have hrst := agree .rst nofun
    obtain rfl := sameRdata nofun nofun
    exact ⟨tick_ctrl_congr hrst (agree .bus nofun), tick_run_congr hrst,
      tick_hop_congr hrst (agree .hop nofun), tick_dl_congr hrst (agree .dl nofun),
      tick_outs_eq hrst (agree .mode nofun)⟩
  case hop =>
    have hrst := agree .rst nofun
    obtain rfl := sameRdata nofun nofun
    exact ⟨tick_ctrl_congr hrst (agree .bus nofun), tick_run_congr hrst,
      tick_synth_congr hrst (agree .mode nofun) (agree .rdy nofun),
      tick_dl_congr hrst (agree .dl nofun), tick_outs_eq hrst (agree .mode nofun)⟩
  case dl =>
    have hrst := agree .rst nofun
    obtain rfl := sameRdata nofun nofun
    exact ⟨tick_ctrl_congr hrst (agree .bus nofun), tick_run_congr hrst,
      tick_synth_congr hrst (agree .mode nofun) (agree .rdy nofun),
      tick_hop_congr hrst (agree .hop nofun), tick_outs_eq hrst (agree .mode nofun)⟩

end Sys2Proof.Proofs
end

section
/-! PROOFS. Memory, the configuration: none of the rules that change state names it (section 3 of spec/00_scope.md,
R75). -/

namespace Sys2Proof.Proofs

open Sys2Proof.Machine

/-- Settles O10: a step fetches a line and runs its operations, and neither touches the configuration. -/
theorem noStepChangesTheConfiguration : Obligations.NoStepChangesTheConfiguration :=
  fun _ _ => step_next_cfg

end Sys2Proof.Proofs
end

section
/-! PROOFS. Memory, the bus addresses: an address that is not word-aligned is refused (R63, R335). -/

namespace Sys2Proof.Proofs

open Sys2Proof.Machine Sys2Proof.Laws

/-- The four bits of the address port keep a number's remainder modulo 4 (R63). -/
theorem wordAligned_ofNat (n : Nat) : wordAligned (BitVec.ofNat 4 n) = (n % 4 == 0) := by
  have hmod : n % 2 ^ 4 % 4 = n % 4 := Nat.mod_mod_of_dvd n (by decide)
  rw [wordAligned, BitVec.toNat_ofNat, hmod]

/-- An operation that fits and leaves a misaligned address on the bus port is refused, in a reset tick too
(R335, log 12). -/
theorem exec_of_misaligned {i : Instr} {s : State} (hfits : i.operandsFit s.cfg.raw = true)
    (haddr : wordAligned (s.engine.ports.drive i).busAddr = false) :
    exec i s = .refused (.misalignedBusAddress (s.engine.ports.drive i).busAddr) := by
  obtain ⟨c, e, scr⟩ := s
  rw [exec_eq_perform, perform, if_pos hfits, present_mk]
  exact tick_of_misaligned c (e.withPorts (e.ports.drive i)) scr haddr

/-- Settles O26: `addr[0] = 1` leaves the remainder 1 or 3 modulo 4, and `addr[1:0] = 10` the remainder 2. -/
theorem misalignedBusAddressIsRefused : Obligations.MisalignedBusAddressIsRefused := by
  intro s we d hd
  have hfits : fitsPort s.cfg.w d = true := decide_eq_true hd
  refine ⟨fun hi => ?patternA, fun hi => ?patternB⟩
  case patternA =>
    have haddr : wordAligned (BitVec.ofNat 4 (2 * hi.toNat + 1)) = false := by
      rw [wordAligned_ofNat, beq_eq_false_iff_ne]
      omega
    exact exec_of_misaligned (i := .busMisalignedA we hi d) hfits haddr
  case patternB =>
    have haddr : wordAligned (BitVec.ofNat 4 (4 * hi.toNat + 2)) = false := by
      rw [wordAligned_ofNat, beq_eq_false_iff_ne]
      omega
    exact exec_of_misaligned (i := .busMisalignedB we hi d) hfits haddr

end Sys2Proof.Proofs
end

section
/-! PROOFS. Memory, the delay memory: pointers against (bank, row) pairs (R67). -/

namespace Sys2Proof.Proofs

open Sys2Proof.Machine Sys2Proof.Laws

theorem bankDepth_pos (c : Cfg) : 0 < c.bankDepth := by
  obtain ⟨-, -, -, -, -, -, -, hdepth, -⟩ := cfg_constraints c
  exact hdepth

theorem rowOf_lt (c : Cfg) (p : Nat) : rowOf c p < c.bankDepth := Nat.mod_lt p (bankDepth_pos c)

theorem pointerOf_lt {c : Cfg} {b r : Nat} (hb : b < c.nb) (hr : r < c.bankDepth) : pointerOf c b r < c.total :=
  calc b * c.bankDepth + r < b * c.bankDepth + c.bankDepth := Nat.add_lt_add_left hr _
    _ = (b + 1) * c.bankDepth := (Nat.succ_mul b c.bankDepth).symm
    _ ≤ c.nb * c.bankDepth := Nat.mul_le_mul_right _ hb

theorem bankOf_pointerOf {c : Cfg} (b : Nat) {r : Nat} (hr : r < c.bankDepth) : bankOf c (pointerOf c b r) = b := by
  rw [bankOf, pointerOf, Nat.mul_comm, Nat.mul_add_div (bankDepth_pos c), Nat.div_eq_of_lt hr, Nat.add_zero]

theorem rowOf_pointerOf {c : Cfg} (b : Nat) {r : Nat} (hr : r < c.bankDepth) : rowOf c (pointerOf c b r) = r :=
  (Nat.mul_add_mod' b c.bankDepth r).trans (Nat.mod_eq_of_lt hr)

/-- The pointer after `p`, while it is in the same bank, is that of the next row. -/
theorem succ_eq_pointerOf (c : Cfg) (p : Nat) : p + 1 = pointerOf c (bankOf c p) (rowOf c p + 1) :=
  congrArg Nat.succ (pointerOf_bankOf c p).symm

/-- Settles O53: the inverse cancels on both sides, and the next pointer is the inverse of the next row, which names a
pointer of the same bank until the bank is full. -/
theorem bankTranslationIsABijection : Obligations.BankTranslationIsABijection := by
  intro c
  refine ⟨fun p hp => ⟨rfl, rfl, bankOf_lt c p hp, rowOf_lt c p, pointerOf_bankOf c p⟩,
    fun b r hb hr => ⟨pointerOf_lt hb hr, bankOf_pointerOf b hr, rowOf_pointerOf b hr⟩, fun p hrow => ?_⟩
  rw [succ_eq_pointerOf c p]
  exact ⟨bankOf_pointerOf _ hrow, rowOf_pointerOf _ hrow⟩

end Sys2Proof.Proofs
end

section
/-! PROOFS. Encoding, the bus word: an operation of the bus field is its three numbers `we`, `addr` and `data`, and the
decoder and the encoder are inverse to each other between those and the word (R91 to R93, R106). -/

namespace Sys2Proof.Proofs

open Sys2Proof.Laws

theorem fitsPort_iff {n v : Nat} : fitsPort n v = true ↔ v < 2 ^ n := decide_eq_true_iff

/-! ## A word and its three fields -/

/-- The five bits above the data are `we` and the four bits of `addr` (R91). -/
theorem opcode_fields : ∀ q < 32, 16 * (q / 16 % 2 == 1).toNat + q % 16 = q := by decide

theorem busAddr_lt (w x : Nat) : busAddr w x < 16 := Nat.mod_lt _ (by decide)

/-- Every word of `w+5` bits is put together again from its fields, so no bit is outside them (R91). -/
theorem busWord_fields {w x : Nat} (hx : x < 2 ^ (w + 5)) :
    busWord w (busWe w x) (busAddr w x) (busData w x) = x := by
  have hhigh : x / 2 ^ w < 32 := by
    rw [Nat.div_lt_iff_lt_mul (Nat.two_pow_pos w), Nat.mul_comm]
    exact Nat.pow_add 2 w 5 ▸ hx
  have hwe : x / 2 ^ (w + 4) = x / 2 ^ w / 16 := by rw [Nat.pow_add, ← Nat.div_div_eq_div_mul]
  have hopcode : 16 * (busWe w x).toNat + busAddr w x = x / 2 ^ w := by
    rw [busWe, busAddr, hwe]
    exact opcode_fields (x / 2 ^ w) hhigh
  rw [busWord_eq, hopcode]
  exact Nat.div_add_mod' x (2 ^ w)

/-- The operation that the three fields of a bus word name (R92, R106). -/
def busOperation (we : Bool) (addr data : Nat) : Instr :=
  if addr % 2 = 1 then .busMisalignedA we (BitVec.ofNat 3 (addr / 2)) data
  else if addr % 4 = 2 then .busMisalignedB we (BitVec.ofNat 2 (addr / 4)) data
  else alignedOp we (addr / 4) data

theorem decodeBus_eq_busOperation (w x : Nat) :
    decodeBus w x = busOperation (busWe w x) (busAddr w x) (busData w x) := rfl

theorem busOperation_of_odd {addr : Nat} (we : Bool) (data : Nat) (h : addr % 2 = 1) :
    busOperation we addr data = .busMisalignedA we (BitVec.ofNat 3 (addr / 2)) data := if_pos h

theorem busOperation_of_two {addr : Nat} (we : Bool) (data : Nat) (h : addr % 4 = 2) :
    busOperation we addr data = .busMisalignedB we (BitVec.ofNat 2 (addr / 4)) data := by
  have heven : ¬ addr % 2 = 1 := by omega
  rw [busOperation, if_neg heven, if_pos h]

theorem decode_bus {p : Config} {x : Nat} (hx : x < 2 ^ (p.w + 5)) :
    decode p (.bus x) = .ok (busOperation (busWe p.w x) (busAddr p.w x) (busData p.w x)) :=
  (if_pos (fitsPort_iff.2 hx)).trans (congrArg _ (decodeBus_eq_busOperation p.w x))

theorem decode_busWord {p : Config} {addr data : Nat} (we : Bool) (haddr : addr < 16)
    (hdata : fitsPort p.w data = true) :
    decode p (.bus (busWord p.w we addr data)) = .ok (busOperation we addr data) := by
  have hd := fitsPort_iff.1 hdata
  rw [decode_bus (busWord_lt p.w we addr data haddr hd), busWe_busWord p.w we addr data haddr hd,
    busAddr_busWord p.w we addr data haddr hd, busData_busWord p.w we addr data hd]

/-! ## The control word and its names (R93, R106, log 6) -/

theorem isAliasWord_iff {d : Nat} : isAliasWord d = true ↔ d % 8 = 0 ∨ d % 8 = 1 ∨ d % 8 = 2 ∨ d % 8 = 4 := by
  simp only [isAliasWord, commandBits, Bool.or_eq_true, beq_iff_eq, or_assoc]

theorem controlWord_of_mod_zero {d : Nat} (h : d % 8 = 0) : controlWord d = .ctrlNop (d / 8) := by
  simp only [controlWord, commandBits, h]

theorem controlWord_of_mod_one {d : Nat} (h : d % 8 = 1) : controlWord d = .startCont (d / 8) := by
  simp only [controlWord, commandBits, h]

theorem controlWord_of_mod_two {d : Nat} (h : d % 8 = 2) : controlWord d = .stopCont (d / 8) := by
  simp only [controlWord, commandBits, h]

theorem controlWord_of_mod_four {d : Nat} (h : d % 8 = 4) : controlWord d = .startPulse (d / 8) := by
  simp only [controlWord, commandBits, h]

theorem controlWord_ctrlNop (u : Nat) : controlWord (8 * u) = .ctrlNop u := by
  rw [controlWord_of_mod_zero (by omega), show 8 * u / 8 = u by omega]

theorem controlWord_startCont (u : Nat) : controlWord (8 * u + 1) = .startCont u := by
  rw [controlWord_of_mod_one (by omega), show (8 * u + 1) / 8 = u by omega]

theorem controlWord_stopCont (u : Nat) : controlWord (8 * u + 2) = .stopCont u := by
  rw [controlWord_of_mod_two (by omega), show (8 * u + 2) / 8 = u by omega]

theorem controlWord_startPulse (u : Nat) : controlWord (8 * u + 4) = .startPulse u := by
  rw [controlWord_of_mod_four (by omega), show (8 * u + 4) / 8 = u by omega]

theorem controlWord_of_not_alias {d : Nat} (h : isAliasWord d = false) : controlWord d = .wrCtrl d := by
  rw [← Bool.not_eq_true, isAliasWord_iff] at h
  simp only [not_or] at h
  obtain ⟨h0, h1, h2, h4⟩ := h
  unfold controlWord commandBits
  split
  · exact absurd ‹_› h0
  · exact absurd ‹_› h1
  · exact absurd ‹_› h2
  · exact absurd ‹_› h4
  · rfl

theorem encode_controlWord (p : Config) (d : Nat) : encode p (controlWord d) = .bus (busWord p.w true 0x0 d) := by
  cases halias : isAliasWord d with
  | false => rw [controlWord_of_not_alias halias, encode]
  | true =>
    rcases isAliasWord_iff.1 halias with h | h | h | h
    · rw [controlWord_of_mod_zero h, encode, show 8 * (d / 8) = d by omega]
    · rw [controlWord_of_mod_one h, encode, show 8 * (d / 8) + 1 = d by omega]
    · rw [controlWord_of_mod_two h, encode, show 8 * (d / 8) + 2 = d by omega]
    · rw [controlWord_of_mod_four h, encode, show 8 * (d / 8) + 4 = d by omega]

/-- The upper part of a control word and its command bits fill the data field (R93). -/
theorem fitsPort_upper {w u k : Nat} (hw : 3 ≤ w) (hk : k < 8) :
    fitsPort w (8 * u + k) = fitsPort (w - 3) u := by
  have hpow : 2 ^ w = 8 * 2 ^ (w - 3) := (Nat.pow_sub_mul_pow 2 hw).symm.trans (Nat.mul_comm _ _)
  rw [Bool.eq_iff_iff, fitsPort_iff, fitsPort_iff, hpow]
  omega

theorem controlWord_wellFormed {p : Config} {d : Nat} (hw : 3 ≤ p.w) (hd : fitsPort p.w d = true) :
    (controlWord d).wellFormed p = true := by
  have hupper : fitsPort (p.w - 3) (d / 8) = true := by
    rw [← fitsPort_upper hw (Nat.mod_lt d (by decide)), Nat.div_add_mod]
    exact hd
  cases halias : isAliasWord d with
  | false =>
    rw [controlWord_of_not_alias halias]
    simp only [Instr.wellFormed, Instr.operandsFit, Instr.canonicalName, hd, halias, Bool.not_false, Bool.and_self]
  | true =>
    rcases isAliasWord_iff.1 halias with h | h | h | h
    · rw [controlWord_of_mod_zero h]; exact Bool.and_eq_true_iff.2 ⟨hupper, rfl⟩
    · rw [controlWord_of_mod_one h]; exact Bool.and_eq_true_iff.2 ⟨hupper, rfl⟩
    · rw [controlWord_of_mod_two h]; exact Bool.and_eq_true_iff.2 ⟨hupper, rfl⟩
    · rw [controlWord_of_mod_four h]; exact Bool.and_eq_true_iff.2 ⟨hupper, rfl⟩

/-! ## The operations of the bus field -/

theorem alignedOp_wellFormed {p : Config} {we : Bool} {index d : Nat} (hw : 3 ≤ p.w) (hd : fitsPort p.w d = true) :
    (alignedOp we index d).wellFormed p = true := by
  have hplain : (fitsPort p.w d && true) = true := Bool.and_eq_true_iff.2 ⟨hd, rfl⟩
  unfold alignedOp
  split
  · exact controlWord_wellFormed hw hd
  all_goals exact hplain

theorem encode_alignedOp (p : Config) (we : Bool) {index : Nat} (d : Nat) (hindex : index < 4) :
    encode p (alignedOp we index d) = .bus (busWord p.w we (4 * index) d) := by
  cases we with
  | false => interval_cases index <;> rfl
  | true =>
    interval_cases index
    · exact encode_controlWord p d
    all_goals rfl

theorem busOperation_wellFormed {p : Config} {we : Bool} {addr d : Nat} (hw : 3 ≤ p.w)
    (hd : fitsPort p.w d = true) : (busOperation we addr d).wellFormed p = true := by
  unfold busOperation
  split_ifs
  · exact Bool.and_eq_true_iff.2 ⟨hd, rfl⟩
  · exact Bool.and_eq_true_iff.2 ⟨hd, rfl⟩
  · exact alignedOp_wellFormed hw hd

theorem encode_busOperation (p : Config) (we : Bool) {addr : Nat} (d : Nat) (haddr : addr < 16) :
    encode p (busOperation we addr d) = .bus (busWord p.w we addr d) := by
  unfold busOperation
  split_ifs with hodd htwo
  · rw [encode, BitVec.toNat_ofNat, show 2 * (addr / 2 % 2 ^ 3) + 1 = addr by omega]
  · rw [encode, BitVec.toNat_ofNat, show 4 * (addr / 4 % 2 ^ 2) + 2 = addr by omega]
  · rw [encode_alignedOp p we d (by omega), show 4 * (addr / 4) = addr by omega]

/-- Settles O2: the operation that the word's fields name encodes to the word made of those fields, which is the word
itself. -/
theorem everyBusWordIsOneOperation : Obligations.EveryBusWordIsOneOperation := by
  intro p x hw hx
  have hdata : fitsPort p.w (busData p.w x) = true := fitsPort_iff.2 (Nat.mod_lt x (Nat.two_pow_pos p.w))
  refine ⟨_, decode_bus hx, busOperation_wellFormed hw hdata, ?_⟩
  rw [encode_busOperation p _ _ (busAddr_lt p.w x), busWord_fields hx]

/-! ## Decode after encode -/

theorem decode_controlWrite {p : Config} {d : Nat} (hd : fitsPort p.w d = true) :
    decode p (.bus (busWord p.w true 0x0 d)) = .ok (controlWord d) :=
  decode_busWord true (by decide) hd

theorem decode_aliasWord {p : Config} {u k : Nat} (hw : 3 ≤ p.w) (hk : k < 8) (hu : fitsPort (p.w - 3) u = true) :
    decode p (.bus (busWord p.w true 0x0 (8 * u + k))) = .ok (controlWord (8 * u + k)) :=
  decode_controlWrite ((fitsPort_upper hw hk).trans hu)

theorem decode_misalignedA {p : Config} (we : Bool) (hi : BitVec 3) {d : Nat} (hd : fitsPort p.w d = true) :
    decode p (encode p (.busMisalignedA we hi d)) = .ok (.busMisalignedA we hi d) := by
  have hhi : BitVec.ofNat 3 ((2 * hi.toNat + 1) / 2) = hi := by
    rw [show (2 * hi.toNat + 1) / 2 = hi.toNat by omega, BitVec.ofNat_toNat, BitVec.setWidth_eq]
  rw [encode, decode_busWord we (by omega) hd, busOperation_of_odd we d (by omega), hhi]

theorem decode_misalignedB {p : Config} (we : Bool) (hi : BitVec 2) {d : Nat} (hd : fitsPort p.w d = true) :
    decode p (encode p (.busMisalignedB we hi d)) = .ok (.busMisalignedB we hi d) := by
  have hhi : BitVec.ofNat 2 ((4 * hi.toNat + 2) / 4) = hi := by
    rw [show (4 * hi.toNat + 2) / 4 = hi.toNat by omega, BitVec.ofNat_toNat, BitVec.setWidth_eq]
  rw [encode, decode_busWord we (by omega) hd, busOperation_of_two we d (by omega), hhi]

/-- Settles O1: case by case of the operation. A bus operation is found again from its three fields, one of the
four aliases from its control word's command bits; the codes of the other fields are read back as they stand. -/
theorem decodeOfEncodeIsTheOperation : Obligations.DecodeOfEncodeIsTheOperation := by
  intro p i hw hwf
  obtain ⟨hfit, hname⟩ := Bool.and_eq_true_iff.1 hwf
  have hzero (n : Nat) : fitsPort n 0 = true := fitsPort_iff.2 (Nat.two_pow_pos n)
  cases i with
  | wrCtrl d =>
    have hnot : isAliasWord d = false := (Bool.not_eq_true' (isAliasWord d)).mp hname
    rw [encode, decode_controlWrite hfit, controlWord_of_not_alias hnot]
  | startCont u => exact (decode_aliasWord (k := 1) hw (by decide) hfit).trans (congrArg _ (controlWord_startCont u))
  | stopCont u => exact (decode_aliasWord (k := 2) hw (by decide) hfit).trans (congrArg _ (controlWord_stopCont u))
  | startPulse u => exact (decode_aliasWord (k := 4) hw (by decide) hfit).trans (congrArg _ (controlWord_startPulse u))
  | ctrlNop u => exact (decode_aliasWord (k := 0) hw (by decide) hfit).trans (congrArg _ (controlWord_ctrlNop u))
  | wrTwmin d | wrTwmax d | wrStep d => exact decode_busWord true (by decide) hfit
  | rdStatus d | rdTwmin d | rdTwmax d | rdStep d => exact decode_busWord false (by decide) hfit
  | busMisalignedA we hi d => exact decode_misalignedA we hi hfit
  | busMisalignedB we hi d => exact decode_misalignedB we hi hfit
  | modeIdle | modeChirp | modeDual | modeRsvd3 | stall | accept | run | reset => rfl
  | hopHold => simp only [encode, decode, hzero, Bool.and_self, if_true]
  | hopRun f0 f1 f2 b => exact if_pos hfit
  | dlIdle | dlRd => exact if_pos (hzero _)
  | dlWr d | dlWrrd d => exact if_pos hfit

end Sys2Proof.Proofs
end

section
/-! PROOFS. Encoding, the words of the opcode table at `W = 32`: the mask of an aligned bus row covers the five bits
above the data, and for the aliases the three command bits too, so a match fixes `we`, `addr` and the command bits; the
masks of the misaligned rows cover the low bits of `addr` (R91, R106). -/

namespace Sys2Proof.Proofs

open Sys2Proof.Laws

theorem decodeTableWord_bus {x : Nat} (hx : x < 2 ^ 37) :
    decodeTableWord 40 x = some (busOperation (busWe 32 x) (busAddr 32 x) (x % 2 ^ 32)) := by
  have hdecode : decode Config.paramsT (tableRaw 40 x) = _ := decode_bus (p := .paramsT) hx
  rw [decodeTableWord, hdecode]
  rfl

/-- A masked word's bits above the data are the word's, under the mask's bits there. -/
theorem opcode_of_and {x m v : Nat} (h : x &&& m = v) : x / 2 ^ 32 &&& m / 2 ^ 32 = v / 2 ^ 32 := by
  rw [← h, Nat.and_div_two_pow]

/-- The three command bits of a word are the masked word's, where the mask has them all (R93). -/
theorem commandBits_of_and {x m v : Nat} (h : x &&& m = v) (hm : m % 2 ^ 3 = 2 ^ 3 - 1) : x % 8 = v % 8 := by
  have hlow : x % 2 ^ 3 &&& m % 2 ^ 3 = v % 2 ^ 3 := by rw [← h, Nat.and_mod_two_pow]
  rw [hm, Nat.and_two_pow_sub_one_eq_mod, Nat.mod_mod] at hlow
  exact hlow

/-- A row whose mask covers `we` and `addr` fixes both, so it is the operation they name (R92). -/
theorem decodeTableWord_of_row {x m v : Nat} (hx : x < 2 ^ 37) (hm : m / 2 ^ 32 = 2 ^ 5 - 1) (h : x &&& m = v) :
    decodeTableWord 40 x = some (busOperation (busWe 32 v) (busAddr 32 v) (x % 2 ^ 32)) := by
  have hopcode : x / 2 ^ 32 = v / 2 ^ 32 := by
    have hmask := opcode_of_and h
    rw [hm, Nat.and_two_pow_sub_one_eq_mod] at hmask
    omega
  have hwe : busWe 32 x = busWe 32 v := by
    simp only [busWe, Nat.pow_add, ← Nat.div_div_eq_div_mul, hopcode]
  have haddr : busAddr 32 x = busAddr 32 v := congrArg (· % 16) hopcode
  rw [decodeTableWord_bus hx, hwe, haddr]

/-- The rows of the control word, under `WR_CTRL`'s own mask or that of its aliases (R106). -/
theorem decodeTableWord_of_controlRow {x m v : Nat} (hx : x < 2 ^ 37) (hm : m / 2 ^ 32 = 2 ^ 5 - 1)
    (hv : v / 2 ^ 32 = 16) (h : x &&& m = v) : decodeTableWord 40 x = some (controlWord (x % 2 ^ 32)) := by
  have hwe : busWe 32 v = true := by
    simp only [busWe, Nat.pow_add, ← Nat.div_div_eq_div_mul, hv]
    rfl
  have haddr : busAddr 32 v = 0 := by rw [busAddr, hv]
  rw [decodeTableWord_of_row hx hm h, hwe, haddr]
  rfl

/-- Settles O4, row by row: the match names the operation; the aliases' command bits are those of the data
field. -/
theorem busWordsReadAsTheirTableRows : Obligations.BusWordsReadAsTheirTableRows := by
  intro x hx
  have hdata : x % 2 ^ 32 % 8 = x % 8 := Nat.mod_mod_of_dvd x (by decide)
  have hodd (h : x &&& 0x0100000000 = 0x0100000000) : busAddr 32 x % 2 = 1 := by
    have hbit : x / 2 ^ 32 &&& 2 ^ 1 - 1 = 1 := opcode_of_and h
    rw [Nat.and_two_pow_sub_one_eq_mod] at hbit
    rw [busAddr]
    omega
  have htwo (h : x &&& 0x0300000000 = 0x0200000000) : busAddr 32 x % 4 = 2 := by
    have hbits : x / 2 ^ 32 &&& 2 ^ 2 - 1 = 2 := opcode_of_and h
    rw [Nat.and_two_pow_sub_one_eq_mod] at hbits
    rw [busAddr]
    omega
  refine ⟨decodeTableWord_of_row hx rfl, decodeTableWord_of_row hx rfl, decodeTableWord_of_row hx rfl,
    decodeTableWord_of_row hx rfl, decodeTableWord_of_row hx rfl, decodeTableWord_of_row hx rfl,
    decodeTableWord_of_row hx rfl, fun h => ?misalignedA, fun h => ?misalignedB, fun h => ?startCont,
    fun h => ?stopCont, fun h => ?startPulse, fun h => ?ctrlNop, fun h h0 h1 h2 h4 => ?wrCtrl⟩
  case misalignedA => exact ⟨_, _, (decodeTableWord_bus hx).trans (congrArg _ (busOperation_of_odd _ _ (hodd h)))⟩
  case misalignedB => exact ⟨_, _, (decodeTableWord_bus hx).trans (congrArg _ (busOperation_of_two _ _ (htwo h)))⟩
  case startCont =>
    rw [decodeTableWord_of_controlRow hx rfl rfl h, controlWord_of_mod_one (hdata.trans (commandBits_of_and h rfl))]
  case stopCont =>
    rw [decodeTableWord_of_controlRow hx rfl rfl h, controlWord_of_mod_two (hdata.trans (commandBits_of_and h rfl))]
  case startPulse =>
    rw [decodeTableWord_of_controlRow hx rfl rfl h, controlWord_of_mod_four (hdata.trans (commandBits_of_and h rfl))]
  case ctrlNop =>
    rw [decodeTableWord_of_controlRow hx rfl rfl h, controlWord_of_mod_zero (hdata.trans (commandBits_of_and h rfl))]
  case wrCtrl =>
    have hnot : isAliasWord (x % 2 ^ 32) = false := by
      rw [← Bool.not_eq_true, isAliasWord_iff, hdata]
      simp only [h0, h1, h2, h4, or_self, not_false_eq_true]
    rw [decodeTableWord_of_controlRow hx rfl rfl h, controlWord_of_not_alias hnot]

/-- Settles O3: each word is split into its fields, which name the operation. -/
theorem listedWordsReadAsTheirOperations : Obligations.ListedWordsReadAsTheirOperations :=
  ⟨decodeTableWord_bus (by decide), decodeTableWord_bus (by decide), decodeTableWord_bus (by decide),
    decodeTableWord_bus (by decide), decodeTableWord_bus (by decide), decodeTableWord_bus (by decide),
    decodeTableWord_bus (by decide), decodeTableWord_bus (by decide), rfl⟩

end Sys2Proof.Proofs
end

section
/-! PROOFS. Encoding, the line of a tick: a step runs the operations its line presents, and operations of different
fields move different ports, so their order on the line does not matter (R90, R332). -/

namespace Sys2Proof.Proofs

open Sys2Proof.Machine Sys2Proof.Laws

/-! ## One field, or none -/

theorem raws_only (r : Raw) : (Line.only r).raws = [r] := by
  cases r <;> rfl

theorem decodeLine_only {p : Config} {r : Raw} {i : Instr} (h : decode p r = .ok i) :
    decodeLine p (Line.only r) = .ok [i] := by
  simp only [decodeLine, raws_only, decodeAll, h]

theorem fetch_cons {s : State} {l : Line} {rest : List Line} (h : s.script = l :: rest) :
    fetch s = (l, { s with script := rest }) := by
  simp only [fetch, h]

theorem fetch_nil {s : State} (h : s.script = []) : fetch s = ({}, s) := by
  simp only [fetch, h]

/-- A step is the run of its line's operations, once they are decoded. -/
theorem step_of_decodeLine {s : State} {is : List Instr} (h : decodeLine s.cfg.raw (fetch s).1 = .ok is) :
    step s = runLine is (fetch s).2 := by
  simp only [step, runNext, h]

/-- Settles O5: the line of one field decodes to its one operation, and the line of none to no operation, which is
`RUN`. -/
theorem stepRunsTheDecodedOperation : Obligations.StepRunsTheDecodedOperation := by
  refine ⟨fun s r rest i hscript hdecode => ?field, fun s hscript => ?none⟩
  case field =>
    have hfetch := fetch_cons hscript
    rw [step_of_decodeLine (is := [i]) (by rw [hfetch]; exact decodeLine_only hdecode), hfetch, runLine]
  case none =>
    have hfetch := fetch_nil hscript
    rw [step_of_decodeLine (is := []) (by rw [hfetch]; rfl), hfetch, runLine]

/-! ## Several fields -/

section ports
variable {w hw dw : Nat} {f : Field} {p q r : Ports w hw dw}

theorem AgreeOn.symm (h : AgreeOn f p q) : AgreeOn f q p := by
  cases f <;> simp_all only [AgreeOn, and_self]

theorem AgreeOn.trans (hpq : AgreeOn f p q) (hqr : AgreeOn f q r) : AgreeOn f p r := by
  cases f <;> simp_all only [AgreeOn, and_self]

/-- The six fields are all the ports there are (R90). -/
theorem ports_eq_of_agreeOn (h : ∀ f, AgreeOn f p q) : p = q := by
  obtain ⟨hwe, haddr, hdata⟩ := h .bus
  obtain ⟨hen, hfw0, hfw1, hfw2, hbound⟩ := h .hop
  obtain ⟨hwr, hrd, hdin⟩ := h .dl
  have hmode : p.mode = q.mode := h .mode
  have hrdy : p.readyIn = q.readyIn := h .rdy
  have hrst : p.rst = q.rst := h .rst
  cases p
  cases q
  simp_all only

/-- What an operation puts on a field's ports depends on no port of another field. -/
theorem drive_congr (i : Instr) (h : AgreeOn f p q) : AgreeOn f (p.drive i) (q.drive i) := by
  by_cases hi : i.field = f
  · subst hi
    cases i <;> simp_all [AgreeOn, Ports.drive, Instr.field]
  · exact (drive_agreeOn_self p hi).trans (h.trans (drive_agreeOn_self q hi).symm)

/-- Operations of different fields can be put on the ports in either order: on each field one of the two has no
effect. -/
theorem drive_comm {i j : Instr} (p : Ports w hw dw) (hij : i.field ≠ j.field) :
    (p.drive i).drive j = (p.drive j).drive i := by
  refine ports_eq_of_agreeOn fun f => ?_
  by_cases hj : j.field = f
  · have hi : i.field ≠ f := hj ▸ hij
    exact (drive_congr j (drive_agreeOn_self p hi)).trans (drive_agreeOn_self (p.drive j) hi).symm
  · exact (drive_agreeOn_self (p.drive i) hj).trans (drive_congr i (drive_agreeOn_self p hj).symm)

end ports

theorem present_comm {i j : Instr} (s : State) (hij : i.field ≠ j.field) :
    present j (present i s) = present i (present j s) := by
  obtain ⟨c, e, scr⟩ := s
  have h := drive_comm e.ports hij
  simp only [present_mk, withPorts_ports, h]
  rfl

/-- The state with all operations of a line on its ports. -/
def presentAll (l : List Instr) (s : State) : State := l.foldl (fun s i => present i s) s

/-- A line whose operands fit runs the tick with all its operations on the ports (log 4). -/
theorem runLine_eq_tick {l : List Instr} {s : State} (hl : l ≠ [])
    (hfit : ∀ i ∈ l, i.operandsFit s.cfg.raw = true) : runLine l s = tick (presentAll l s) := by
  fun_induction runLine l s with
  | case1 s => exact absurd rfl hl
  | case2 s i => rw [exec_eq_perform, perform, if_pos (hfit i (by simp))]; rfl
  | case3 s i j rest ih => exact ih (by simp) fun k hk => hfit k (List.mem_cons_of_mem i hk)

theorem presentAll_perm {l l' : List Instr} (s : State) (h : l.Perm l') (hd : (l.map Instr.field).Nodup) :
    presentAll l s = presentAll l' s := by
  refine h.foldl_eq' (fun i hi j hj s => ?_) s
  by_cases hij : i = j
  · rw [hij]
  · exact present_comm s fun hf => hij (List.inj_on_of_nodup_map hd hi hj hf)

/-- Settles O6: a line is one tick with all its operations on the ports, where their order does not show. -/
theorem orderOfFieldsInALineDoesNotMatter : Obligations.OrderOfFieldsInALineDoesNotMatter := by
  intro s l l' hperm hnodup hfit
  by_cases hl : l = []
  · subst hl
    rw [hperm.nil_eq]
  · have hl' : l' ≠ [] := fun h => hl (h ▸ hperm).eq_nil
    have hfit' : ∀ i ∈ l', i.operandsFit s.cfg.raw = true := fun i hi => hfit i (hperm.mem_iff.2 hi)
    rw [runLine_eq_tick hl hfit, runLine_eq_tick hl' hfit', presentAll_perm s hperm hnodup]

end Sys2Proof.Proofs
end

section
/-! PROOFS. Encoding, the aliases of `WR_CTRL`: each puts the control word with its command bits on the bus, and the
tick loads those bits into the command latch (R93, R105, R106, R261). -/

namespace Sys2Proof.Proofs

open Sys2Proof.Machine Sys2Proof.Laws

/-- Two operations that put the same on the ports, and whose operands fit alike, do the same. -/
theorem exec_congr {i j : Instr} {s : State} (hfit : i.operandsFit s.cfg.raw = j.operandsFit s.cfg.raw)
    (hpresent : present i s = present j s) : exec i s = exec j s := by
  rw [exec_eq_perform, exec_eq_perform, perform, perform, hfit, hpresent]

theorem three_le_w (c : Cfg) : 3 ≤ c.w := by
  obtain ⟨-, -, -, hw, -⟩ := cfg_constraints c
  exact hw

theorem exec_startCont (s : State) (u : Nat) : exec (.startCont u) s = exec (.wrCtrl (8 * u + 1)) s :=
  exec_congr (fitsPort_upper (three_le_w s.cfg) (by decide)).symm rfl

theorem exec_stopCont (s : State) (u : Nat) : exec (.stopCont u) s = exec (.wrCtrl (8 * u + 2)) s :=
  exec_congr (fitsPort_upper (three_le_w s.cfg) (by decide)).symm rfl

theorem exec_startPulse (s : State) (u : Nat) : exec (.startPulse u) s = exec (.wrCtrl (8 * u + 4)) s :=
  exec_congr (fitsPort_upper (three_le_w s.cfg) (by decide)).symm rfl

theorem exec_ctrlNop (s : State) (u : Nat) : exec (.ctrlNop u) s = exec (.wrCtrl (8 * u)) s :=
  exec_congr (fitsPort_upper (k := 0) (three_le_w s.cfg) (by decide)).symm rfl

/-- Settles O23: each of the aliases drives the ports as `WR_CTRL` with its control word does, and fits where that
fits. -/
theorem aliasesAreTheControlWord : Obligations.AliasesAreTheControlWord :=
  fun s u _ => ⟨exec_startCont s u, exec_stopCont s u, exec_startPulse s u, exec_ctrlNop s u⟩

/-- `cmd <- data[2:0]`: the three command bits of a control word, on a bus of three bits or more (R261). -/
theorem ofNat_three_of_word {w : Nat} (d : Nat) (hw : 3 ≤ w) :
    BitVec.ofNat 3 (BitVec.ofNat w d).toNat = BitVec.ofNat 3 d := by
  apply BitVec.eq_of_toNat_eq
  simp only [BitVec.toNat_ofNat]
  exact Nat.mod_mod_of_dvd d (Nat.pow_dvd_pow 2 hw)

theorem ctrlNext_driveBus_control {w hw dw : Nat} (k : CtrlRegs w) (p : Ports w hw dw) (d : Nat) (h : 3 ≤ w) :
    k.next (p.driveBus true 0x0 d) = ⟨BitVec.ofNat 3 d, k.twMin, k.twMax, k.chirpStep⟩ := by
  rw [← ofNat_three_of_word d h]
  rfl

/-- A write of the control word loads the command latch with its three command bits and keeps the other words. -/
theorem exec_wrCtrl_ctrl {c : Cfg} {e : Engine c} (scr : List Line) {d : Nat} (hd : fitsPort c.w d = true)
    (hrst : e.ports.rst = false) :
    ∃ e' : Engine c, exec (.wrCtrl d) ⟨c, e, scr⟩ = .next ⟨c, e', scr⟩ ∧
      e'.ctrl = ⟨BitVec.ofNat 3 d, e.ctrl.twMin, e.ctrl.twMax, e.ctrl.chirpStep⟩ := by
  have hruns : e.Runs (.wrCtrl d) := ⟨hd, hrst, rfl⟩
  obtain ⟨e', hexec, hctrl, -⟩ := exec_groups scr hruns
  exact ⟨e', hexec, hctrl.trans (ctrlNext_driveBus_control e.ctrl e.ports d (three_le_w c))⟩

/-- The upper part of a control word does not reach the command latch (R93). -/
theorem ofNat_three_upper (u k : Nat) : BitVec.ofNat 3 (8 * u + k) = BitVec.ofNat 3 k := by
  apply BitVec.eq_of_toNat_eq
  simp only [BitVec.toNat_ofNat]
  exact Nat.mul_add_mod 8 u k

/-- A control word with the command bits `k` over any upper part that fits. -/
theorem exec_wrCtrl_upper {c : Cfg} {e : Engine c} (scr : List Line) {u k : Nat} (hk : k < 8) (hu : u < 2 ^ (c.w - 3))
    (hrst : e.ports.rst = false) :
    ∃ e' : Engine c, exec (.wrCtrl (8 * u + k)) ⟨c, e, scr⟩ = .next ⟨c, e', scr⟩ ∧
      e'.ctrl = ⟨BitVec.ofNat 3 k, e.ctrl.twMin, e.ctrl.twMax, e.ctrl.chirpStep⟩ := by
  rw [← ofNat_three_upper u k]
  exact exec_wrCtrl_ctrl scr ((fitsPort_upper (three_le_w c) hk).trans (fitsPort_iff.2 hu)) hrst

/-- Settles O22: each of the aliases is a control word with its command bits, whatever its upper part. -/
theorem aliasesLoadOneCommandBit : Obligations.AliasesLoadOneCommandBit := by
  intro c e scr u hu hrst
  rw [exec_startCont, exec_stopCont, exec_startPulse, exec_ctrlNop]
  exact ⟨exec_wrCtrl_upper scr (by decide) hu hrst, exec_wrCtrl_upper scr (by decide) hu hrst,
    exec_wrCtrl_upper scr (by decide) hu hrst, exec_wrCtrl_upper (k := 0) scr (by decide) hu hrst⟩

end Sys2Proof.Proofs
end

section
/-! PROOFS. NCO core, the sine table: no entry of R120 is a tie (R122), so rounding commutes with negation and each
symmetry of the sine is one of the table (R121). -/

namespace Sys2Proof.Proofs

open Sys2Proof.Machine Sys2Proof.Laws

/-! ## The angle of an entry -/

/-- The angle of entry `i`: the argument of R120's sine. -/
noncomputable def entryAngle (lutAw i : Nat) : ℝ := 2 * Real.pi * (i : ℝ) / ((2 ^ lutAw : Nat) : ℝ)

theorem sineEntry_eq_round (lutAw sampleW i : Nat) :
    sineEntry lutAw sampleW i =
      round (Real.sin (entryAngle lutAw i) * ((2 ^ (sampleW - 1) - 1 : Int) : ℝ)) := rfl

theorem entryAngle_zero (lutAw : Nat) : entryAngle lutAw 0 = 0 := by simp [entryAngle]

theorem entryAngle_add (lutAw i j : Nat) : entryAngle lutAw (i + j) = entryAngle lutAw i + entryAngle lutAw j := by
  simp only [entryAngle, Nat.cast_add]
  ring

theorem entryAngle_period_mul (lutAw q : Nat) : entryAngle lutAw (2 ^ lutAw * q) = q * (2 * Real.pi) := by
  simp only [entryAngle, Nat.cast_mul, Nat.cast_pow, Nat.cast_ofNat]
  field_simp

/-- Half a table is half a turn. -/
theorem entryAngle_half {lutAw h : Nat} (hh : 2 * h = 2 ^ lutAw) : entryAngle lutAw h = Real.pi := by
  have hfull := entryAngle_period_mul lutAw 1
  rw [mul_one, ← hh, two_mul, entryAngle_add] at hfull
  push_cast at hfull
  linarith

/-- A quarter of a table is a quarter turn. -/
theorem entryAngle_quarter {lutAw m : Nat} (hm : 4 * m = 2 ^ lutAw) : entryAngle lutAw m = Real.pi / 2 := by
  have hhalf := entryAngle_half (lutAw := lutAw) (h := m + m) (by omega)
  rw [entryAngle_add] at hhalf
  linarith

/-! ## No tie (R122) -/

/-- The sine is not one half in size: that needs a multiple of a twelfth of a turn, and 3 divides no power of two. -/
theorem sin_entryAngle_sq_ne_quarter (lutAw i : Nat) : Real.sin (entryAngle lutAw i) ^ 2 ≠ 1 / 4 := by
  intro hsin
  have hcos : Real.cos (2 * entryAngle lutAw i) = Real.cos (Real.pi / 3) := by
    rw [Real.cos_two_mul, Real.cos_sq', hsin, Real.cos_pi_div_three]
    norm_num
  have hthree (z : ℤ) : (2 ^ lutAw : ℝ) ≠ 3 * z := fun hz =>
    absurd (Int.prime_three.dvd_of_dvd_pow ⟨z, by exact_mod_cast hz⟩ : (3 : ℤ) ∣ 2) (by decide)
  have hpi := Real.pi_ne_zero
  obtain ⟨k, hk⟩ := Real.cos_eq_cos_iff.1 hcos
  simp only [entryAngle, Nat.cast_pow, Nat.cast_ofNat] at hk
  field_simp at hk
  rcases hk with hk | hk
  · exact hthree (2 * k * 2 ^ lutAw + 4 * i) (by push_cast; linarith)
  · exact hthree (2 * k * 2 ^ lutAw - 4 * i) (by push_cast; linarith)

theorem sin_entryAngle_integer_of_rational {lutAw i : Nat} (hq : ∃ q : ℚ, Real.sin (entryAngle lutAw i) = q) :
    ∃ m : ℤ, Real.sin (entryAngle lutAw i) = m := by
  have hangle : ∃ r : ℚ, entryAngle lutAw i = r * Real.pi :=
    ⟨2 * i / 2 ^ lutAw, by rw [entryAngle]; push_cast; ring⟩
  have hhalf := sin_entryAngle_sq_ne_quarter lutAw i
  rcases niven_sin hangle hq with h | h | h | h | h
  · exact ⟨-1, by rw [h]; norm_num⟩
  · exact absurd (by rw [h]; norm_num) hhalf
  · exact ⟨0, by rw [h]; norm_num⟩
  · exact absurd (by rw [h]; norm_num) hhalf
  · exact ⟨1, by rw [Set.mem_singleton_iff.1 h]; norm_num⟩

theorem sin_entryAngle_mul_ne_half (lutAw i : Nat) (a k : ℤ) :
    Real.sin (entryAngle lutAw i) * a ≠ k + 1 / 2 := by
  intro htie
  have ha : (a : ℝ) ≠ 0 := by
    intro ha
    rw [ha, mul_zero] at htie
    have : 2 * k + 1 = 0 := by exact_mod_cast (by linarith : (2 * k + 1 : ℝ) = 0)
    omega
  obtain ⟨m, hm⟩ := sin_entryAngle_integer_of_rational (lutAw := lutAw) (i := i)
    ⟨(k + 1 / 2) / a, by push_cast; rw [eq_div_iff ha, htie]⟩
  rw [hm] at htie
  have : 2 * (m * a) = 2 * k + 1 := by exact_mod_cast (by linarith : (2 * (m * a) : ℝ) = 2 * k + 1)
  omega

/-! ## Rounded symmetries -/

/-- Mathlib's `round` takes a half up, so it is odd away from the halves. -/
theorem round_neg_of_ne_half {x : ℝ} (h : ∀ k : ℤ, x ≠ k + 1 / 2) : round (-x) = -round x := by
  obtain ⟨hlo, hhi⟩ := abs_le.1 (abs_sub_round x)
  have hstrict : (round x : ℝ) - 1 / 2 < x :=
    lt_of_le_of_ne (by linarith) fun heq => h (round x - 1) (by push_cast; linarith)
  rw [round_eq_iff]
  push_cast
  exact ⟨by linarith, by linarith⟩

section entries
variable {lutAw i j : Nat} (sampleW : Nat)

theorem sineEntry_congr (h : Real.sin (entryAngle lutAw j) = Real.sin (entryAngle lutAw i)) :
    sineEntry lutAw sampleW j = sineEntry lutAw sampleW i := by
  rw [sineEntry_eq_round, sineEntry_eq_round, h]

theorem sineEntry_neg (h : Real.sin (entryAngle lutAw j) = -Real.sin (entryAngle lutAw i)) :
    sineEntry lutAw sampleW j = -sineEntry lutAw sampleW i := by
  rw [sineEntry_eq_round, sineEntry_eq_round, h, neg_mul]
  exact round_neg_of_ne_half (sin_entryAngle_mul_ne_half lutAw i _)

theorem sineEntry_mod_period (lutAw i : Nat) : sineEntry lutAw sampleW (i % 2 ^ lutAw) = sineEntry lutAw sampleW i := by
  refine (sineEntry_congr sampleW ?_).symm
  conv_lhs => rw [← Nat.mod_add_div i (2 ^ lutAw), entryAngle_add, entryAngle_period_mul]
  exact Real.sin_add_nat_mul_two_pi _ _

/-- Odd symmetry (R121 (b)). -/
theorem sineEntry_period_sub (hi : i ≤ 2 ^ lutAw) :
    sineEntry lutAw sampleW (2 ^ lutAw - i) = -sineEntry lutAw sampleW i := by
  have hfull := entryAngle_period_mul lutAw 1
  rw [mul_one, ← Nat.sub_add_cancel hi, entryAngle_add, Nat.cast_one, one_mul] at hfull
  exact sineEntry_neg sampleW (by rw [eq_sub_of_add_eq hfull, Real.sin_two_pi_sub])

/-- Mirror symmetry (R121 (c)). -/
theorem sineEntry_half_sub {h : Nat} (hh : 2 * h = 2 ^ lutAw) (hi : i ≤ h) :
    sineEntry lutAw sampleW (h - i) = sineEntry lutAw sampleW i := by
  have hhalf := entryAngle_half hh
  rw [← Nat.sub_add_cancel hi, entryAngle_add] at hhalf
  exact sineEntry_congr sampleW (by rw [eq_sub_of_add_eq hhalf, Real.sin_pi_sub])

/-- Half-turn antisymmetry (R121 (d)). -/
theorem sineEntry_add_half {h : Nat} (hh : 2 * h = 2 ^ lutAw) (i : Nat) :
    sineEntry lutAw sampleW (i + h) = -sineEntry lutAw sampleW i :=
  sineEntry_neg sampleW (by rw [entryAngle_add, entryAngle_half hh, Real.sin_add_pi])

theorem sineEntry_zero (lutAw : Nat) : sineEntry lutAw sampleW 0 = 0 := by
  rw [sineEntry_eq_round, entryAngle_zero, Real.sin_zero, zero_mul, round_zero]

theorem sineEntry_quarter {m : Nat} (hm : 4 * m = 2 ^ lutAw) :
    sineEntry lutAw sampleW m = 2 ^ (sampleW - 1) - 1 := by
  rw [sineEntry_eq_round, entryAngle_quarter hm, Real.sin_pi_div_two, one_mul, round_intCast]

end entries

/-! ## The table -/

theorem tableRead_eq_sineEntry {c : Cfg} {i : Nat} (hi : i < c.size) :
    tableRead c i = sineEntry c.lutAw c.sampleW i := c.tableOk.2 i hi

/-- Indexing modulo `SIZE` reads the rounded sine at every index (R121 (f)). -/
theorem tableRead_mod_size (c : Cfg) (i : Nat) : tableRead c (i % c.size) = sineEntry c.lutAw c.sampleW i :=
  (tableRead_eq_sineEntry (Nat.mod_lt i (Nat.two_pow_pos c.lutAw))).trans (sineEntry_mod_period c.sampleW c.lutAw i)

/-- A table has a whole number of entries in a quarter turn (R292). -/
theorem exists_quarter (c : Cfg) : ∃ m, 0 < m ∧ 4 * m = c.size := by
  obtain ⟨-, hl, -⟩ := cfg_constraints c
  exact ⟨2 ^ (c.lutAw - 2), Nat.two_pow_pos _, 
    (pow_mul_pow_sub 2 hl : 2 ^ 2 * 2 ^ (c.lutAw - 2) = 2 ^ c.lutAw)⟩

/-- Settles O13: every index is below `SIZE` or reduced modulo `SIZE`, and there each clause is a law of R120's
entries. -/
theorem tableHasTheSymmetriesOfTheSine : Obligations.TableHasTheSymmetriesOfTheSine := by
  intro c
  obtain ⟨m, hpos, hm⟩ := exists_quarter c
  have hhalf : 2 * (2 * m) = c.size := by omega
  have hquarter : c.size / 4 = m := by omega
  have htwo : c.size / 2 = 2 * m := by omega
  have hthree : 3 * c.size / 4 = m + 2 * m := by omega
  rw [hquarter, htwo, hthree]
  refine ⟨⟨?zero, ?quarter, ?half, ?threeQuarters⟩, fun i hi => ?odd, fun i hi => ?mirror, fun i hi => ?halfTurn,
    fun i hi => ?range, fun i => tableRead_mod_size c i⟩
  case zero => rw [tableRead_eq_sineEntry (by omega), sineEntry_zero]
  case quarter => rw [tableRead_eq_sineEntry (by omega), sineEntry_quarter _ hm]; rfl
  case half =>
    rw [tableRead_eq_sineEntry (by omega), ← Nat.zero_add (2 * m), sineEntry_add_half _ hhalf, sineEntry_zero,
      neg_zero]
  case threeQuarters =>
    rw [tableRead_eq_sineEntry (by omega), sineEntry_add_half _ hhalf, sineEntry_quarter _ hm]; rfl
  case odd => rw [tableRead_mod_size, tableRead_eq_sineEntry hi]; exact sineEntry_period_sub _ hi.le
  case mirror =>
    rw [tableRead_eq_sineEntry (by omega), tableRead_eq_sineEntry (by omega), sineEntry_half_sub _ hhalf hi]
  case halfTurn => rw [tableRead_mod_size, tableRead_eq_sineEntry hi, sineEntry_add_half _ hhalf]
  case range => rw [tableRead_eq_sineEntry hi]; exact abs_le.1 (abs_sineEntry_le _ _ i)

end Sys2Proof.Proofs
end

section
/-! PROOFS. NCO core, the table address: the top `LUT_AW` bits of the phase (R123), and what negating the phase does
to it (R129). -/

namespace Sys2Proof.Proofs

open Sys2Proof.Machine Sys2Proof.Laws

/-- The phases of one turn: `SIZE` entries, each for `2^(W - LUT_AW)` of them. -/
theorem two_pow_w_eq (c : Cfg) : 2 ^ c.w = c.size * 2 ^ (c.w - c.lutAw) := by
  obtain ⟨-, -, hle, -⟩ := cfg_constraints c
  exact (pow_mul_pow_sub 2 hle).symm

theorem tableAddr_lt (c : Cfg) (p : Word c.w) : tableAddr c p < c.size :=
  (Nat.div_lt_iff_lt_mul (Nat.two_pow_pos _)).2 (two_pow_w_eq c ▸ p.isLt)

theorem tableAddr_eq_shift (c : Cfg) (p : Word c.w) : tableAddr c p = (p >>> (c.w - c.lutAw)).toNat := by
  rw [tableAddr, BitVec.toNat_ushiftRight, Nat.shiftRight_eq_div_pow]

/-- The two table reads see the phase through its address only (R124). -/
theorem reads_congr {c : Cfg} {p q : Word c.w} (h : tableAddr c q = tableAddr c p) :
    sinRd c q = sinRd c p ∧ cosRd c q = cosRd c p := by
  simp only [sinRd, cosRd, h, and_self]

/-- Settles O14: the address is the shifted phase, below `SIZE`, so the cut to `LUT_AW` bits drops nothing. -/
theorem tableAddressIsTheTopBitsOfThePhase : Obligations.TableAddressIsTheTopBitsOfThePhase := by
  intro c p
  refine ⟨tableAddr_eq_shift c p, ?slice, tableAddr_lt c p, fun q hq => reads_congr ?sameTop, fun hfull => ?full⟩
  case slice =>
    rw [BitVec.extractLsb'_toNat, Nat.shiftRight_eq_div_pow]
    exact (Nat.mod_eq_of_lt (tableAddr_lt c p)).symm
  case sameTop => rw [tableAddr_eq_shift, tableAddr_eq_shift, hq]
  case full => rw [tableAddr, hfull, Nat.sub_self, pow_zero, Nat.div_one]

/-- Negation of a multiple of the block size `b`, modulo `n` blocks: the block number is negated modulo `n`. -/
theorem neg_mul_mod_div {n b : Nat} (hb : 0 < b) (a : Nat) : (n * b - a * b) % (n * b) / b = (n - a) % n := by
  rw [← Nat.sub_mul, Nat.mul_mod_mul_right, Nat.mul_div_cancel _ hb]

/-- Negation inside a block, away from its start: the block number is mirrored. -/
theorem neg_add_mod_div {n b a r : Nat} (ha : a < n) (hr : 0 < r) (hrb : r < b) :
    (n * b - (a * b + r)) % (n * b) / b = n - 1 - a := by
  obtain ⟨k, rfl⟩ : ∃ k, n = k + 1 + a := ⟨n - 1 - a, by omega⟩
  have hdiff : (k + 1 + a) * b - (a * b + r) = (b - r) + k * b := by
    rw [Nat.add_mul, Nat.add_mul, Nat.one_mul]
    omega
  have hlt : (b - r) + k * b < (k + 1 + a) * b := by
    rw [Nat.add_mul, Nat.add_mul, Nat.one_mul]
    omega
  rw [hdiff, Nat.mod_eq_of_lt hlt, Nat.add_mul_div_right _ _ (by omega), Nat.div_eq_of_lt (by omega)]
  omega

/-- Settles O15: the phase is its address times the block size plus the dropped bits. -/
theorem negatedPhaseAddress : Obligations.NegatedPhaseAddress := by
  intro c p
  have hb := Nat.two_pow_pos (c.w - c.lutAw)
  have hsplit : tableAddr c p * 2 ^ (c.w - c.lutAw) + p.toNat % 2 ^ (c.w - c.lutAw) = p.toNat := Nat.div_add_mod' ..
  have hneg : tableAddr c (-p) =
      (c.size * 2 ^ (c.w - c.lutAw) - p.toNat) % (c.size * 2 ^ (c.w - c.lutAw)) / 2 ^ (c.w - c.lutAw) := by
    rw [tableAddr, BitVec.toNat_neg, two_pow_w_eq]
  rw [hneg]
  constructor
  · intro hzero
    rw [hzero, Nat.add_zero] at hsplit
    rw [← hsplit, neg_mul_mod_div hb]
  · intro hlow
    conv_lhs => rw [← hsplit]
    exact neg_add_mod_div (tableAddr_lt c p) (Nat.pos_of_ne_zero hlow) (Nat.mod_lt _ hb)

end Sys2Proof.Proofs
end

section
/-! PROOFS. NCO core, the modular-wrap law on the two tones: a transfer in dual-tone mode adds each tone's word once
(R125, R185), and the engine stays ready for the next one. -/

namespace Sys2Proof.Proofs

open Sys2Proof.Machine Sys2Proof.Laws

/-- Running in dual-tone mode, nothing written and no command pending: what every tick of a tone run starts from. -/
structure DualRunning {c : Cfg} (e : Engine c) : Prop where
  ready : e.Ready
  busWe : e.ports.busWe = false
  mode : e.ports.mode = 2
  cont : e.run.cont = true
  cmd : e.ctrl.cmd = 0

/-- Without a command the continuous-run latch holds (R155). -/
theorem runNext_cont_of_no_command {pw : Nat} (r : RunState pw) (pulseLen : Nat) :
    (r.next pulseLen 0).cont = r.cont := rfl

/-- A transfer in dual-tone mode, whatever the mode-switch policy (R185, R194, R216). -/
theorem synthNext_of_dual_transfer {w hw dw pw : Nat} (a : SynthAcc w) (policy counter : Bool) (k : CtrlRegs w)
    {r : RunState pw} {p : Ports w hw dw} (hmode : p.mode = 2) (hrun : r.isRunning = true) (hrdy : p.readyIn = true) :
    (a.next policy counter k r p).phase1 = a.phase1 + k.twMin ∧
    (a.next policy counter k r p).phase2 = a.phase2 + k.twMax ∧
    (a.next policy counter k r p).sampleCnt = if counter then a.sampleCnt + 1 else a.sampleCnt := by
  simp [SynthAcc.next, toneNext, ncoAdv, sampleCntNext, xfer, dualSel, RunState.validOut, hmode, hrun, hrdy]

/-- One `ACCEPT` of a tone run: the tones advance by their words, the words stand, and the run goes on. -/
theorem DualRunning.exec_accept {c : Cfg} {e : Engine c} (h : DualRunning e) (scr : List Line) :
    ∃ e' : Engine c, exec .accept ⟨c, e, scr⟩ = .next ⟨c, e', scr⟩ ∧ DualRunning e' ∧
      (e'.ctrl.twMin = e.ctrl.twMin ∧ e'.ctrl.twMax = e.ctrl.twMax) ∧
      e'.synth.phase1 = e.synth.phase1 + e.ctrl.twMin ∧ e'.synth.phase2 = e.synth.phase2 + e.ctrl.twMax ∧
      e'.synth.sampleCnt = if c.sampleCntEn then e.synth.sampleCnt + 1 else e.synth.sampleCnt := by
  have hruns : e.Runs .accept := ⟨rfl, h.ready⟩
  obtain ⟨e', hexec, hctrl, hrun, hsynth, -, -, hports, -⟩ := exec_groups scr hruns
  have hwords : e'.ctrl = ⟨0, e.ctrl.twMin, e.ctrl.twMax, e.ctrl.chirpStep⟩ :=
    hctrl.trans (ctrlNext_of_busWe_false _ h.busWe)
  have hrunning : e.run.isRunning = true := by simp [RunState.isRunning, h.cont]
  refine ⟨e', hexec, { ready := ?_, busWe := ?_, mode := ?_, cont := ?_, cmd := ?_ }, ?_, ?_⟩
  · rw [Engine.Ready, hports]; exact ⟨rfl, rfl⟩
  · rw [hports, relax_busWe]
  · rw [hports, relax_mode]; exact h.mode
  · rw [hrun, h.cmd, runNext_cont_of_no_command, h.cont]
  · rw [hwords]
  · rw [hwords]; exact ⟨rfl, rfl⟩
  · rw [hsynth]; exact synthNext_of_dual_transfer _ _ _ _ h.mode hrunning rfl

/-- One more addition to a modular sum. -/
theorem toNat_add_of_modular_sum {w : Nat} {x t : Word w} {a n : Nat} (h : x.toNat = (a + n * t.toNat) % 2 ^ w) :
    (x + t).toNat = (a + (n + 1) * t.toNat) % 2 ^ w := by
  rw [BitVec.toNat_add, h, Nat.mod_add_mod, Nat.succ_mul, Nat.add_assoc]

/-- `n` transfers of a tone run; the words and the run are carried along. -/
theorem DualRunning.execTimes_accept {c : Cfg} {e : Engine c} (h : DualRunning e) (scr : List Line) (n : Nat) :
    ∃ e' : Engine c, execTimes .accept n ⟨c, e, scr⟩ = .next ⟨c, e', scr⟩ ∧ DualRunning e' ∧
      (e'.ctrl.twMin = e.ctrl.twMin ∧ e'.ctrl.twMax = e.ctrl.twMax) ∧
      e'.synth.phase1.toNat = (e.synth.phase1.toNat + n * e.ctrl.twMin.toNat) % 2 ^ c.w ∧
      e'.synth.phase2.toNat = (e.synth.phase2.toNat + n * e.ctrl.twMax.toNat) % 2 ^ c.w ∧
      (c.sampleCntEn = true → e'.synth.sampleCnt.toNat = (e.synth.sampleCnt.toNat + n) % 2 ^ c.w) := by
  induction n with
  | zero => exact ⟨e, rfl, h, ⟨rfl, rfl⟩, by simp [Nat.mod_eq_of_lt, BitVec.isLt]⟩
  | succ n ih =>
    obtain ⟨e₁, hexec₁, hdual, ⟨hmin, hmax⟩, hphase1, hphase2, hcnt⟩ := ih
    obtain ⟨e', hexec, hdual', ⟨hmin', hmax'⟩, hstep1, hstep2, hstepCnt⟩ := hdual.exec_accept scr
    refine ⟨e', (execTimes_succ hexec₁).trans hexec, hdual', ⟨hmin'.trans hmin, hmax'.trans hmax⟩, ?_, ?_,
      fun hen => ?_⟩
    · rw [hstep1, hmin, toNat_add_of_modular_sum hphase1]
    · rw [hstep2, hmax, toNat_add_of_modular_sum hphase2]
    · rw [hstepCnt, if_pos hen, BitVec.toNat_add, hcnt hen]
      exact (Nat.add_mod (e.synth.sampleCnt.toNat + n) 1 _).symm

/-- Settles O35: the hypotheses are those of a tone run. -/
theorem tonePhasesAreModularSums : Obligations.TonePhasesAreModularSums := by
  intro c e scr n hready hwe hmode hcont hcmd
  obtain ⟨e', hexec, -, -, hsums⟩ := DualRunning.execTimes_accept ⟨hready, hwe, hmode, hcont, hcmd⟩ scr n
  exact ⟨e', hexec, hsums⟩

end Sys2Proof.Proofs
end

section
/-! PROOFS. Frequency hop, one tick: `HOP_RUN` adds the selected word and counts or hops (R140 to R144), `HOP_HOLD`
holds the hop NCO (R145). -/

namespace Sys2Proof.Proofs

open Sys2Proof.Machine Sys2Proof.Laws

/-! ## The selected word (R140) -/

theorem fwSel_zero {w : Nat} (fw0 fw1 fw2 : Word w) : fwSel 0 fw0 fw1 fw2 = fw0 := rfl

theorem fwSel_one {w : Nat} (fw0 fw1 fw2 : Word w) : fwSel 1 fw0 fw1 fw2 = fw1 := rfl

theorem fwSel_two {w : Nat} (fw0 fw1 fw2 : Word w) : fwSel 2 fw0 fw1 fw2 = fw2 := rfl

theorem fwSel_three {w : Nat} (fw0 fw1 fw2 : Word w) : fwSel 3 fw0 fw1 fw2 = fw0 := rfl

/-! ## An enabled tick (R141 to R144) -/

section enabled
variable {w hw dw : Nat} {p : Ports w hw dw} {h : HopNco w hw}

theorem hopNext_hopPhase (hen : p.hopEn = true) :
    (h.next p).hopPhase = h.hopPhase + fwSel h.hopState p.hopFw0 p.hopFw1 p.hopFw2 := by
  rw [HopNco.next, if_pos hen]
  split_ifs <;> rfl

/-- Below the bound the counter has room for one more (R142). -/
theorem hopNext_below_bound (hen : p.hopEn = true) (hlt : h.dwellCnt.toNat < p.hopBound.toNat) :
    (h.next p).dwellCnt.toNat = h.dwellCnt.toNat + 1 ∧ (h.next p).hopState = h.hopState := by
  have hroom : h.dwellCnt.toNat + 1 < 2 ^ hw := Nat.lt_of_le_of_lt hlt p.hopBound.isLt
  rw [HopNco.next, if_pos hen, if_neg (Nat.not_le.2 hlt)]
  refine ⟨?_, rfl⟩
  rw [BitVec.toNat_add, BitVec.ofNat_eq_ofNat, BitVec.toNat_ofNat, Nat.add_mod_mod, Nat.mod_eq_of_lt hroom]

/-- At the bound or above it the tick hops (R143, D10). -/
theorem hopNext_at_bound (hen : p.hopEn = true) (hle : p.hopBound.toNat ≤ h.dwellCnt.toNat) :
    (h.next p).dwellCnt = 0 ∧ (h.next p).hopState.toNat = (h.hopState.toNat + 1) % 4 := by
  rw [HopNco.next, if_pos hen, if_pos hle]
  exact ⟨rfl, BitVec.toNat_add h.hopState 1⟩

end enabled

/-- An operation in a tick without reset that leaves `hop_en` at 1, the selected word spelled out per hop state. -/
theorem exec_of_hopEn {c : Cfg} {e : Engine c} {i : Instr} (scr : List Line) (hruns : e.Runs i)
    (hen : (e.ports.drive i).hopEn = true) :
    ∃ e' : Engine c, exec i ⟨c, e, scr⟩ = .next ⟨c, e', scr⟩ ∧
      (e.hop.hopState = 0 ∨ e.hop.hopState = 3 →
        e'.hop.hopPhase = e.hop.hopPhase + (e.ports.drive i).hopFw0) ∧
      (e.hop.hopState = 1 → e'.hop.hopPhase = e.hop.hopPhase + (e.ports.drive i).hopFw1) ∧
      (e.hop.hopState = 2 → e'.hop.hopPhase = e.hop.hopPhase + (e.ports.drive i).hopFw2) ∧
      (e.hop.dwellCnt.toNat < (e.ports.drive i).hopBound.toNat →
        e'.hop.dwellCnt.toNat = e.hop.dwellCnt.toNat + 1 ∧ e'.hop.hopState = e.hop.hopState) ∧
      ((e.ports.drive i).hopBound.toNat ≤ e.hop.dwellCnt.toNat →
        e'.hop.dwellCnt = 0 ∧ e'.hop.hopState.toNat = (e.hop.hopState.toNat + 1) % 4) := by
  obtain ⟨e', hexec, -, -, -, hhop, -⟩ := exec_groups scr hruns
  refine ⟨e', hexec, ?_⟩
  rw [hhop, hopNext_hopPhase hen]
  refine ⟨fun h03 => ?word0, fun h1 => ?word1, fun h2 => ?word2, hopNext_below_bound hen, hopNext_at_bound hen⟩
  case word0 =>
    rcases h03 with h0 | h3
    · rw [h0, fwSel_zero]
    · rw [h3, fwSel_three]
  case word1 => rw [h1, fwSel_one]
  case word2 => rw [h2, fwSel_two]

/-! ## `HOP_RUN` and `HOP_HOLD` -/

/-- `HOP_RUN` with operands that fit runs wherever a tick does: it moves neither `rst` nor the bus address. -/
theorem runs_hopRun {c : Cfg} {e : Engine c} {f0 f1 f2 b : Nat} (hready : e.Ready) (h0 : f0 < 2 ^ c.w)
    (h1 : f1 < 2 ^ c.w) (h2 : f2 < 2 ^ c.w) (hb : b < 2 ^ c.hopCntW) : e.Runs (.hopRun f0 f1 f2 b) := by
  refine ⟨?_, hready⟩
  simp only [Instr.operandsFit, Bool.and_eq_true, fitsPort_iff]
  exact ⟨⟨⟨h0, h1⟩, h2⟩, hb⟩

theorem driveHopRun_hopBound_toNat {w hw dw : Nat} (p : Ports w hw dw) (f0 f1 f2 : Nat) {b : Nat} (hb : b < 2 ^ hw) :
    (p.driveHopRun f0 f1 f2 b).hopBound.toNat = b := by
  rw [driveHopRun_hopBound, BitVec.toNat_ofNat, Nat.mod_eq_of_lt hb]

/-- Settles O44: `HOP_RUN` is an operation that leaves `hop_en` at 1, with its own words and its own bound on the
ports. -/
theorem hopRunCountsOrHops : Obligations.HopRunCountsOrHops := by
  refine ⟨fun c e scr f0 f1 f2 b hready h0 h1 h2 hb => ?hopRun, fun c e scr i => exec_of_hopEn scr⟩
  case hopRun =>
    have hbound : (e.ports.drive (.hopRun f0 f1 f2 b)).hopBound.toNat = b :=
      driveHopRun_hopBound_toNat e.ports f0 f1 f2 hb
    have htick := exec_of_hopEn scr (runs_hopRun hready h0 h1 h2 hb) rfl
    rw [hbound] at htick
    exact htick

/-- Settles O45: the tick's `hop_en` is 0, and the samples are read from the phase before it (R146). -/
theorem hopHoldHoldsTheHopNco : Obligations.HopHoldHoldsTheHopNco := by
  intro c e scr hready
  have hruns : e.Runs .hopHold := ⟨rfl, hready⟩
  obtain ⟨e', hexec, -, -, -, hhop, -, -, -, r, -, houts⟩ := exec_groups scr hruns
  have hhold : e'.hop = e.hop := hhop.trans (hopNext_of_hopEn_false e.hop rfl)
  refine ⟨e', hexec, hhold, ?_⟩
  rw [houts]
  exact ⟨rfl, rfl⟩

end Sys2Proof.Proofs
end

section
/-! PROOFS. Frequency hop, the word sequence: under constant words and a constant bound the counter runs through
`0, …, B` in each hop state, so the tick's number fixes both (R143, R147). -/

namespace Sys2Proof.Proofs

open Sys2Proof.Machine Sys2Proof.Laws

/-- The words in the order of the hop states, state 3 folded onto word 0 (R140), as numbers. -/
theorem fwSel_ofNat_toNat {w : Nat} (q : BitVec 2) (f0 f1 f2 : Nat) :
    (fwSel q (BitVec.ofNat w f0) (BitVec.ofNat w f1) (BitVec.ofNat w f2)).toNat =
      [f0, f1, f2, f0].getD q.toNat 0 % 2 ^ w := by
  have hq : q = 0 ∨ q = 1 ∨ q = 2 ∨ q = 3 := by revert q; decide
  rcases hq with rfl | rfl | rfl | rfl
  · exact BitVec.toNat_ofNat f0 w
  · exact BitVec.toNat_ofNat f1 w
  · exact BitVec.toNat_ofNat f2 w
  · exact BitVec.toNat_ofNat f0 w

/-- Where the hop NCO stands `n` enabled ticks into the cycle: which dwell, how far into it, and the phase from
`start` with one word of the cycle a tick. -/
structure HopCycle {w hw : Nat} (f0 f1 f2 B start n : Nat) (h : HopNco w hw) : Prop where
  state : h.hopState.toNat = n / (B + 1) % 4
  count : h.dwellCnt.toNat = n % (B + 1)
  phase : h.hopPhase.toNat =
    (start + ∑ k ∈ Finset.range n, [f0, f1, f2, f0].getD (k / (B + 1) % 4) 0) % 2 ^ w

theorem hopCycle_zero {w hw : Nat} {h : HopNco w hw} (f0 f1 f2 B : Nat) (hstate : h.hopState = 0)
    (hcount : h.dwellCnt = 0) : HopCycle f0 f1 f2 B h.hopPhase.toNat 0 h where
  state := by rw [hstate, Nat.zero_div]; rfl
  count := by rw [hcount, Nat.zero_mod]; rfl
  phase := by rw [Finset.sum_range_zero, Nat.add_zero, Nat.mod_eq_of_lt h.hopPhase.isLt]

/-- Inside a dwell of `B + 1` ticks the next one counts. -/
theorem succ_div_mod_of_below {n B : Nat} (h : n % (B + 1) < B) :
    (n + 1) / (B + 1) = n / (B + 1) ∧ (n + 1) % (B + 1) = n % (B + 1) + 1 := by
  have hsplit := Nat.mod_add_div n (B + 1)
  exact (Nat.div_mod_unique (B.add_one_pos)).2 ⟨by omega, by omega⟩

/-- After the last tick of a dwell the next dwell begins. -/
theorem succ_div_mod_of_last {n B : Nat} (h : B ≤ n % (B + 1)) :
    (n + 1) / (B + 1) = n / (B + 1) + 1 ∧ (n + 1) % (B + 1) = 0 := by
  have hsplit := Nat.mod_add_div n (B + 1)
  have hlast := Nat.mod_lt n (B.add_one_pos)
  exact (Nat.div_mod_unique (B.add_one_pos)).2 ⟨by rw [Nat.mul_succ]; omega, B.add_one_pos⟩

section cycle
variable {w hw dw : Nat} {f0 f1 f2 B start n : Nat} {h : HopNco w hw}

/-- One enabled tick of the cycle. -/
theorem HopCycle.next (hcycle : HopCycle f0 f1 f2 B start n h) (p : Ports w hw dw) (hB : B < 2 ^ hw) :
    HopCycle f0 f1 f2 B start (n + 1) (h.next (p.driveHopRun f0 f1 f2 B)) := by
  have hbound := driveHopRun_hopBound_toNat p f0 f1 f2 hB
  have hphase : (h.next (p.driveHopRun f0 f1 f2 B)).hopPhase.toNat =
      (start + ∑ k ∈ Finset.range (n + 1), [f0, f1, f2, f0].getD (k / (B + 1) % 4) 0) % 2 ^ w := by
    rw [hopNext_hopPhase (driveHopRun_hopEn p f0 f1 f2 B), driveHopRun_hopFw0, driveHopRun_hopFw1,
      driveHopRun_hopFw2, BitVec.toNat_add, fwSel_ofNat_toNat, hcycle.state, hcycle.phase, ← Nat.add_mod,
      Finset.sum_range_succ, Nat.add_assoc]
  rcases Nat.lt_or_ge (n % (B + 1)) B with hbelow | hlast
  · obtain ⟨hcnt, hst⟩ := hopNext_below_bound (h := h) (driveHopRun_hopEn p f0 f1 f2 B)
      (by rw [hbound, hcycle.count]; exact hbelow)
    obtain ⟨hdiv, hmod⟩ := succ_div_mod_of_below hbelow
    exact ⟨by rw [hst, hcycle.state, hdiv], by rw [hcnt, hcycle.count, hmod], hphase⟩
  · obtain ⟨hcnt, hst⟩ := hopNext_at_bound (h := h) (driveHopRun_hopEn p f0 f1 f2 B)
      (by rw [hbound, hcycle.count]; exact hlast)
    obtain ⟨hdiv, hmod⟩ := succ_div_mod_of_last hlast
    exact ⟨by rw [hst, hcycle.state, hdiv, Nat.mod_add_mod], by rw [hcnt, hmod]; rfl, hphase⟩

end cycle

/-- `n` ticks of `HOP_RUN` bring the cycle to its `n`-th place; each leaves the ports ready for the next. -/
theorem execTimes_hopRun {c : Cfg} {e : Engine c} {f0 f1 f2 B start : Nat} (scr : List Line) (hready : e.Ready)
    (h0 : f0 < 2 ^ c.w) (h1 : f1 < 2 ^ c.w) (h2 : f2 < 2 ^ c.w) (hB : B < 2 ^ c.hopCntW)
    (hstart : HopCycle f0 f1 f2 B start 0 e.hop) (n : Nat) :
    ∃ e' : Engine c, execTimes (.hopRun f0 f1 f2 B) n ⟨c, e, scr⟩ = .next ⟨c, e', scr⟩ ∧ e'.Ready ∧
      HopCycle f0 f1 f2 B start n e'.hop := by
  induction n with
  | zero => exact ⟨e, rfl, hready, hstart⟩
  | succ n ih =>
    obtain ⟨e₁, hexec₁, hready₁, hcycle⟩ := ih
    obtain ⟨e', hexec, -, -, -, hhop, -, hports, -⟩ := exec_groups scr (runs_hopRun hready₁ h0 h1 h2 hB)
    refine ⟨e', (execTimes_succ hexec₁).trans hexec, ?_, ?_⟩
    · rw [Engine.Ready, hports]; exact ⟨rfl, rfl⟩
    · rw [hhop]; exact hcycle.next e₁.ports hB

/-- Settles O46: hop state 0 with the count at 0 is the cycle's first place. -/
theorem hopWordsRunInACycleOfFourDwells : Obligations.HopWordsRunInACycleOfFourDwells := by
  intro c e scr f0 f1 f2 B n hready h0 h1 h2 hB hstate hcount
  obtain ⟨e', hexec, -, hcycle⟩ :=
    execTimes_hopRun scr hready h0 h1 h2 hB (hopCycle_zero f0 f1 f2 B hstate hcount) n
  exact ⟨e', hexec, hcycle.state, hcycle.count, hcycle.phase⟩

end Sys2Proof.Proofs
end

section
/-! PROOFS. Chirp, the run-state machine: one equation per rule of the two latches and the pulse timer (R155 to R158),
and with them every tick without reset. -/

namespace Sys2Proof.Proofs

open Sys2Proof.Machine Sys2Proof.Laws

section latch
variable {pw : Nat} (r : RunState pw) (pulseLen : Nat) {cmd : BitVec 3}

/-! ## The continuous-run latch (R155) -/

theorem runNext_cont_of_stop (hstop : cmd.getLsbD 1 = true) : (r.next pulseLen cmd).cont = false := by
  simp only [RunState.next, contNext, stopC, hstop, if_true]

theorem runNext_cont_of_start (hstop : cmd.getLsbD 1 = false) (hstart : cmd.getLsbD 0 = true) :
    (r.next pulseLen cmd).cont = true := by
  simp only [RunState.next, contNext, stopC, startC, hstop, hstart, Bool.false_eq_true, if_true, if_false]

theorem runNext_cont_of_hold (hstop : cmd.getLsbD 1 = false) (hstart : cmd.getLsbD 0 = false) :
    (r.next pulseLen cmd).cont = r.cont := by
  simp only [RunState.next, contNext, stopC, startC, hstop, hstart, Bool.false_eq_true, if_false]

/-! ## The pulse timer (R156, R157) -/

theorem runNext_timer_of_start (hstart : cmd.getLsbD 2 = true) :
    (r.next pulseLen cmd).pulse = true ∧ (r.next pulseLen cmd).pulseCnt = 0 := by
  simp only [RunState.next, pulseNext, startP, hstart, if_true, and_self]

theorem runNext_timer_of_inactive (hstart : cmd.getLsbD 2 = false) (hpulse : r.pulse = false) :
    (r.next pulseLen cmd).pulse = false ∧ (r.next pulseLen cmd).pulseCnt = r.pulseCnt := by
  simp only [RunState.next, pulseNext, startP, hstart, hpulse, Bool.false_eq_true, if_false, and_self]

end latch

section timer
variable {c : Cfg} (r : RunState c.pulseCntW) {cmd : BitVec 3}

theorem runNext_timer_at_end (hstart : cmd.getLsbD 2 = false) (hpulse : r.pulse = true)
    (hend : r.pulseCnt.toNat = c.pulseLen) :
    (r.next c.pulseLen cmd).pulse = false ∧ (r.next c.pulseLen cmd).pulseCnt = r.pulseCnt := by
  simp only [RunState.next, pulseNext, startP, hstart, hpulse, if_pos ((pulseCnt_eq_iff c r.pulseCnt).2 hend),
    Bool.false_eq_true, if_true, if_false, and_self]

theorem runNext_timer_before_end (hstart : cmd.getLsbD 2 = false) (hpulse : r.pulse = true)
    (hend : r.pulseCnt.toNat ≠ c.pulseLen) :
    (r.next c.pulseLen cmd).pulse = true ∧ (r.next c.pulseLen cmd).pulseCnt = r.pulseCnt + 1 := by
  simp only [RunState.next, pulseNext, startP, hstart, hpulse, if_neg (mt (pulseCnt_eq_iff c r.pulseCnt).1 hend),
    Bool.false_eq_true, if_true, if_false, and_self]

end timer

/-- Settles O27: the run state takes its own step in every tick, and each clause is one rule of the latch or the
timer. -/
theorem runStateMachineInEveryTick : Obligations.RunStateMachineInEveryTick := by
  intro c e scr i hruns
  obtain ⟨e', hexec, -, hrun, -⟩ := exec_groups scr hruns
  refine ⟨e', hexec, ?_⟩
  rw [hrun]
  exact ⟨runNext_cont_of_stop _ _, runNext_cont_of_start _ _, runNext_cont_of_hold _ _, runNext_timer_of_start _ _,
    runNext_timer_at_end _, runNext_timer_before_end _, runNext_timer_of_inactive _ _⟩

end Sys2Proof.Proofs
end

section
/-! PROOFS. Chirp, what a tick shows: the outputs are those of the registers it starts from (R158, R201, R210, R265 to
R269). -/

namespace Sys2Proof.Proofs

open Sys2Proof.Machine Sys2Proof.Laws

section samples
variable {c : Cfg} {mode : BitVec 2} (a : SynthAcc c.w)

theorem selectSamples_of_silent (hmode : mode = 0 ∨ mode = 3) :
    (selectSamples c mode a).1 = 0 ∧ (selectSamples c mode a).2 = 0 := by
  rcases hmode with rfl | rfl <;> exact ⟨rfl, rfl⟩

theorem selectSamples_of_chirp (hmode : mode = 1) :
    (selectSamples c mode a).1 = cosRd c a.phaseC ∧ (selectSamples c mode a).2 = sinRd c a.phaseC := by
  subst hmode
  exact ⟨rfl, rfl⟩

/-- The two tones' sums, clamped to the sample range (R187, R188). -/
theorem selectSamples_of_dual (hmode : mode = 2) :
    (selectSamples c mode a).1 = max (-(2 ^ (c.sampleW - 1)))
      (min (2 ^ (c.sampleW - 1) - 1) (cosRd c a.phase1 + cosRd c a.phase2)) ∧
    (selectSamples c mode a).2 = max (-(2 ^ (c.sampleW - 1)))
      (min (2 ^ (c.sampleW - 1) - 1) (sinRd c a.phase1 + sinRd c a.phase2)) := by
  subst hmode
  exact ⟨sat_eq_clamp _ _, sat_eq_clamp _ _⟩

end samples

/-- What one address reads is all that stands on `bus_rdata` in its tick. -/
theorem eq_of_busRead {w pw : Nat} {k : CtrlRegs w} {run : RunState pw} {a b : BitVec 4} {r v : Word w}
    (hread : busRead k run a = some r) (haddr : a = b) (hword : busRead k run b = some v) : r = v :=
  Option.some.inj (hread.symm.trans (haddr ▸ hword))

/-- Settles O28: each output of the engine with the operation on its ports, by the tick's address and its mode. -/
theorem everyTickShowsTheRegistersItStartsFrom : Obligations.EveryTickShowsTheRegistersItStartsFrom := by
  intro c e scr i hruns
  obtain ⟨e', hexec, -, -, -, -, -, -, -, r, hread, houts⟩ := exec_groups scr hruns
  refine ⟨e', hexec, ?_⟩
  rw [houts]
  refine ⟨rfl, rfl, fun ha => ?status, fun ha => eq_of_busRead hread ha (busRead_twMin _ _),
    fun ha => eq_of_busRead hread ha (busRead_twMax _ _), fun ha => eq_of_busRead hread ha (busRead_chirpStep _ _),
    selectSamples_of_silent _, selectSamples_of_chirp _, selectSamples_of_dual _, rfl, rfl, rfl, rfl⟩
  have hw : 0 < c.w := Nat.lt_of_lt_of_le (by decide) (three_le_w c)
  rw [outputs_busRdata, eq_of_busRead hread ha (busRead_status _ _), statusWord_toNat hw]
  rfl

end Sys2Proof.Proofs
end

section
/-! PROOFS. Chirp, the length of a pulse: the count is the pulse's age until it stops at `PULSE_LEN` (R156, R157,
R160). -/

namespace Sys2Proof.Proofs

open Sys2Proof.Machine Sys2Proof.Laws

/-- The timer `n` ticks after the pulse began. -/
structure PulseAge {c : Cfg} (n : Nat) (r : RunState c.pulseCntW) : Prop where
  active : n ≤ c.pulseLen → r.pulse = true ∧ r.pulseCnt.toNat = n
  expired : c.pulseLen < n → r.pulse = false ∧ r.pulseCnt.toNat = c.pulseLen

theorem pulseAge_zero_of_start {c : Cfg} (r : RunState c.pulseCntW) {cmd : BitVec 3}
    (hstart : cmd.getLsbD 2 = true) : PulseAge 0 (r.next c.pulseLen cmd) := by
  obtain ⟨hpulse, hcnt⟩ := runNext_timer_of_start r c.pulseLen hstart
  exact ⟨fun _ => ⟨hpulse, by rw [hcnt]; rfl⟩, fun h => absurd h (Nat.not_lt_zero _)⟩

/-- Below `PULSE_LEN` the counter has room for one more (R10, R293). -/
theorem toNat_succ_of_lt_pulseLen {c : Cfg} {cnt : Word c.pulseCntW} (h : cnt.toNat < c.pulseLen) :
    (cnt + 1).toNat = cnt.toNat + 1 := by
  obtain ⟨-, -, -, -, -, hfits, -⟩ := cfg_constraints c
  rw [BitVec.toNat_add, BitVec.ofNat_eq_ofNat, BitVec.toNat_ofNat, Nat.add_mod_mod,
    Nat.mod_eq_of_lt (Nat.lt_of_le_of_lt h hfits)]

/-- A tick without a new pulse command: the timer counts, stops, or stands expired. -/
theorem PulseAge.next {c : Cfg} {n : Nat} {r : RunState c.pulseCntW} (h : PulseAge n r) {cmd : BitVec 3}
    (hstart : cmd.getLsbD 2 = false) : PulseAge (n + 1) (r.next c.pulseLen cmd) := by
  rcases Nat.lt_trichotomy n c.pulseLen with hlt | heq | hgt
  · obtain ⟨hpulse, hcnt⟩ := h.active hlt.le
    obtain ⟨hpulse', hcnt'⟩ := runNext_timer_before_end r hstart hpulse (hcnt ▸ hlt.ne)
    refine ⟨fun _ => ⟨hpulse', ?_⟩, fun hgt => absurd hgt (Nat.not_lt.2 hlt)⟩
    rw [hcnt', toNat_succ_of_lt_pulseLen (hcnt ▸ hlt), hcnt]
  · obtain ⟨hpulse, hcnt⟩ := h.active heq.le
    obtain ⟨hpulse', hcnt'⟩ := runNext_timer_at_end r hstart hpulse (hcnt.trans heq)
    exact ⟨fun hle => absurd (heq ▸ hle) (Nat.not_succ_le_self _),
      fun _ => ⟨hpulse', by rw [hcnt', hcnt, heq]⟩⟩
  · obtain ⟨hpulse, hcnt⟩ := h.expired hgt
    obtain ⟨hpulse', hcnt'⟩ := runNext_timer_of_inactive r c.pulseLen hstart hpulse
    exact ⟨fun hle => absurd (Nat.le_of_succ_le hle) (Nat.not_le.2 hgt), fun _ => ⟨hpulse', by rw [hcnt', hcnt]⟩⟩

/-- An operation that neither resets, nor is refused, nor starts a pulse. -/
def LeavesPulse (c : Cfg) (i : Instr) : Prop :=
  i.operandsFit c.raw = true ∧ i ≠ .reset ∧ misaligned i = false ∧ startsPulse i = false

/-- A control word whose bit 2 is clear, over any upper part, loads no pulse command (R93, R261). -/
theorem ctrlNext_control_start_p {w hw dw : Nat} (k : CtrlRegs w) (p : Ports w hw dw) {d : Nat} (h : 3 ≤ w)
    (hd : d.testBit 2 = false) : (k.next (p.driveBus true 0x0 d)).cmd.getLsbD 2 = false := by
  rw [ctrlNext_driveBus_control k p d h, BitVec.getLsbD_ofNat, hd, Bool.and_false]

/-- Without a write of the control word the latch clears (R261). -/
theorem ctrlNext_no_start_p {w hw dw : Nat} (k : CtrlRegs w) {p : Ports w hw dw}
    (h : (p.busWe && p.busAddr == 0x0) = false) : (k.next p).cmd.getLsbD 2 = false := by
  rw [CtrlRegs.next, h, if_neg Bool.false_ne_true]
  exact BitVec.getLsbD_zero

theorem testBit_two_upper (u : Nat) {b : Nat} (hb : b < 4) : (8 * u + b).testBit 2 = false := by
  rw [Nat.testBit_eq_decide_div_mod_eq, decide_eq_false_iff_not]
  omega

/-- The command latch holds no pulse command after a tick whose operation brings none (R156, R261). -/
theorem ctrlNext_start_p_of_leavesPulse {c : Cfg} {i : Instr} (hi : LeavesPulse c i) (k : CtrlRegs c.w)
    {p : Ports c.w c.hopCntW c.dataW} (hwe : p.busWe = false) :
    (k.next (p.drive i)).cmd.getLsbD 2 = false := by
  obtain ⟨-, -, haligned, hstart⟩ := hi
  by_cases hfield : i.field = .bus
  · cases i with
    | wrCtrl d => exact ctrlNext_control_start_p k p (three_le_w c) hstart
    | startCont u => exact ctrlNext_control_start_p k p (three_le_w c) (testBit_two_upper u (by decide))
    | stopCont u => exact ctrlNext_control_start_p k p (three_le_w c) (testBit_two_upper u (by decide))
    | ctrlNop u => exact ctrlNext_control_start_p k p (three_le_w c) (testBit_two_upper u (b := 0) (by decide))
    | startPulse u => cases hstart
    | busMisalignedA we hi d => cases haligned
    | busMisalignedB we hi d => cases haligned
    | wrTwmin d | wrTwmax d | wrStep d | rdStatus d | rdTwmin d | rdTwmax d | rdStep d =>
      exact ctrlNext_no_start_p k rfl
    | _ => cases hfield
  · obtain ⟨hbus, -⟩ := drive_agreeOn_self p hfield
    exact ctrlNext_no_start_p k (by rw [hbus, hwe, Bool.false_and])

/-- The engine between the ticks of a pulse `n` ticks old. -/
structure PulseUnderway {c : Cfg} (n : Nat) (e : Engine c) : Prop where
  age : PulseAge n e.run
  rest : AtRest e.ports
  noStart : e.ctrl.cmd.getLsbD 2 = false

/-- One operation of a pulse: whatever the age the timer reaches, the engine is ready for the next. -/
theorem exec_pulseUnderway {c : Cfg} {e : Engine c} {i : Instr} {n : Nat} (scr : List Line) (hruns : e.Runs i)
    (hi : LeavesPulse c i) (hwe : e.ports.busWe = false) (hage : PulseAge n (e.run.next c.pulseLen e.ctrl.cmd)) :
    ∃ e' : Engine c, exec i ⟨c, e, scr⟩ = .next ⟨c, e', scr⟩ ∧ PulseUnderway n e' := by
  obtain ⟨e', hexec, hctrl, hrun, -, -, -, hports, -⟩ := exec_groups scr hruns
  refine ⟨e', hexec, { age := hrun ▸ hage, rest := hports ▸ atRest_relax _, noStart := ?_ }⟩
  rw [hctrl]
  exact ctrlNext_start_p_of_leavesPulse hi _ hwe

theorem PulseUnderway.exec_next {c : Cfg} {e : Engine c} {i : Instr} {n : Nat} (h : PulseUnderway n e)
    (scr : List Line) (hi : LeavesPulse c i) :
    ∃ e' : Engine c, exec i ⟨c, e, scr⟩ = .next ⟨c, e', scr⟩ ∧ PulseUnderway (n + 1) e' := by
  have ⟨hfit, hreset, haligned, _⟩ := hi
  obtain ⟨hwe, haddr⟩ := h.rest.bus_idle
  exact exec_pulseUnderway scr (runs_of_atRest hfit h.rest.rst_low haddr hreset haligned) hi hwe (h.age.next h.noStart)

/-- The tick that acts on the command, and `n` more. -/
theorem execSeq_pulseUnderway {c : Cfg} {e : Engine c} {f : Nat → Instr} (scr : List Line) (hruns : e.Runs (f 0))
    (hwe : e.ports.busWe = false) (hstart : e.ctrl.cmd.getLsbD 2 = true) (n : Nat)
    (hf : ∀ k, k ≤ n → LeavesPulse c (f k)) :
    ∃ e' : Engine c, execSeq f (n + 1) ⟨c, e, scr⟩ = .next ⟨c, e', scr⟩ ∧ PulseUnderway n e' := by
  induction n with
  | zero => exact exec_pulseUnderway scr hruns (hf 0 le_rfl) hwe (pulseAge_zero_of_start _ hstart)
  | succ n ih =>
    obtain ⟨e₁, hexec₁, hunder⟩ := ih fun k hk => hf k (Nat.le_succ_of_le hk)
    obtain ⟨e', hexec, hunder'⟩ := hunder.exec_next scr (hf (n + 1) le_rfl)
    exact ⟨e', (execSeq_succ hexec₁).trans hexec, hunder'⟩

/-- Settles O29: after `n + 1` ticks the timer is that of a pulse `n` ticks old. -/
theorem pulseLastsPulseLenPlusOneTicks : Obligations.PulseLastsPulseLenPlusOneTicks := by
  intro c e scr f n hruns hwe hstart hf
  obtain ⟨e', hexec, hunder⟩ := execSeq_pulseUnderway scr hruns hwe hstart n hf
  exact ⟨e', hexec, hunder.age.active, hunder.age.expired⟩

end Sys2Proof.Proofs
end

section
/-! PROOFS. Chirp, the accumulators in one tick: one equation per link of the priority chain (R163 to R167, R173), and
the two command scenarios that turn on idle forcing (R161, R172). -/

namespace Sys2Proof.Proofs

open Sys2Proof.Machine Sys2Proof.Laws

/-! ## The priority chain -/

section chain
variable {w hw dw pw : Nat} (a : SynthAcc w) {policy : Bool} (counter : Bool) (k : CtrlRegs w) {r : RunState pw}
  {p : Ports w hw dw}

theorem chirpSel_of_ne {mode : BitVec 2} (h : mode ≠ 1) : chirpSel mode = false := beq_eq_false_iff_ne.2 h

/-- Idle forcing, in any mode and under either policy (R163). -/
theorem synthNext_chirp_of_idle (hidle : r.isRunning = false) :
    (a.next policy counter k r p).freqAcc = k.twMin ∧ (a.next policy counter k r p).phaseC = 0 := by
  simp [SynthAcc.next, chirpNext, hidle]

/-- The mode-switch policy outside chirp mode (R167). -/
theorem synthNext_chirp_of_policy (hrun : r.isRunning = true) (hpolicy : policy = true) (hmode : p.mode ≠ 1) :
    (a.next policy counter k r p).freqAcc = k.twMin ∧ (a.next policy counter k r p).phaseC = 0 := by
  simp [SynthAcc.next, chirpNext, hrun, hpolicy, chirpSel_of_ne hmode]

/-- A transfer in chirp mode: both parts read the pre-step `freq_acc` (R164, R165). -/
theorem synthNext_chirp_of_transfer (policy : Bool) (hrun : r.isRunning = true) (hmode : p.mode = 1)
    (hrdy : p.readyIn = true) :
    (a.next policy counter k r p).freqAcc = sweepNext k a.freqAcc ∧
      (a.next policy counter k r p).phaseC = a.phaseC + a.freqAcc := by
  simp [SynthAcc.next, chirpNext, ncoAdv, xfer, chirpSel, RunState.validOut, hrun, hmode, hrdy]

/-- Hold: running, the policy does not apply, and no transfer in chirp mode (R166). -/
theorem synthNext_chirp_of_hold (hrun : r.isRunning = true) (hpolicy : ¬ (policy = true ∧ p.mode ≠ 1))
    (hxfer : ¬ (p.mode = 1 ∧ p.readyIn = true)) :
    (a.next policy counter k r p).freqAcc = a.freqAcc ∧ (a.next policy counter k r p).phaseC = a.phaseC := by
  by_cases hmode : p.mode = 1
  · have hrdy : p.readyIn = false := Bool.eq_false_iff.2 fun h => hxfer ⟨hmode, h⟩
    simp [SynthAcc.next, chirpNext, xfer, chirpSel, RunState.validOut, hrun, hmode, hrdy]
  · have hoff : policy = false := Bool.eq_false_iff.2 fun h => hpolicy ⟨h, hmode⟩
    simp [SynthAcc.next, chirpNext, hrun, hoff, chirpSel_of_ne hmode]

theorem sweepNext_at_bound {x : Word w} (h : k.twMax.toInt ≤ x.toInt) : sweepNext k x = k.twMin := by
  rw [sweepNext, geSigned, if_pos (decide_eq_true h)]

theorem sweepNext_below_bound {x : Word w} (h : x.toInt < k.twMax.toInt) : sweepNext k x = x + k.chirpStep := by
  rw [sweepNext, geSigned, if_neg (mt of_decide_eq_true (Int.not_le.2 h))]

end chain

/-- Settles O32: the accumulators take their own step in every tick, and each clause is one link of the chain. -/
theorem chirpAccumulatorsFollowThePriorityChain : Obligations.ChirpAccumulatorsFollowThePriorityChain := by
  intro c e scr i hruns
  obtain ⟨e', hexec, -, -, hsynth, -⟩ := exec_groups scr hruns
  refine ⟨e', hexec, ?_⟩
  rw [hsynth]
  refine ⟨synthNext_chirp_of_idle _ _ _, synthNext_chirp_of_policy _ _ _, fun hrun hmode hrdy => ?transfer,
    synthNext_chirp_of_hold _ _ _⟩
  obtain ⟨hfreq, hphase⟩ :=
    synthNext_chirp_of_transfer e.synth c.sampleCntEn e.ctrl c.modeSwitchReset hrun hmode hrdy
  rw [hfreq]
  exact ⟨hphase, sweepNext_at_bound _, sweepNext_below_bound _⟩

/-! ## Commands and idle forcing -/

/-- One operation of a command scenario: the run state's step, the run flag of the tick before it, and the ports at
rest after it. -/
theorem exec_shows_isRunning {c : Cfg} {e : Engine c} {i : Instr} (scr : List Line) (hruns : e.Runs i) :
    ∃ e' : Engine c, exec i ⟨c, e, scr⟩ = .next ⟨c, e', scr⟩ ∧
      e'.ctrl = e.ctrl.next (e.ports.drive i) ∧ e'.run = e.run.next c.pulseLen e.ctrl.cmd ∧ AtRest e'.ports ∧
      (e'.outs.isRunning = e.run.isRunning ∧ e'.outs.validOut = e.run.isRunning) ∧
      (e.run.isRunning = false → e'.synth.freqAcc = e.ctrl.twMin ∧ e'.synth.phaseC = 0) := by
  obtain ⟨e', hexec, hctrl, hrun, hsynth, -, -, hports, -, r, -, houts⟩ := exec_groups scr hruns
  refine ⟨e', hexec, hctrl, hrun, hports ▸ atRest_relax _, ?_, fun hidle => ?_⟩
  · rw [houts]; exact ⟨rfl, rfl⟩
  · rw [hsynth]; exact synthNext_chirp_of_idle _ _ _ hidle

/-- `RUN` runs from ports at rest (R104). -/
theorem runs_run_of_atRest {c : Cfg} {e : Engine c} (hrest : AtRest e.ports) : e.Runs .run :=
  have ⟨_, haddr⟩ := hrest.bus_idle
  runs_of_atRest rfl hrest.rst_low haddr (by decide) rfl

theorem isRunning_of_latches_clear {pw : Nat} {r : RunState pw} (hcont : r.cont = false) (hpulse : r.pulse = false) :
    r.isRunning = false := by
  rw [RunState.isRunning, hcont, hpulse, Bool.or_false]

theorem isRunning_of_cont {pw : Nat} {r : RunState pw} (hcont : r.cont = true) : r.isRunning = true := by
  rw [RunState.isRunning, hcont, Bool.true_or]

/-- `START_CONT` puts 001 into the command latch and keeps the three words (R93, R261). -/
theorem ctrlNext_startCont {c : Cfg} (k : CtrlRegs c.w) (p : Ports c.w c.hopCntW c.dataW) (u : Nat) :
    k.next (p.drive (.startCont u)) = ⟨0b001, k.twMin, k.twMax, k.chirpStep⟩ := by
  rw [Ports.drive, ctrlNext_driveBus_control k p _ (three_le_w c), ofNat_three_upper]
  rfl

/-- Settles O30: the write loads the latch, the next tick acts on it while the core is idle still, and the tick after
that runs. -/
theorem startCommandTakesEffectTwoTicksAfterTheWrite :
    Obligations.StartCommandTakesEffectTwoTicksAfterTheWrite := by
  intro c e scr u hu hrst hcont hpulse hcmd
  have hruns : e.Runs (.startCont u) := ⟨fitsPort_iff.2 hu, hrst, rfl⟩
  obtain ⟨e1, hexec1, hctrl1, hrun1, hrest1, -⟩ := exec_shows_isRunning scr hruns
  obtain ⟨e2, hexec2, hctrl2, hrun2, hrest2, ⟨-, hvalid2⟩, hforce2⟩ :=
    exec_shows_isRunning scr (runs_run_of_atRest hrest1)
  obtain ⟨e3, hexec3, -, -, -, ⟨-, hvalid3⟩, -⟩ :=
    exec_shows_isRunning scr (runs_run_of_atRest hrest2)
  rw [ctrlNext_startCont] at hctrl1
  rw [ctrlNext_of_busWe_false (p := e1.ports.drive .run) _ hrest1.bus_idle.1] at hctrl2
  have hidle1 : e1.run.isRunning = false := by
    rw [hrun1, hcmd]
    exact isRunning_of_latches_clear ((runNext_cont_of_no_command _ _).trans hcont)
      (runNext_timer_of_inactive _ _ BitVec.getLsbD_zero hpulse).1
  have hcont2 : e2.run.cont = true := by
    rw [hrun2, hctrl1]
    exact runNext_cont_of_start _ _ (cmd := 0b001) (by decide) (by decide)
  obtain ⟨hfreq2, hphase2⟩ := hforce2 hidle1
  exact ⟨e1, e2, e3, hexec1, hexec2, hexec3, by rw [hctrl1], hidle1, by rw [hctrl2], hcont2, hvalid2.trans hidle1,
    by rw [hfreq2, hctrl1], hphase2, hvalid3.trans (isRunning_of_cont hcont2)⟩

/-- Settles O31: the latch falls in the tick that acts on the command, and the next tick is idle. -/
theorem stopCommandForcesTheChirpAccumulators : Obligations.StopCommandForcesTheChirpAccumulators := by
  intro c e scr haligned hwe hpulse hcont hcmd
  have hruns : e.Runs .run := ⟨rfl, rfl, haligned⟩
  obtain ⟨e1, hexec1, hctrl1, hrun1, hrest1, ⟨-, hvalid1⟩, -⟩ := exec_shows_isRunning scr hruns
  obtain ⟨e2, hexec2, -, -, -, ⟨hshown2, hvalid2⟩, hforce2⟩ :=
    exec_shows_isRunning scr (runs_run_of_atRest hrest1)
  rw [ctrlNext_of_busWe_false (p := e.ports.drive .run) _ hwe] at hctrl1
  have hidle1 : e1.run.isRunning = false := by
    rw [hrun1, hcmd]
    exact isRunning_of_latches_clear (runNext_cont_of_stop _ _ (by decide))
      (runNext_timer_of_inactive _ _ (by decide) hpulse).1
  obtain ⟨hfreq2, hphase2⟩ := hforce2 hidle1
  exact ⟨e1, e2, hexec1, hexec2, hvalid1.trans (isRunning_of_cont hcont), hidle1, hshown2.trans hidle1,
    hvalid2.trans hidle1, by rw [hfreq2, hctrl1], hphase2⟩

end Sys2Proof.Proofs
end

section
/-! PROOFS. Chirp, the sweep sequence: transfers walk the values `f_0, …, f_K` and start again, since `f_K` is the first
at or above the bound and nothing overflows on the way (R168). -/

namespace Sys2Proof.Proofs

open Sys2Proof.Machine Sys2Proof.Laws

/-- The value of a sweep of `K + 1` steps after `n` transfers, as an integer (R168). -/
def sweepValue {w : Nat} (k : CtrlRegs w) (K n : Nat) : Int :=
  k.twMin.toInt + ((n % (K + 1) : Nat) : Int) * k.chirpStep.toInt

/-- `K` is the first index at or above the bound, and the sweep stays in the signed range up to it. -/
structure SweepBounds {w : Nat} (k : CtrlRegs w) (K : Nat) : Prop where
  step_pos : 0 < k.chirpStep.toInt
  below : ∀ j : Nat, j < K → k.twMin.toInt + j * k.chirpStep.toInt < k.twMax.toInt
  reached : k.twMax.toInt ≤ k.twMin.toInt + K * k.chirpStep.toInt
  room : k.twMin.toInt + K * k.chirpStep.toInt < 2 ^ (w - 1)

section sweep
variable {w : Nat} {k : CtrlRegs w} {K n : Nat}

theorem sweepValue_zero (k : CtrlRegs w) (K : Nat) : sweepValue k K 0 = k.twMin.toInt := by simp [sweepValue]

theorem sweepValue_succ_of_below (h : n % (K + 1) < K) :
    sweepValue k K (n + 1) = sweepValue k K n + k.chirpStep.toInt := by
  rw [sweepValue, sweepValue, (succ_div_mod_of_below h).2]
  push_cast
  ring

theorem sweepValue_succ_of_last (h : K ≤ n % (K + 1)) : sweepValue k K (n + 1) = k.twMin.toInt := by
  rw [sweepValue, (succ_div_mod_of_last h).2]
  simp

/-- No value of the sweep leaves the signed range. -/
theorem SweepBounds.sweepValue_mem (h : SweepBounds k K) (n : Nat) :
    -2 ^ (w - 1) ≤ sweepValue k K n ∧ sweepValue k K n < 2 ^ (w - 1) := by
  have hle : n % (K + 1) ≤ K := Nat.le_of_lt_succ (Nat.mod_lt n K.add_one_pos)
  constructor
  · calc -2 ^ (w - 1) ≤ k.twMin.toInt := BitVec.le_toInt _
      _ ≤ sweepValue k K n := le_add_of_nonneg_right (mul_nonneg (Int.natCast_nonneg _) h.step_pos.le)
  · calc sweepValue k K n ≤ k.twMin.toInt + K * k.chirpStep.toInt :=
          add_le_add_right (mul_le_mul_of_nonneg_right (Int.ofNat_le.2 hle) h.step_pos.le) _
      _ < 2 ^ (w - 1) := h.room

/-- One transfer moves `freq_acc` to the next value of the sweep (R165). -/
theorem SweepBounds.sweepNext_toInt (h : SweepBounds k K) {x : Word w} (hx : x.toInt = sweepValue k K n) :
    (sweepNext k x).toInt = sweepValue k K (n + 1) := by
  rcases Nat.lt_or_ge (n % (K + 1)) K with hbelow | hlast
  · have hsum : x.toInt + k.chirpStep.toInt = sweepValue k K (n + 1) := by
      rw [hx, sweepValue_succ_of_below hbelow]
    obtain ⟨hlo, hhi⟩ := h.sweepValue_mem (n + 1)
    have hfits : ¬ x.saddOverflow k.chirpStep = true := by
      simp only [BitVec.saddOverflow, hsum, Bool.or_eq_true, decide_eq_true_eq]
      omega
    rw [sweepNext_below_bound k (by rw [hx]; exact h.below _ hbelow), BitVec.toInt_add_of_not_saddOverflow hfits, hsum]
  · have heq : n % (K + 1) = K := Nat.le_antisymm (Nat.le_of_lt_succ (Nat.mod_lt n K.add_one_pos)) hlast
    rw [sweepValue_succ_of_last hlast, sweepNext_at_bound k (by rw [hx, sweepValue, heq]; exact h.reached)]

end sweep

/-- Running in chirp mode, nothing written and no command pending: what every tick of a sweep starts from. -/
structure ChirpRunning {c : Cfg} (e : Engine c) : Prop where
  ready : e.Ready
  busWe : e.ports.busWe = false
  mode : e.ports.mode = 1
  cont : e.run.cont = true
  cmd : e.ctrl.cmd = 0

/-- With no write and no command pending the control registers stand. -/
theorem ctrlNext_of_quiet {w hw dw : Nat} {p : Ports w hw dw} {k : CtrlRegs w} (hwe : p.busWe = false)
    (hcmd : k.cmd = 0) : k.next p = k := by
  rw [ctrlNext_of_busWe_false k hwe, ← hcmd]

/-- One `ACCEPT` of a sweep: both accumulators take a transfer's step, and the sweep goes on. -/
theorem ChirpRunning.exec_accept {c : Cfg} {e : Engine c} (h : ChirpRunning e) (scr : List Line) :
    ∃ e' : Engine c, exec .accept ⟨c, e, scr⟩ = .next ⟨c, e', scr⟩ ∧ ChirpRunning e' ∧ e'.ctrl = e.ctrl ∧
      e'.synth.freqAcc = sweepNext e.ctrl e.synth.freqAcc ∧ e'.synth.phaseC = e.synth.phaseC + e.synth.freqAcc := by
  have hruns : e.Runs .accept := ⟨rfl, h.ready⟩
  obtain ⟨e', hexec, hctrl, hrun, hsynth, -, -, hports, -⟩ := exec_groups scr hruns
  have hstand : e'.ctrl = e.ctrl := hctrl.trans (ctrlNext_of_quiet (p := e.ports.drive .accept) h.busWe h.cmd)
  refine ⟨e', hexec, { ready := ?_, busWe := ?_, mode := ?_, cont := ?_, cmd := ?_ }, hstand, ?_⟩
  · rw [Engine.Ready, hports]; exact ⟨rfl, rfl⟩
  · rw [hports, relax_busWe]
  · rw [hports, relax_mode]; exact h.mode
  · rw [hrun, h.cmd, runNext_cont_of_no_command, h.cont]
  · rw [hstand, h.cmd]
  · rw [hsynth]
    exact synthNext_chirp_of_transfer _ _ _ _ (isRunning_of_cont h.cont) (p := e.ports.drive .accept) h.mode rfl

/-- `n` transfers of a sweep that starts at `tw_min` with phase 0; the words and the run are carried along. -/
theorem ChirpRunning.execTimes_accept {c : Cfg} {e : Engine c} (h : ChirpRunning e) (scr : List Line) {K : Nat}
    (hbounds : SweepBounds e.ctrl K) (hfreq : e.synth.freqAcc = e.ctrl.twMin) (hphase : e.synth.phaseC = 0)
    (n : Nat) :
    ∃ e' : Engine c, execTimes .accept n ⟨c, e, scr⟩ = .next ⟨c, e', scr⟩ ∧ ChirpRunning e' ∧ e'.ctrl = e.ctrl ∧
      e'.synth.freqAcc.toInt = sweepValue e.ctrl K n ∧
      e'.synth.phaseC = BitVec.ofInt c.w (∑ k ∈ Finset.range n, sweepValue e.ctrl K k) := by
  induction n with
  | zero => exact ⟨e, rfl, h, rfl, by rw [hfreq, sweepValue_zero], by rw [hphase, Finset.sum_range_zero]; rfl⟩
  | succ n ih =>
    obtain ⟨e₁, hexec₁, hchirp, hctrl, hfreq₁, hphase₁⟩ := ih
    obtain ⟨e', hexec, hchirp', hctrl', hfreq', hphase'⟩ := hchirp.exec_accept scr
    refine ⟨e', (execTimes_succ hexec₁).trans hexec, hchirp', hctrl'.trans hctrl, ?_, ?_⟩
    · rw [hfreq', hctrl]
      exact hbounds.sweepNext_toInt hfreq₁
    · rw [hphase', hphase₁, Finset.sum_range_succ, BitVec.ofInt_add, ← hfreq₁, BitVec.ofInt_toInt]

/-- Settles O34: the hypotheses are those of a sweep at its start. `tw_min < tw_max` is not used: with `K = 0` the sweep
is the constant one of R169 (a). -/
theorem sweepRepeatsAfterTheFirstValueAtOrAboveTheBound :
    Obligations.SweepRepeatsAfterTheFirstValueAtOrAboveTheBound := by
  intro c e scr K n hready hwe hmode hcont hcmd hfreq hphase _ hstep hbelow hreached hroom
  obtain ⟨e', hexec, -, -, hsweep⟩ := ChirpRunning.execTimes_accept ⟨hready, hwe, hmode, hcont, hcmd⟩ scr
    ⟨hstep, hbelow, hreached, hroom⟩ hfreq hphase n
  exact ⟨e', hexec, hsweep⟩

end Sys2Proof.Proofs
end

section
/-! PROOFS. Chirp, the quiet tick: running, with no transfer, no command and every other enable down, each group of
registers holds (R166, R190, R212, R145, R232, R261). -/

namespace Sys2Proof.Proofs

open Sys2Proof.Machine Sys2Proof.Laws

/-- With no command and no pulse the run state stands (R155, R157). -/
theorem runNext_of_quiet {pw : Nat} {r : RunState pw} (pulseLen : Nat) (hpulse : r.pulse = false) :
    r.next pulseLen 0 = r := by
  obtain ⟨cont, pulse, cnt⟩ := r
  cases hpulse
  rfl

/-- Running without a transfer and without the policy, every accumulator holds in every mode (R166, R190, R212). -/
theorem synthNext_of_stall {w hw dw pw : Nat} (a : SynthAcc w) (counter : Bool) (k : CtrlRegs w) {r : RunState pw}
    {p : Ports w hw dw} (hrun : r.isRunning = true) (hrdy : p.readyIn = false) : a.next false counter k r p = a := by
  simp [SynthAcc.next, chirpNext, toneNext, sampleCntNext, xfer, hrun, hrdy]

/-- `DL_IDLE` without the output register: only the registered enables move (R232). -/
theorem delayNext_of_idle {c : Cfg} {d : DelayLine c.dataW} {p : Ports c.w c.hopCntW c.dataW} (m : Word c.dataW)
    (hwr : p.dlWrEn = false) (hrd : p.dlRdEn = false) (hout : c.outReg = false) (hlen : d.bankQ.length = c.nb) :
    d.next c p m = { d with reQ := List.replicate c.nb false } := by
  have hreQ : (d.next c p m).reQ = List.replicate c.nb false := by
    rw [DelayLine.next, funext (readEn_of_dlRdEn_false hrd d.wptr), List.map_const', List.length_range]
  have hbankQ : (d.next c p m).bankQ = d.bankQ := by
    refine List.ext_getElem (by simp [DelayLine.next, hlen]) fun b hb hb' => ?_
    simp [DelayLine.next, readEn_of_dlRdEn_false hrd, hb']
  calc d.next c p m
      = ⟨(d.next c p m).wptr, (d.next c p m).bank, (d.next c p m).reQ, (d.next c p m).bankQ,
          (d.next c p m).doutReg⟩ := rfl
    _ = { d with reQ := List.replicate c.nb false } := by
      rw [next_wptr_of_dlWrEn_false d m hwr, next_bank_of_dlWrEn_false d m hwr, hreQ, hbankQ,
        next_doutReg_of_absent d m hout]

/-- Settles O59: each group of registers is in the case in which it holds. -/
theorem quietTickHoldsEveryRegister : Obligations.QuietTickHoldsEveryRegister := by
  intro c e scr hinv hhop hpolicy hout hcont hpulse hcmd
  obtain ⟨hwe, haddr⟩ := hinv.bus_idle
  obtain ⟨hwr, hrd⟩ := hinv.dl_idle
  have hruns : e.Runs .stall := runs_of_atRest rfl hinv.rst_low haddr (by decide) rfl
  obtain ⟨e', hexec, hctrl', hrun', hsynth', hhop', hdl', -⟩ := exec_groups scr hruns
  refine ⟨e', hexec, ?ctrl, ?run, ?synth, ?hop, ?dl⟩
  case ctrl => rw [hctrl']; exact ctrlNext_of_quiet (p := e.ports.drive .stall) hwe hcmd
  case run => rw [hrun', hcmd, runNext_of_quiet _ hpulse]
  case synth => rw [hsynth', hpolicy]; exact synthNext_of_stall _ _ _ (isRunning_of_cont hcont) rfl
  case hop => rw [hhop']; exact hopNext_of_hopEn_false (p := e.ports.drive .stall) _ hhop
  case dl => rw [hdl']; exact delayNext_of_idle (p := e.ports.drive .stall) _ hwr hrd hout hinv.bankQ_length

end Sys2Proof.Proofs
end

section
/-! PROOFS. Dual tone, the accumulators in one tick: one equation per link of the priority chain (R185, R189, R190,
R194). -/

namespace Sys2Proof.Proofs

open Sys2Proof.Machine Sys2Proof.Laws

section chain
variable {w hw dw pw : Nat} (a : SynthAcc w) {policy : Bool} (counter : Bool) (k : CtrlRegs w) {r : RunState pw}
  {p : Ports w hw dw}

theorem dualSel_of_ne {mode : BitVec 2} (h : mode ≠ 2) : dualSel mode = false := beq_eq_false_iff_ne.2 h

/-- The mode-switch policy outside dual-tone mode, running or not (R189). -/
theorem synthNext_tones_of_policy (hpolicy : policy = true) (hmode : p.mode ≠ 2) :
    (a.next policy counter k r p).phase1 = 0 ∧ (a.next policy counter k r p).phase2 = 0 := by
  simp [SynthAcc.next, toneNext, hpolicy, dualSel_of_ne hmode]

/-- Hold: the policy does not apply, and no transfer in dual-tone mode (R190). -/
theorem synthNext_tones_of_hold (hpolicy : ¬ (policy = true ∧ p.mode ≠ 2))
    (hxfer : ¬ (p.mode = 2 ∧ xfer r.validOut p.readyIn = true)) :
    (a.next policy counter k r p).phase1 = a.phase1 ∧ (a.next policy counter k r p).phase2 = a.phase2 := by
  by_cases hmode : p.mode = 2
  · have hidle : xfer r.validOut p.readyIn = false := Bool.eq_false_iff.2 fun h => hxfer ⟨hmode, h⟩
    simp [SynthAcc.next, toneNext, dualSel, hmode, hidle]
  · have hoff : policy = false := Bool.eq_false_iff.2 fun h => hpolicy ⟨h, hmode⟩
    simp [SynthAcc.next, toneNext, hoff, dualSel_of_ne hmode]

end chain

/-- Settles O33: the accumulators take their own step in every tick, and each clause is one link of the chain. -/
theorem toneAccumulatorsFollowThePriorityChain : Obligations.ToneAccumulatorsFollowThePriorityChain := by
  intro c e scr i hruns
  obtain ⟨e', hexec, -, -, hsynth, -⟩ := exec_groups scr hruns
  refine ⟨e', hexec, ?_⟩
  rw [hsynth]
  refine ⟨synthNext_tones_of_policy _ _ _, fun hmode hxfer => ?transfer, synthNext_tones_of_hold _ _ _⟩
  obtain ⟨hrun, hrdy⟩ := Bool.and_eq_true_iff.1 hxfer
  obtain ⟨hphase1, hphase2, -⟩ :=
    synthNext_of_dual_transfer e.synth c.modeSwitchReset c.sampleCntEn e.ctrl hmode hrun hrdy
  exact ⟨hphase1, hphase2⟩

end Sys2Proof.Proofs
end

section
/-! PROOFS. Dual tone, the sample range: a table read is at most `AMP` in size (R186), saturation leaves the values of
the range and only those (R187), and the range is `[-AMP - 1, AMP]` (R191). -/

namespace Sys2Proof.Proofs

open Sys2Proof.Machine Sys2Proof.Laws

/-! ## The table reads (R186) -/

theorem amp_nonneg (c : Cfg) : 0 ≤ c.amp := sub_nonneg.2 (one_le_pow₀ one_le_two)

theorem abs_tableRead_le {c : Cfg} {i : Nat} (hi : i < c.size) : |tableRead c i| ≤ c.amp := by
  rw [tableRead_eq_sineEntry hi]
  exact abs_sineEntry_le _ _ i

theorem abs_sinRd_le (c : Cfg) (p : Word c.w) : |sinRd c p| ≤ c.amp := abs_tableRead_le (tableAddr_lt c p)

theorem abs_cosRd_le (c : Cfg) (p : Word c.w) : |cosRd c p| ≤ c.amp :=
  abs_tableRead_le (Nat.mod_lt _ (Nat.two_pow_pos c.lutAw))

/-! ## The sample range -/

/-- The signed values of `n` bits: what a sample port carries (R18, R187). -/
def InSampleRange (n : Nat) (v : Int) : Prop := -(2 ^ (n - 1)) ≤ v ∧ v ≤ 2 ^ (n - 1) - 1

theorem clamp_inSampleRange (n : Nat) (v : Int) :
    InSampleRange n (max (-(2 ^ (n - 1))) (min (2 ^ (n - 1) - 1) v)) := by
  have hpos : (0 : Int) < 2 ^ (n - 1) := by positivity
  exact ⟨le_max_left _ _, max_le (by omega) (min_le_left _ _)⟩

/-- Saturation passes the values of the range through, and only those (R187). -/
theorem sat_eq_self_iff (n : Nat) (v : Int) : sat n v = v ↔ InSampleRange n v := by
  rw [sat_eq_clamp]
  constructor
  · intro h
    rw [← h]
    exact clamp_inSampleRange n v
  · rintro ⟨hlo, hhi⟩
    rw [min_eq_right hhi, max_eq_right hlo]

/-- The range of the ports is asymmetric: `[-AMP, AMP]`, and one value below it (R191 (b), (c)). -/
theorem inSampleRange_iff (c : Cfg) (v : Int) : InSampleRange c.sampleW v ↔ |v| ≤ c.amp ∨ v = -c.amp - 1 := by
  have hamp := amp_nonneg c
  have hlow : -(2 ^ (c.sampleW - 1)) = -c.amp - 1 := by simp only [Cfg.amp, Config.amp]; ring
  have hhigh : 2 ^ (c.sampleW - 1) - 1 = c.amp := rfl
  rw [InSampleRange, hlow, hhigh, abs_le]
  omega

theorem inSampleRange_of_abs_le {c : Cfg} {v : Int} (h : |v| ≤ c.amp) : InSampleRange c.sampleW v :=
  (inSampleRange_iff c v).2 (.inl h)

/-! ## The outputs -/

theorem mode_cases (m : BitVec 2) : (m = 0 ∨ m = 3) ∨ m = 1 ∨ m = 2 := by
  revert m; decide

/-- The selected samples fit the ports in every mode (R201, R191 (a)). -/
theorem selectSamples_inSampleRange (c : Cfg) (mode : BitVec 2) (a : SynthAcc c.w) :
    InSampleRange c.sampleW (selectSamples c mode a).1 ∧ InSampleRange c.sampleW (selectSamples c mode a).2 := by
  rcases mode_cases mode with hsilent | hchirp | hdual
  · obtain ⟨hi, hq⟩ := selectSamples_of_silent a hsilent
    have hzero : InSampleRange c.sampleW 0 := inSampleRange_of_abs_le (abs_zero.trans_le (amp_nonneg c))
    exact ⟨hi ▸ hzero, hq ▸ hzero⟩
  · obtain ⟨hi, hq⟩ := selectSamples_of_chirp a hchirp
    rw [hi, hq]
    exact ⟨inSampleRange_of_abs_le (abs_cosRd_le c _), inSampleRange_of_abs_le (abs_sinRd_le c _)⟩
  · obtain ⟨hi, hq⟩ := selectSamples_of_dual a hdual
    rw [hi, hq]
    exact ⟨clamp_inSampleRange _ _, clamp_inSampleRange _ _⟩

/-- Settles O42: in a reset tick or not, the outputs are those of the shown registers, and no register value takes a
sample out of the range. -/
theorem samplesStayInRange : Obligations.SamplesStayInRange := by
  intro c e e' scr i hexec
  obtain ⟨-, -, r, -, ht⟩ := exec_next_inv i c e scr _ hexec
  cases ht
  rw [tick_outs]
  exact ⟨(selectSamples_inSampleRange c _ _).1, (selectSamples_inSampleRange c _ _).2, abs_le.1 (abs_cosRd_le c _),
    abs_le.1 (abs_sinRd_le c _)⟩

/-! ## The combiner -/

/-- One guard bit holds the sum of two values of at most `AMP` (R188). -/
theorem add_fits_guard_bit {c : Cfg} {a b : Int} (ha : |a| ≤ c.amp) (hb : |b| ≤ c.amp) :
    -(2 ^ c.sampleW) ≤ a + b ∧ a + b ≤ 2 ^ c.sampleW - 1 := by
  obtain ⟨-, -, -, -, hwidth, -⟩ := cfg_constraints c
  have htwice : 2 * (c.amp + 1) = 2 ^ c.sampleW := by
    rw [Cfg.amp, Config.amp, sub_add_cancel, mul_pow_sub_one (Nat.ne_zero_of_lt hwidth)]
  have hsum : |a + b| ≤ c.amp + c.amp := (abs_add_le a b).trans (add_le_add ha hb)
  rw [abs_le] at hsum
  omega

/-- Settles O43: the combiner saturates the exact sum, so it is exact when the sum is in the range. -/
theorem saturationHappensExactlyBeyondTheRange : Obligations.SaturationHappensExactlyBeyondTheRange := by
  intro c i j hi hj
  exact ⟨(sat_eq_self_iff _ _).trans (inSampleRange_iff c _),
    add_fits_guard_bit (abs_tableRead_le hi) (abs_tableRead_le hj)⟩

end Sys2Proof.Proofs
end

section
/-! PROOFS. Mode selector, the operations of the field: they have no operand and move no port but the mode, so each runs
wherever a tick does (R96, R200), and what the mode selects is what the tick shows (R201). -/

namespace Sys2Proof.Proofs

open Sys2Proof.Machine Sys2Proof.Laws

variable {c : Cfg} {e : Engine c} {i : Instr}

theorem operandsFit_of_mode_field (raw : Config) (hmode : i.field = .mode) : i.operandsFit raw = true := by
  cases i with
  | modeIdle | modeChirp | modeDual | modeRsvd3 => rfl
  | _ => cases hmode

theorem runs_of_mode_field (hready : e.Ready) (hmode : i.field = .mode) : e.Runs i := by
  obtain ⟨hrst, haligned⟩ := hready
  have hsameRst : (e.ports.drive i).rst = e.ports.rst := drive_agreeOn_self (f := .rst) _ (by simp [hmode])
  obtain ⟨-, haddr, -⟩ := drive_agreeOn_self (f := .bus) e.ports (i := i) (by simp [hmode])
  exact ⟨operandsFit_of_mode_field _ hmode, hsameRst.trans hrst, haddr ▸ haligned⟩

/-- The samples of a tick are what its mode selects from the accumulators before it, running or not (R201, D16). -/
theorem exec_shows_selection {x y : Sample} (scr : List Line) (hruns : e.Runs i)
    (hselect : (selectSamples c (e.ports.drive i).mode e.synth).1 = x ∧
      (selectSamples c (e.ports.drive i).mode e.synth).2 = y) :
    ∃ e' : Engine c, exec i ⟨c, e, scr⟩ = .next ⟨c, e', scr⟩ ∧ e'.outs.outI = x ∧ e'.outs.outQ = y := by
  obtain ⟨e', hexec, -, -, -, -, -, -, -, r, -, houts⟩ := exec_groups scr hruns
  refine ⟨e', hexec, ?_⟩
  rw [houts]
  exact hselect

/-- Settles O40: each mode operation runs, and its code selects its samples. -/
theorem modeSelectsTheSamples : Obligations.ModeSelectsTheSamples := by
  intro c e scr hready
  have runs {i : Instr} (hmode : i.field = .mode) : e.Runs i := runs_of_mode_field hready hmode
  exact ⟨exec_shows_selection scr (runs rfl) (selectSamples_of_silent _ (.inl rfl)),
    exec_shows_selection scr (runs rfl) (selectSamples_of_chirp _ rfl),
    exec_shows_selection scr (runs rfl) (selectSamples_of_dual _ rfl),
    exec_shows_selection scr (runs rfl) (selectSamples_of_silent _ (.inr rfl))⟩

end Sys2Proof.Proofs
end

section
/-! PROOFS. Mode selector, the reserved mode: the machine reads the mode only through `chirp_sel` and `dual_sel`, so two
codes alike in both differ in nothing but the mode port (R205). -/

namespace Sys2Proof.Proofs

open Sys2Proof.Machine Sys2Proof.Laws

/-- Two mode codes are selected alike: both or neither select the chirp, and the same of the tones. -/
def SelectAlike (m n : BitVec 2) : Prop := chirpSel m = chirpSel n ∧ dualSel m = dualSel n

theorem selectAlike_reserved_idle : SelectAlike 3 0 := ⟨rfl, rfl⟩

/-- The priority chains and the counter read no more of the mode than the two select signals (R173, R194, R216). -/
theorem synthNext_congr_of_selectAlike {w hw dw pw : Nat} (a : SynthAcc w) (policy counter : Bool) (k : CtrlRegs w)
    (r : RunState pw) {p q : Ports w hw dw} (hmode : SelectAlike p.mode q.mode) (hrdy : p.readyIn = q.readyIn) :
    a.next policy counter k r p = a.next policy counter k r q := by
  obtain ⟨hchirp, hdual⟩ := hmode
  simp only [SynthAcc.next, chirpNext, toneNext, hchirp, hdual, hrdy]

/-- Nor does the selection of the samples (R201). -/
theorem selectSamples_congr {c : Cfg} {m n : BitVec 2} (hmode : SelectAlike m n) (a : SynthAcc c.w) :
    selectSamples c m a = selectSamples c n a := by
  obtain ⟨hchirp, hdual⟩ := hmode
  simp only [selectSamples, hchirp, hdual]

/-- Equal groups, ports, outputs and draws make equal engines. -/
theorem engine_eq_of_groups {c : Cfg} {e e' : Engine c} (hctrl : e.ctrl = e'.ctrl) (hrun : e.run = e'.run)
    (hsynth : e.synth = e'.synth) (hhop : e.hop = e'.hop) (hdl : e.dl = e'.dl) (hports : e.ports = e'.ports)
    (houts : e.outs = e'.outs) (hdraws : e.draws = e'.draws) : e = e' := by
  cases e
  simp_all

section alike
variable {c : Cfg} {e : Engine c} {p q : Ports c.w c.hopCntW c.dataW} {r : Word c.w}

theorem tick_synth_congr_of_selectAlike (hrst : p.rst = q.rst) (hmode : SelectAlike p.mode q.mode)
    (hrdy : p.readyIn = q.readyIn) : ((e.withPorts p).tick r).synth = ((e.withPorts q).tick r).synth := by
  obtain ⟨-, -, hp, -⟩ := tick_withPorts_groups e p r
  obtain ⟨-, -, hq, -⟩ := tick_withPorts_groups e q r
  rw [hp, hq, hrst, synthNext_congr_of_selectAlike _ _ _ _ _ hmode hrdy]

theorem tick_outs_congr_of_selectAlike (hrst : p.rst = q.rst) (hmode : SelectAlike p.mode q.mode) :
    ((e.withPorts p).tick r).outs = ((e.withPorts q).tick r).outs := by
  simp only [tick_outs, shown_withPorts, Engine.outputs, withPorts_ports, selectSamples_congr hmode, hrst]
  rfl

/-- The free draws of a tick depend on no port but `rst` (R236). -/
theorem tick_draws_congr (hrst : p.rst = q.rst) :
    ((e.withPorts p).tick r).draws = ((e.withPorts q).tick r).draws := by
  simp only [tick_draws, shown_withPorts, withPorts_dl, withPorts_draws, hrst]

end alike

/-- Two modes selected alike lead to engines that differ in nothing but the code on the mode port. -/
theorem tick_driveMode_congr {c : Cfg} (e : Engine c) {m n : BitVec 2} (hmode : SelectAlike m n) (r : Word c.w) :
    (e.withPorts (e.ports.driveMode m)).tick r =
      { (e.withPorts (e.ports.driveMode n)).tick r with
        ports := { ((e.withPorts (e.ports.driveMode n)).tick r).ports with mode := m } } :=
  engine_eq_of_groups (tick_ctrl_congr (r' := r) rfl ⟨rfl, rfl, rfl⟩) (tick_run_congr (r' := r) rfl)
    (tick_synth_congr_of_selectAlike rfl hmode rfl) (tick_hop_congr (r' := r) rfl ⟨rfl, rfl, rfl, rfl, rfl⟩)
    (tick_dl_congr (r' := r) rfl ⟨rfl, rfl, rfl⟩) rfl (tick_outs_congr_of_selectAlike rfl hmode)
    (tick_draws_congr rfl)

/-- Settles O41: both operations run with the same bus read data, and neither code selects a synthesis mode. -/
theorem reservedModeBehavesAsIdle : Obligations.ReservedModeBehavesAsIdle := by
  intro c e scr haligned
  obtain ⟨r, hread, hidle⟩ := exec_of_fits .modeIdle c e scr rfl haligned
  obtain ⟨r', hread', hrsvd⟩ := exec_of_fits .modeRsvd3 c e scr rfl haligned
  have hrdata : (e.withPorts (e.ports.drive .modeRsvd3)).rdata = (e.withPorts (e.ports.drive .modeIdle)).rdata :=
    rdata_congr rfl ⟨rfl, rfl, rfl⟩
  obtain rfl : r' = r := Option.some.inj (hread'.symm.trans (hrdata.trans hread))
  exact ⟨_, _, hidle, hrsvd, tick_driveMode_congr e selectAlike_reserved_idle _⟩

end Sys2Proof.Proofs
end

section
/-! PROOFS. Stream handshake: a tick transfers exactly when it runs with `ready_in` at 1 (R211); a stalled tick holds what
the selected mode's samples are read from (R212, R214), so an offered sample stays on offer (R215, R217), and a transfer
is counted (R213, R216). -/

namespace Sys2Proof.Proofs

open Sys2Proof.Machine Sys2Proof.Laws

/-! ## The accumulators in a stalled tick, and the counter in any -/

section gate
variable {w hw dw pw : Nat} (a : SynthAcc w) (policy counter : Bool) (k : CtrlRegs w) {r : RunState pw}
  {p : Ports w hw dw}

/-- A sample is counted exactly when the tick transfers one (R211, R216). -/
theorem synthNext_sampleCnt (r : RunState pw) (p : Ports w hw dw) :
    (a.next policy counter k r p).sampleCnt =
      if counter = true ∧ r.isRunning = true ∧ p.readyIn = true then a.sampleCnt + 1 else a.sampleCnt := by
  simp only [SynthAcc.next, sampleCntNext, xfer, RunState.validOut, Bool.and_eq_true]

/-- Stalled in chirp mode, where the mode-switch policy never applies (R166, R212). -/
theorem synthNext_chirp_of_stall (hrun : r.isRunning = true) (hmode : p.mode = 1) (hrdy : p.readyIn = false) :
    (a.next policy counter k r p).freqAcc = a.freqAcc ∧ (a.next policy counter k r p).phaseC = a.phaseC :=
  synthNext_chirp_of_hold a counter k hrun (fun h => h.2 hmode) fun h => Bool.eq_false_iff.1 hrdy h.2

theorem xfer_of_readyIn_false (v : Bool) {ready : Bool} (h : ready = false) : xfer v ready = false := by
  rw [xfer, h, Bool.and_false]

/-- Stalled in dual-tone mode, running or not (R190, R212). -/
theorem synthNext_tones_of_stall (r : RunState pw) (hmode : p.mode = 2) (hrdy : p.readyIn = false) :
    (a.next policy counter k r p).phase1 = a.phase1 ∧ (a.next policy counter k r p).phase2 = a.phase2 :=
  synthNext_tones_of_hold a counter k (fun h => h.2 hmode)
    fun h => Bool.eq_false_iff.1 (xfer_of_readyIn_false _ hrdy) h.2

end gate

/-! ## The offer -/

/-- The samples of a mode are read from that mode's own phases (R201). -/
theorem selectSamples_eq_of_phases {c : Cfg} {mode : BitVec 2} {a b : SynthAcc c.w}
    (hchirp : mode = 1 → a.phaseC = b.phaseC) (hdual : mode = 2 → a.phase1 = b.phase1 ∧ a.phase2 = b.phase2) :
    selectSamples c mode a = selectSamples c mode b := by
  rcases mode_cases mode with (rfl | rfl) | rfl | rfl
  case inl.inl | inl.inr => rfl
  case inr.inl =>
    have hphase := hchirp rfl
    simp [selectSamples, chirpSel, hphase]
  case inr.inr =>
    obtain ⟨hphase1, hphase2⟩ := hdual rfl
    simp [selectSamples, chirpSel, dualSel, hphase1, hphase2]

/-- A stalled tick leaves its mode's samples as they are, under either mode-switch policy (R214). -/
theorem selectSamples_synthNext_of_stall {c : Cfg} {hw dw pw : Nat} (a : SynthAcc c.w) (policy counter : Bool)
    (k : CtrlRegs c.w) {r : RunState pw} {p : Ports c.w hw dw} (hrun : r.isRunning = true) (hrdy : p.readyIn = false) :
    selectSamples c p.mode (a.next policy counter k r p) = selectSamples c p.mode a :=
  selectSamples_eq_of_phases (fun hmode => (synthNext_chirp_of_stall a policy counter k hrun hmode hrdy).2)
    fun hmode => synthNext_tones_of_stall a policy counter k r hmode hrdy

/-- What the stream sees of an operation in a tick without reset: the accumulators' step, the mode kept for the next tick,
and the offer of the tick itself (R201, R210). -/
theorem exec_stream {c : Cfg} {e : Engine c} {i : Instr} (scr : List Line) (hruns : e.Runs i) :
    ∃ e' : Engine c, exec i ⟨c, e, scr⟩ = .next ⟨c, e', scr⟩ ∧
      e'.synth = e.synth.next c.modeSwitchReset c.sampleCntEn e.ctrl e.run (e.ports.drive i) ∧
      (e'.Ready ∧ e'.ports.mode = (e.ports.drive i).mode) ∧
      e'.outs.validOut = e.run.isRunning ∧
      (e'.outs.outI, e'.outs.outQ) = selectSamples c (e.ports.drive i).mode e.synth := by
  obtain ⟨e', hexec, -, -, hsynth, -, -, hports, -, r, -, houts⟩ := exec_groups scr hruns
  refine ⟨e', hexec, hsynth, ⟨?ready, ?mode⟩, ?offer⟩
  case ready => rw [Engine.Ready, hports]; exact ⟨rfl, rfl⟩
  case mode => rw [hports, relax_mode]
  case offer => rw [houts]; exact ⟨rfl, rfl⟩

theorem runs_stall {c : Cfg} {e : Engine c} (hready : e.Ready) : e.Runs .stall := ⟨rfl, hready⟩

theorem runs_accept {c : Cfg} {e : Engine c} (hready : e.Ready) : e.Runs .accept := ⟨rfl, hready⟩

/-- Settles O37: the stalled tick kept the phases of its mode, and the next tick has the same mode and reads them
again. -/
theorem offeredSampleStaysOnOffer : Obligations.OfferedSampleStaysOnOffer := by
  intro c e e1 scr j hready hrun hstall hrun1 _ hmode hruns
  obtain ⟨_, hexec1, hsynth1, ⟨-, hmode1⟩, -, hoffer1⟩ := exec_stream scr (runs_stall hready)
  cases hstall.symm.trans hexec1
  obtain ⟨e2, hexec2, -, -, hvalid2, hoffer2⟩ := exec_stream scr hruns
  have hsame : (e2.outs.outI, e2.outs.outQ) = (e1.outs.outI, e1.outs.outQ) := by
    rw [hoffer2, hoffer1, hmode, hmode1, hsynth1]
    exact selectSamples_synthNext_of_stall _ _ _ _ hrun rfl
  obtain ⟨hi, hq⟩ := Prod.mk.inj hsame
  exact ⟨e2, hexec2, hvalid2.trans hrun1, hi, hq⟩

/-! ## `STALL` -/

/-- Settles O38: the tick has `ready_in = 0`, so nothing is counted and each clause is a hold. -/
theorem stallTransfersNothing : Obligations.StallTransfersNothing := by
  intro c e scr hready
  obtain ⟨e', hexec, hsynth, -, hvalid, -⟩ := exec_stream scr (runs_stall hready)
  have hrdy : (e.ports.drive .stall).readyIn = false := rfl
  refine ⟨e', hexec, ?_⟩
  rw [hsynth]
  refine ⟨?count, fun hrun hpolicy => ?all, fun hrun hmode => ?chirp, fun hmode => ?tones, hvalid⟩
  case count => rw [synthNext_sampleCnt, if_neg fun h => Bool.eq_false_iff.1 hrdy h.2.2]
  case all => rw [hpolicy]; exact synthNext_of_stall _ _ _ hrun hrdy
  case chirp => exact synthNext_chirp_of_stall (p := e.ports.drive .stall) _ _ _ _ hrun hmode hrdy
  case tones => exact synthNext_tones_of_stall (p := e.ports.drive .stall) _ _ _ _ _ hmode hrdy

/-- Settles O36, by induction on the number of stalled ticks, each of which starts from a ready engine. -/
theorem stalledAccumulatorsDoNotAdvance : Obligations.StalledAccumulatorsDoNotAdvance := by
  intro c e scr n hready hpolicy hvalid
  suffices h : ∃ e' : Engine c, execTimes .stall n ⟨c, e, scr⟩ = .next ⟨c, e', scr⟩ ∧ e'.Ready ∧ e'.synth = e.synth by
    obtain ⟨e', hexec, -, hsynth⟩ := h
    exact ⟨e', hexec, hsynth⟩
  induction n with
  | zero => exact ⟨e, rfl, hready, rfl⟩
  | succ n ih =>
    obtain ⟨e₁, hexec₁, hready₁, hsynth₁⟩ := ih fun k f hk => hvalid k f (Nat.lt_succ_of_lt hk)
    have hrun₁ : e₁.run.isRunning = true := hvalid n e₁ n.lt_succ_self hexec₁
    obtain ⟨e', hexec, hsynth, ⟨hready', -⟩, -⟩ := exec_stream scr (runs_stall hready₁)
    refine ⟨e', (execTimes_succ hexec₁).trans hexec, hready', ?_⟩
    rw [hsynth, hpolicy, synthNext_of_stall _ _ _ hrun₁ rfl, hsynth₁]

/-! ## `ACCEPT` -/

/-- Settles O39: the tick has `ready_in = 1`, so it transfers exactly when it runs. The accumulators' clauses are those of
the two priority chains (O32, O33) at `ACCEPT`. -/
theorem acceptTransfersTheOfferedSample : Obligations.AcceptTransfersTheOfferedSample := by
  refine ⟨fun c e scr hready => ?accept, fun c e scr i hruns => ?counter⟩
  case counter =>
    obtain ⟨e', hexec, hsynth, -⟩ := exec_stream scr hruns
    exact ⟨e', hexec, by rw [hsynth]; exact synthNext_sampleCnt _ _ _ _ _ _⟩
  case accept =>
    have hruns := runs_accept hready
    obtain ⟨e', hexec, hsynth, -, hvalid, -⟩ := exec_stream scr hruns
    obtain ⟨_, hexec₁, hchirpIdle, -, hchirpXfer, hchirpHold⟩ :=
      chirpAccumulatorsFollowThePriorityChain c e scr .accept hruns
    obtain ⟨_, hexec₂, -, htoneXfer, htoneHold⟩ := toneAccumulatorsFollowThePriorityChain c e scr .accept hruns
    cases hexec.symm.trans hexec₁
    cases hexec.symm.trans hexec₂
    have hcnt := synthNext_sampleCnt e.synth c.modeSwitchReset c.sampleCntEn e.ctrl e.run (e.ports.drive .accept)
    rw [← hsynth] at hcnt
    have hretain {m : BitVec 2} (h : c.modeSwitchReset = false) : ¬ (c.modeSwitchReset = true ∧ e.ports.mode ≠ m) :=
      fun hpolicy => Bool.eq_false_iff.1 h hpolicy.1
    refine ⟨e', hexec, fun hrun hen => hcnt.trans (if_pos ⟨hen, hrun, rfl⟩), fun hnone => hcnt.trans (if_neg ?uncounted),
      fun hrun hmode => hchirpXfer hrun hmode rfl,
      fun hrun hmode hpolicy => hchirpHold hrun (hretain hpolicy) fun h => hmode h.1, hchirpIdle,
      fun hrun hmode => htoneXfer hmode (Bool.and_eq_true_iff.2 ⟨hrun, rfl⟩),
      fun _ hmode hpolicy => htoneHold (hretain hpolicy) fun h => hmode h.1,
      fun hidle hpolicy => htoneHold hpolicy fun h => ?idleTransfer, hvalid⟩
    case uncounted =>
      rintro ⟨hen, hrun, -⟩
      rcases hnone with hidle | habsent
      · exact Bool.eq_false_iff.1 hidle hrun
      · exact Bool.eq_false_iff.1 habsent hen
    case idleTransfer => exact Bool.eq_false_iff.1 hidle (Bool.and_eq_true_iff.1 h.2).1

end Sys2Proof.Proofs
end

section
/-! PROOFS. Delay line, the pointers and the enables: the read pointer trails the write pointer by `DELAY` entries and
never meets it (R226), and an enable is that of the one bank its pointer lies in (R227, R238). -/

namespace Sys2Proof.Proofs

open Sys2Proof.Machine Sys2Proof.Laws

/-- Two counts less than `TOTAL` apart are two different entries (R239). -/
theorem mod_total_ne {c : Cfg} {m n : Nat} (hlt : m < n) (hwindow : n < m + c.total) :
    m % c.total ≠ n % c.total := fun heq =>
  Nat.not_le.2 hlt (Nat.ModEq.le_of_lt_add (Nat.ModEq.symm heq) hwindow)

theorem readPtr_ne {c : Cfg} {wptr : Nat} (hw : wptr < c.total) : readPtr c wptr ≠ wptr := by
  obtain ⟨hpos, hlt⟩ := delay_range c
  have h := mod_total_ne (c := c) (m := wptr) (n := wptr + (c.total - c.delay)) (by omega) (by omega)
  rw [Nat.mod_eq_of_lt hw] at h
  rw [readPtr_eq]
  exact h.symm

/-- After `n + DELAY` writes the read pointer is at the entry of write number `n` (R239). -/
theorem readPtr_add_delay (c : Cfg) (n : Nat) : readPtr c ((n + c.delay) % c.total) = n % c.total := by
  obtain ⟨-, hlt⟩ := delay_range c
  have hround : n + c.delay + (c.total - c.delay) = n + c.total := by omega
  rw [readPtr_eq, Nat.mod_add_mod, hround, Nat.add_mod_right]

/-- Settles O52: the pointer in natural numbers, and `0 < DELAY < TOTAL` keeps it away from the write pointer. -/
theorem readPointerIsNeverTheWritePointer : Obligations.ReadPointerIsNeverTheWritePointer := by
  intro c wptr hw
  obtain ⟨-, hlt⟩ := delay_range c
  exact ⟨by rw [readPtr_eq, Nat.add_sub_assoc hlt.le], readPtr_lt c wptr (total_pos c), readPtr_ne hw⟩

section enables
variable {c : Cfg} {p : Ports c.w c.hopCntW c.dataW} {wptr b : Nat}

theorem writeEn_iff : writeEn c p wptr b = true ↔ p.dlWrEn = true ∧ bankOf c wptr = b ∧ p.rst = false := by
  simp only [writeEn, Bool.and_eq_true, beq_iff_eq, Bool.not_eq_true', and_assoc]

theorem readEn_iff :
    readEn c p wptr b = true ↔ p.dlRdEn = true ∧ bankOf c (readPtr c wptr) = b ∧ p.rst = false := by
  simp only [readEn, Bool.and_eq_true, beq_iff_eq, Bool.not_eq_true', and_assoc]

/-- The bank of an entry is one of the banks, so selecting by it selects exactly when it is asked to. -/
theorem exists_bank_iff {q : Nat} {asked running : Prop} (hq : q < c.total) :
    (∃ b, b < c.nb ∧ asked ∧ bankOf c q = b ∧ running) ↔ asked ∧ running :=
  ⟨fun ⟨_, _, hasked, _, hrunning⟩ => ⟨hasked, hrunning⟩,
    fun ⟨hasked, hrunning⟩ => ⟨bankOf c q, bankOf_lt c q hq, hasked, rfl, hrunning⟩⟩

theorem exists_writeEn_iff (hw : wptr < c.total) :
    (∃ b, b < c.nb ∧ writeEn c p wptr b = true) ↔ p.dlWrEn = true ∧ p.rst = false := by
  simp only [writeEn_iff, exists_bank_iff hw]

theorem exists_readEn_iff :
    (∃ b, b < c.nb ∧ readEn c p wptr b = true) ↔ p.dlRdEn = true ∧ p.rst = false := by
  simp only [readEn_iff, exists_bank_iff (readPtr_lt c wptr (total_pos c))]

theorem writeEn_unique {b' : Nat} (h : writeEn c p wptr b = true) (h' : writeEn c p wptr b' = true) : b = b' := by
  obtain ⟨-, hbank, -⟩ := writeEn_iff.1 h
  obtain ⟨-, hbank', -⟩ := writeEn_iff.1 h'
  exact hbank.symm.trans hbank'

theorem readEn_unique {b' : Nat} (h : readEn c p wptr b = true) (h' : readEn c p wptr b' = true) : b = b' := by
  obtain ⟨-, hbank, -⟩ := readEn_iff.1 h
  obtain ⟨-, hbank', -⟩ := readEn_iff.1 h'
  exact hbank.symm.trans hbank'

end enables

/-- Settles O54: each enable names the bank of one pointer, which is in the memory. -/
theorem atMostOneBankIsWrittenAndOneRead : Obligations.AtMostOneBankIsWrittenAndOneRead := by
  intro c p wptr hw
  refine ⟨fun b => writeEn_iff, fun b => ?readPointer, fun _ _ => writeEn_unique, fun _ _ => readEn_unique,
    exists_writeEn_iff hw, exists_readEn_iff⟩
  rw [← readPtr_eq]
  exact readEn_iff

end Sys2Proof.Proofs
end

section
/-! PROOFS. Delay line, one tick: what a read and a write do to its registers and its memory (R228 to R231), in the four
operations of the field (R232 to R235) and in every operation. -/

namespace Sys2Proof.Proofs

open Sys2Proof.Machine Sys2Proof.Laws

/-! ## A tick of the delay line -/

section tick
variable {c : Cfg} {p : Ports c.w c.hopCntW c.dataW} (d : DelayLine c.dataW) (m : Word c.dataW)

/-- A read marks the bank of the read pointer and loads its output register, and no other bank's (R230, R231). -/
theorem next_of_dlRdEn (hrd : p.dlRdEn = true) (hrst : p.rst = false) {b : Nat} (hb : b < c.nb) :
    (d.next c p m).reQ.getD b false = (bankOf c (readPtr c d.wptr) == b) ∧
    (d.next c p m).bankQ.getD b 0 =
      if bankOf c (readPtr c d.wptr) = b then d.bank.read (readPtr c d.wptr) else d.bankQ.getD b 0 := by
  have hen : readEn c p d.wptr b = (bankOf c (readPtr c d.wptr) == b) := by simp [readEn, hrd, hrst]
  rw [next_reQ c d p m b hb, next_bankQ c d p m b hb, hen]
  exact ⟨rfl, by simp only [beq_iff_eq]⟩

/-- The memory after a tick without reset, entry by entry: the write goes to the write pointer alone (R228). -/
theorem next_bank_read (hw : d.wptr < c.total) (hwf : d.bank.wf = true) (hrst : p.rst = false) (q : Nat) :
    (d.next c p m).bank.read q =
      if p.dlWrEn = true ∧ q = d.wptr then p.dlDin else d.bank.read q := by
  rw [next_bank c d p m hw hrst]
  by_cases hwr : p.dlWrEn = true
  · simp only [hwr, if_true, true_and, read_write _ _ _ _ hwf]
  · simp only [hwr, if_false, false_and, Bool.false_eq_true]

/-- The write pointer counts the writes modulo `TOTAL` (R229). -/
theorem next_wptr_of_dlWrEn (hwr : p.dlWrEn = true) : (d.next c p m).wptr = (d.wptr + 1) % c.total := by
  simp only [DelayLine.next, hwr, if_true]

/-- A write: the pointer advances, its entry takes `dl_din`, and every other entry stands (R228, R229). -/
theorem next_of_dlWrEn (hwr : p.dlWrEn = true) (hw : d.wptr < c.total) (hwf : d.bank.wf = true)
    (hrst : p.rst = false) :
    (d.next c p m).wptr = (d.wptr + 1) % c.total ∧ (d.next c p m).bank.read d.wptr = p.dlDin ∧
    ∀ q, q ≠ d.wptr → (d.next c p m).bank.read q = d.bank.read q := by
  refine ⟨next_wptr_of_dlWrEn d m hwr, ?_, fun q hq => ?_⟩ <;> rw [next_bank_read d m hw hwf hrst]
  · exact if_pos ⟨hwr, rfl⟩
  · exact if_neg fun h => hq h.2

/-- The output register stores what the multiplexer carries (R237). -/
theorem next_doutReg_of_outReg (hout : c.outReg = true) : (d.next c p m).doutReg = m := if_pos hout

/-- In the tick after a read the multiplexer carries the entry that was read, and nothing is drawn (R236). -/
theorem mux_next_of_dlRdEn (hrd : p.dlRdEn = true) (hrst : p.rst = false) (n : Nat) :
    mux c (d.next c p m) n = (d.bank.read (readPtr c d.wptr), n) := by
  have hb := bankOf_lt c _ (readPtr_lt c d.wptr (total_pos c))
  obtain ⟨hmark, hload⟩ := next_of_dlRdEn d m hrd hrst hb
  rw [mux_pending c _ n _ hb (by rw [hmark, beq_self_eq_true])
    fun b' hb' => (bankOf_readPtr_of_next_reQ hb').symm, hload, if_pos rfl]

end tick

section output
variable {c : Cfg} (d : DelayLine c.dataW) (m : Word c.dataW)

theorem dlDout_of_direct (hout : c.outReg = false) : dlDout c d m = m := by simp [dlDout, hout]

theorem dlDout_of_outReg (hout : c.outReg = true) : dlDout c d m = d.doutReg := if_pos hout

end output

/-! ## A tick of the whole core -/

/-- What a tick without reset with `p` on the ports does to the delay line and shows of it. -/
structure DelayTick {c : Cfg} (p : Ports c.w c.hopCntW c.dataW) (e e' : Engine c) : Prop where
  dl : e'.dl = e.dl.next c p (mux c e.dl e.draws).1
  draws : e'.draws = (mux c e.dl e.draws).2
  dlDout : e'.outs.dlDout = dlDout c e.dl (mux c e.dl e.draws).1
  ports : e'.ports = p.relax

theorem exec_delayTick {c : Cfg} {e : Engine c} {i : Instr} (scr : List Line) (hruns : e.Runs i) :
    ∃ e' : Engine c, exec i ⟨c, e, scr⟩ = .next ⟨c, e', scr⟩ ∧ DelayTick (e.ports.drive i) e e' := by
  obtain ⟨e', hexec, -, -, -, -, hdl, hports, hdraws, r, -, houts⟩ := exec_groups scr hruns
  exact ⟨e', hexec, hdl, hdraws, by rw [houts]; rfl, hports⟩

theorem delayTick_of_exec {c : Cfg} {e e' : Engine c} {scr : List Line} {i : Instr} (hruns : e.Runs i)
    (hexec : exec i ⟨c, e, scr⟩ = .next ⟨c, e', scr⟩) : DelayTick (e.ports.drive i) e e' := by
  obtain ⟨_, hexec', htick⟩ := exec_delayTick scr hruns
  cases hexec.symm.trans hexec'
  exact htick

theorem runs_of_dl_field {c : Cfg} {e : Engine c} {i : Instr} (hready : e.Ready) (hfit : i.operandsFit c.raw = true)
    (hdl : i.field = .dl) : e.Runs i := by
  obtain ⟨hrst, haligned⟩ := hready
  have hsameRst : (e.ports.drive i).rst = e.ports.rst := drive_agreeOn_self (f := .rst) _ (by simp [hdl])
  obtain ⟨-, haddr, -⟩ := drive_agreeOn_self (f := .bus) e.ports (i := i) (by simp [hdl])
  exact ⟨hfit, hsameRst.trans hrst, haddr ▸ haligned⟩

/-! ## The four operations -/

/-- Settles O47: with the write enable down the pointer and the memory hold; `DL_IDLE` has the read enable down too,
`DL_RD` has it up. -/
theorem delayIdleAndReadLeaveTheMemory : Obligations.DelayIdleAndReadLeaveTheMemory := by
  intro c e scr hready _
  constructor
  case left =>
    obtain ⟨e', hexec, htick⟩ := exec_delayTick scr (runs_of_dl_field (i := .dlIdle) hready rfl rfl)
    refine ⟨e', hexec, ?_⟩
    rw [htick.dl]
    exact ⟨next_wptr_of_dlWrEn_false _ _ rfl, fun q => by rw [next_bank_of_dlWrEn_false _ _ rfl],
      next_reQ_of_dlRdEn_false _ _ rfl, fun b => next_bankQ_of_dlRdEn_false _ _ rfl⟩
  case right =>
    have hruns := runs_of_dl_field (i := .dlRd) hready rfl rfl
    have ⟨_, hrst, _⟩ := hruns
    obtain ⟨e', hexec, htick⟩ := exec_delayTick scr hruns
    have hwptr : e'.dl.wptr = e.dl.wptr := by rw [htick.dl, next_wptr_of_dlWrEn_false _ _ rfl]
    refine ⟨e', hexec, hwptr, fun q => ?memory, fun b hb => ?banks, congrArg (readPtr c) hwptr⟩
    case memory => rw [htick.dl, next_bank_of_dlWrEn_false _ _ rfl]
    case banks => rw [htick.dl]; exact next_of_dlRdEn _ _ rfl hrst hb

/-- An operation with the write enable up stores `dl_din` at the write pointer (R228, R229). -/
theorem exec_of_dlWrEn {c : Cfg} {e : Engine c} {i : Instr} (scr : List Line) (hruns : e.Runs i)
    (hwr : (e.ports.drive i).dlWrEn = true) (hw : e.dl.wptr < c.total) (hwf : e.dl.bank.wf = true) :
    ∃ e' : Engine c, exec i ⟨c, e, scr⟩ = .next ⟨c, e', scr⟩ ∧ DelayTick (e.ports.drive i) e e' ∧
      e'.dl.wptr = (e.dl.wptr + 1) % c.total ∧ e'.dl.bank.read e.dl.wptr = (e.ports.drive i).dlDin ∧
      ∀ q, q ≠ e.dl.wptr → e'.dl.bank.read q = e.dl.bank.read q := by
  have ⟨_, hrst, _⟩ := hruns
  obtain ⟨e', hexec, htick⟩ := exec_delayTick scr hruns
  exact ⟨e', hexec, htick, htick.dl ▸ next_of_dlWrEn _ _ hwr hw hwf hrst⟩

/-- Settles O48: both operations store `din` at the write pointer; `DL_WR` has the read enable down, and `DL_WRRD` reads
the pre-step entry at the read pointer, which is another one. -/
theorem delayWritesStoreAtTheWritePointer : Obligations.DelayWritesStoreAtTheWritePointer := by
  intro c e scr din hready hdin hw hwf
  have hfit := fitsPort_iff.2 hdin
  constructor
  case left =>
    have hruns := runs_of_dl_field (i := .dlWr din) hready hfit rfl
    obtain ⟨e', hexec, htick, hwptr, hstored, hothers⟩ := exec_of_dlWrEn scr hruns rfl hw hwf
    refine ⟨e', hexec, hwptr, hstored, hothers, ?_⟩
    rw [htick.dl]
    exact ⟨next_reQ_of_dlRdEn_false _ _ rfl, fun b => next_bankQ_of_dlRdEn_false _ _ rfl⟩
  case right =>
    have hruns := runs_of_dl_field (i := .dlWrrd din) hready hfit rfl
    have ⟨_, hrst, _⟩ := hruns
    obtain ⟨e', hexec, htick, hwptr, hstored, hothers⟩ := exec_of_dlWrEn scr hruns rfl hw hwf
    refine ⟨e', hexec, hwptr, hstored, hothers, fun b hb => ?_, readPtr_ne hw⟩
    rw [htick.dl]
    exact next_of_dlRdEn _ _ rfl hrst hb

/-! ## Every operation -/

/-- Settles O49: a bank's registered enable and output are those of the delay line's tick, and a bank that is read is
that of the read pointer, so row and bank are its entry. -/
theorem everyTickLoadsTheBankItReads : Obligations.EveryTickLoadsTheBankItReads := by
  intro c e scr i hruns
  obtain ⟨e', hexec, htick⟩ := exec_delayTick scr hruns
  refine ⟨e', hexec, fun b hb => ?_⟩
  rw [htick.dl, next_reQ _ _ _ _ _ hb, next_bankQ _ _ _ _ _ hb]
  refine ⟨rfl, fun hread => ?_, fun hunread => by rw [hunread, if_neg Bool.false_ne_true]⟩
  obtain ⟨-, rfl, -⟩ := readEn_iff.1 hread
  rw [if_pos hread]
  exact congrArg e.dl.bank.read (pointerOf_bankOf c _).symm

/-- Settles O57: a reset tick keeps the memory (R323), and any other writes at the pointer when the enable is up. -/
theorem onlyTheWriteEnableChangesTheMemory : Obligations.OnlyTheWriteEnableChangesTheMemory := by
  intro c e e' scr i hw hwf hexec q
  obtain ⟨r, -, rfl⟩ := exec_next_engine hexec
  obtain ⟨-, -, -, -, hdl⟩ := tick_withPorts_groups e (e.ports.drive i) r
  rw [hdl]
  cases hrst : (e.ports.drive i).rst with
  | true => simp [DelayLine.reset]
  | false =>
    rw [if_neg Bool.false_ne_true, next_bank_read _ _ hw hwf hrst]
    simp only [true_and]

end Sys2Proof.Proofs
end

section
/-! PROOFS. Delay line, the output: a read's data passes the multiplexer one tick later and the output register one tick
after that; with no read pending the multiplexer carries a free draw (R236, R237). -/

namespace Sys2Proof.Proofs

open Sys2Proof.Machine Sys2Proof.Laws

theorem drive_rst_of_ne_reset {w hw dw : Nat} {p : Ports w hw dw} {i : Instr} (hrst : p.rst = false)
    (hi : i ≠ .reset) : (p.drive i).rst = false := by
  cases i with
  | reset => exact absurd rfl hi
  | run => rfl
  | _ => exact hrst

/-- An operation other than `RESET` that was executed after a tick is one without reset (R104). -/
theorem delayTick_after_tick {c : Cfg} {p : Ports c.w c.hopCntW c.dataW} {e e' e'' : Engine c} {scr : List Line}
    {i : Instr} (htick : DelayTick p e e') (hi : i ≠ .reset)
    (hexec : exec i ⟨c, e', scr⟩ = .next ⟨c, e'', scr⟩) : DelayTick (e'.ports.drive i) e' e'' := by
  obtain ⟨hfit, haligned, -⟩ := exec_next_inv i c e' scr _ hexec
  have hrst : e'.ports.rst = false := by rw [htick.ports, relax_rst]
  exact delayTick_of_exec ⟨hfit, drive_rst_of_ne_reset hrst hi, haligned⟩ hexec

/-- Settles O50: the tick after the read has the entry on the multiplexer, which is `dl_dout` or goes into the output
register, whatever the tick presents. -/
theorem readDataArrivesAfterTheLatency : Obligations.ReadDataArrivesAfterTheLatency := by
  intro c e scr i j k hruns hrd _ e₁ e₂ e₃ hexec₁ hj hk hexec₂ hexec₃
  have ⟨_, hrst, _⟩ := hruns
  have htick₁ := delayTick_of_exec hruns hexec₁
  have htick₂ := delayTick_after_tick htick₁ hj hexec₂
  have htick₃ := delayTick_after_tick htick₂ hk hexec₃
  have hmux : (mux c e₁.dl e₁.draws).1 = e.dl.bank.read (readPtr c e.dl.wptr) := by
    rw [htick₁.dl, mux_next_of_dlRdEn _ _ hrd hrst]
  refine ⟨fun hout => ?direct, fun hout => ?registered⟩
  case direct => rw [htick₂.dlDout, dlDout_of_direct _ _ hout, hmux]
  case registered => rw [htick₃.dlDout, dlDout_of_outReg _ _ hout, htick₂.dl, next_doutReg_of_outReg _ _ hout, hmux]

/-- Settles O51: with no bank marked the multiplexer is the next draw, shown or stored. -/
theorem outputWithoutAReadIsAFreshDraw : Obligations.OutputWithoutAReadIsAFreshDraw := by
  intro c e scr i hruns hidle
  obtain ⟨e', hexec, hdl, hdraws, hdout, -⟩ := exec_delayTick scr hruns
  rw [mux_idle c e.dl e.draws hidle] at hdl hdraws hdout
  refine ⟨e', hexec, hdraws, fun hout => ?direct, fun hout => ⟨?shown, ?stored⟩⟩
  case direct => rw [hdout, dlDout_of_direct _ _ hout]
  case shown => rw [hdout, dlDout_of_outReg _ _ hout]
  case stored => rw [hdl, next_doutReg_of_outReg _ _ hout]

end Sys2Proof.Proofs
end

section
/-! PROOFS. Delay line, delay fidelity: with a write and a read in every tick from reset on, the last `TOTAL` writes
stand in the memory, a read returns the write `DELAY` writes ago (R239), and the output shows it after the latency
(R240). -/

namespace Sys2Proof.Proofs

open Sys2Proof.Machine Sys2Proof.Laws

/-- The delay line after `n` ticks of `DL_WRRD` from reset, tick `k` writing `din k`. -/
structure DelayFed (c : Cfg) (din : Nat → Nat) (n : Nat) (d : DelayLine c.dataW) : Prop where
  wptr_eq : d.wptr = n % c.total
  bank_wf : d.bank.wf = true
  /-- The last `TOTAL` writes are still there. -/
  stored : ∀ k, k < n → n ≤ k + c.total → d.bank.read (k % c.total) = BitVec.ofNat c.dataW (din k)
  /-- What the last tick read is on the multiplexer. -/
  muxed : ∀ k, n = k + c.delay + 1 → ∀ draws, (mux c d draws).1 = BitVec.ofNat c.dataW (din k)
  /-- What the tick before it read is in the output register. -/
  registered : c.outReg = true → ∀ k, n = k + c.delay + 2 → d.doutReg = BitVec.ofNat c.dataW (din k)

theorem delayFed_reset {c : Cfg} {d : DelayLine c.dataW} (din : Nat → Nat) (hwf : d.bank.wf = true) :
    DelayFed c din 0 (d.reset c.nb) where
  wptr_eq := (Nat.zero_mod _).symm
  bank_wf := hwf
  stored _ h := absurd h (Nat.not_lt_zero _)
  muxed _ h := absurd h (Nat.succ_ne_zero _).symm
  registered _ _ h := absurd h (Nat.succ_ne_zero _).symm

section fed
variable {c : Cfg} {din : Nat → Nat} {n : Nat} {d : DelayLine c.dataW}

theorem DelayFed.wptr_lt (h : DelayFed c din n d) : d.wptr < c.total :=
  h.wptr_eq ▸ Nat.mod_lt n (total_pos c)

/-- A read in tick `k + DELAY` returns write number `k` (R239). -/
theorem DelayFed.read_readPtr {k : Nat} (h : DelayFed c din (k + c.delay) d) :
    d.bank.read (readPtr c d.wptr) = BitVec.ofNat c.dataW (din k) := by
  obtain ⟨hpos, hlt⟩ := delay_range c
  rw [h.wptr_eq, readPtr_add_delay]
  exact h.stored k (by omega) (by omega)

/-- The write of tick `n` takes the place of write number `n - TOTAL`, which has left the window. -/
theorem DelayFed.stored_next (h : DelayFed c din n d) {p : Ports c.w c.hopCntW c.dataW} (m : Word c.dataW)
    (hwr : p.dlWrEn = true) (hrst : p.rst = false) (hdin : p.dlDin = BitVec.ofNat c.dataW (din n)) {k : Nat}
    (hk : k < n + 1) (hwindow : n + 1 ≤ k + c.total) :
    (d.next c p m).bank.read (k % c.total) = BitVec.ofNat c.dataW (din k) := by
  obtain ⟨-, hnew, hothers⟩ := next_of_dlWrEn d m hwr h.wptr_lt h.bank_wf hrst
  rcases Nat.lt_succ_iff_lt_or_eq.1 hk with hlt | rfl
  · rw [hothers _ (h.wptr_eq ▸ mod_total_ne hlt hwindow), h.stored k hlt (Nat.le_of_succ_le hwindow)]
  · rw [← h.wptr_eq, hnew, hdin]

theorem DelayFed.next (h : DelayFed c din n d) {p : Ports c.w c.hopCntW c.dataW} (draws : Nat)
    (hwr : p.dlWrEn = true) (hrd : p.dlRdEn = true) (hrst : p.rst = false)
    (hdin : p.dlDin = BitVec.ofNat c.dataW (din n)) : DelayFed c din (n + 1) (d.next c p (mux c d draws).1) where
  wptr_eq := by rw [next_wptr_of_dlWrEn _ _ hwr, h.wptr_eq, Nat.mod_add_mod]
  bank_wf := by
    rw [next_bank c d p _ h.wptr_lt hrst, if_pos hwr]
    exact write_wf _ _ _ h.bank_wf
  stored _ := h.stored_next _ hwr hrst hdin
  muxed k hk draws' := by
    obtain rfl := Nat.succ.inj hk
    rw [mux_next_of_dlRdEn _ _ hrd hrst, h.read_readPtr]
  registered hout k hk := by rw [next_doutReg_of_outReg _ _ hout, h.muxed k (Nat.succ.inj hk)]

end fed

/-- One `DL_WRRD` of the run. -/
theorem DelayFed.exec_dlWrrd {c : Cfg} {e : Engine c} {din : Nat → Nat} {n : Nat} (h : DelayFed c din n e.dl)
    (scr : List Line) (hready : e.Ready) (hdin : din n < 2 ^ c.dataW) :
    ∃ e' : Engine c, exec (.dlWrrd (din n)) ⟨c, e, scr⟩ = .next ⟨c, e', scr⟩ ∧ e'.Ready ∧
      DelayFed c din (n + 1) e'.dl ∧ e'.outs.dlDout = dlDout c e.dl (mux c e.dl e.draws).1 := by
  have hruns := runs_of_dl_field (i := .dlWrrd (din n)) hready (fitsPort_iff.2 hdin) rfl
  have ⟨_, hrst, _⟩ := hruns
  obtain ⟨e', hexec, htick⟩ := exec_delayTick scr hruns
  exact ⟨e', hexec, by rw [Engine.Ready, htick.ports]; exact ⟨rfl, rfl⟩,
    htick.dl ▸ h.next e.draws rfl rfl hrst rfl, htick.dlDout⟩

theorem DelayFed.execSeq_dlWrrd {c : Cfg} {e : Engine c} {din : Nat → Nat} (h : DelayFed c din 0 e.dl)
    (scr : List Line) (hready : e.Ready) (hdin : ∀ k, din k < 2 ^ c.dataW) (n : Nat) :
    ∃ e' : Engine c, execSeq (fun k => .dlWrrd (din k)) n ⟨c, e, scr⟩ = .next ⟨c, e', scr⟩ ∧ e'.Ready ∧
      DelayFed c din n e'.dl := by
  induction n with
  | zero => exact ⟨e, rfl, hready, h⟩
  | succ n ih =>
    obtain ⟨e₁, hexec₁, hready₁, hfed₁⟩ := ih
    obtain ⟨e', hexec, hready', hfed', -⟩ := hfed₁.exec_dlWrrd scr hready₁ (hdin n)
    exact ⟨e', (execSeq_succ hexec₁).trans hexec, hready', hfed'⟩

/-- `dl_dout` in tick `t` is the datum of tick `t - DELAY - LAT`, from the multiplexer or from the output register. -/
theorem DelayFed.dlDout_eq {c : Cfg} {d : DelayLine c.dataW} {din : Nat → Nat} {t lat : Nat} (h : DelayFed c din t d)
    (hlat : lat = if c.outReg then 2 else 1) (hfill : c.delay + lat ≤ t) (draws : Nat) :
    dlDout c d (mux c d draws).1 = BitVec.ofNat c.dataW (din (t - c.delay - lat)) := by
  cases hout : c.outReg with
  | false =>
    have hone : lat = 1 := by simpa [hout] using hlat
    rw [dlDout_of_direct _ _ hout, h.muxed (t - c.delay - lat) (by omega)]
  | true =>
    have htwo : lat = 2 := by simpa [hout] using hlat
    rw [dlDout_of_outReg _ _ hout, h.registered hout (t - c.delay - lat) (by omega)]

/-- Settles O55: `t` ticks of `DL_WRRD` from the reset tick's engine, and the tick that shows `dl_dout`. -/
theorem delayLineDelaysByDelayPlusLatency : Obligations.DelayLineDelaysByDelayPlusLatency := by
  intro c e e₀ scr din t lat hwf hreset hdin hlat hfill
  obtain ⟨r, -, rfl⟩ := exec_next_engine hreset
  have hfed : DelayFed c din 0 ((e.withPorts (e.ports.drive .reset)).tick r).dl := by
    rw [tick_of_reset _ r rfl]
    exact delayFed_reset din hwf
  obtain ⟨e₁, hexec₁, hready₁, hfed₁⟩ := hfed.execSeq_dlWrrd scr ⟨rfl, rfl⟩ hdin t
  obtain ⟨e', hexec, -, -, hdout⟩ := hfed₁.exec_dlWrrd scr hready₁ (hdin t)
  exact ⟨e', (execSeq_succ hexec₁).trans hexec, hdout.trans (hfed₁.dlDout_eq hlat hfill e₁.draws)⟩

end Sys2Proof.Proofs
end

section
/-! PROOFS. Delay line, the smaller model of the read path (R242): the correspondence gives the same multiplexer, and
both kinds of tick keep it. -/

namespace Sys2Proof.Proofs

open Sys2Proof.Machine Sys2Proof.Laws

/-- After reset no bank is marked (R40, R320). -/
theorem reset_reQ {dw : Nat} (nb : Nat) (d : DelayLine dw) (b : Nat) : (d.reset nb).reQ.getD b false = false := by
  simp [DelayLine.reset]

section small
variable {c : Cfg} {m : SmallDelay c.dataW} {d : DelayLine c.dataW} {p : Ports c.w c.hopCntW c.dataW}

theorem smallNext_of_reset (hrst : p.rst = true) (x : Word c.dataW) : m.next c p x = m.reset := if_pos hrst

/-- Reset clears the valid bit of the one and the marks of the other. -/
theorem simulates_reset (h : m.Simulates d) : m.reset.Simulates (d.reset c.nb) := by
  obtain ⟨-, hmem, -⟩ := h
  have hnone (b : Nat) : (d.reset c.nb).reQ.getD b false ≠ true := Bool.eq_false_iff.1 (reset_reQ c.nb d b)
  exact ⟨rfl, hmem, rfl, ⟨fun hvalid => (Bool.false_ne_true hvalid).elim, fun ⟨b, _, hb⟩ => absurd hb (hnone b)⟩,
    fun b _ hb => absurd hb (hnone b)⟩

/-- What the two show corresponds as well (R321). -/
theorem simulates_shown (h : m.Simulates d) (rst : Bool) :
    (m.shown rst).Simulates (if rst then d.reset c.nb else d) := by
  cases rst with
  | false => exact h
  | true => exact simulates_reset h

theorem shown_reQ_unique (hone : ∀ b b', d.reQ.getD b false = true → d.reQ.getD b' false = true → b = b')
    (rst : Bool) (b b' : Nat) (hb : (if rst then d.reset c.nb else d).reQ.getD b false = true)
    (hb' : (if rst then d.reset c.nb else d).reQ.getD b' false = true) : b = b' := by
  cases rst with
  | false => exact hone b b' hb hb'
  | true => exact absurd hb (Bool.eq_false_iff.1 (reset_reQ c.nb d b))

/-- The valid bit and the data register stand for the one marked bank and its output (R236, R242). -/
theorem simulates_mux (h : m.Simulates d)
    (hone : ∀ b b', d.reQ.getD b false = true → d.reQ.getD b' false = true → b = b') (n : Nat) :
    m.mux c n = mux c d n := by
  obtain ⟨-, -, -, hvalid, hdata⟩ := h
  by_cases hv : m.rdValid = true
  · obtain ⟨b, hb, hmark⟩ := hvalid.1 hv
    rw [mux_pending c d n b hb hmark fun b' hb' => hone b' b hb' hmark, hdata b hb hmark]
    exact if_pos hv
  · rw [mux_idle c d n fun b hb => Bool.eq_false_iff.2 fun hmark => hv (hvalid.2 ⟨b, hb, hmark⟩)]
    exact if_neg hv

theorem simulates_dout (h : m.Simulates d) (x : Word c.dataW) : m.dout c x = dlDout c d x := by
  obtain ⟨-, -, hdout, -⟩ := h
  rw [SmallDelay.dout, hdout, dlDout]

/-- A tick without reset: the write and the read of the banks are those of the array at the two pointers (R228, R230,
R231). -/
theorem simulates_next (h : m.Simulates d) (hw : d.wptr < c.total) (hrst : p.rst = false) (x : Word c.dataW) :
    (m.next c p x).Simulates (d.next c p x) := by
  obtain ⟨hwptr, hmem, hdout, -⟩ := h
  rw [SmallDelay.next, hrst, if_neg Bool.false_ne_true, hwptr, hmem, hdout]
  refine ⟨rfl, (next_bank c d p x hw hrst).symm, rfl, ?valid, fun b hb hmark => ?data⟩
  case valid =>
    have hmarks : (∃ b, b < c.nb ∧ (d.next c p x).reQ.getD b false = true) ↔
        ∃ b, b < c.nb ∧ readEn c p d.wptr b = true :=
      exists_congr fun b => and_congr_right fun hb => by rw [next_reQ c d p x b hb]
    rw [hmarks, exists_readEn_iff, and_iff_left hrst]
  case data =>
    rw [next_reQ c d p x b hb] at hmark
    obtain ⟨hrd, -, -⟩ := readEn_iff.1 hmark
    rw [next_bankQ c d p x b hb, if_pos hmark]
    exact (if_pos hrd).symm

/-- A tick of either kind, each line storing what its own multiplexer carries. -/
theorem simulates_tick (h : m.Simulates d) (hw : d.wptr < c.total)
    (hone : ∀ b b', d.reQ.getD b false = true → d.reQ.getD b' false = true → b = b') (n : Nat) :
    (m.next c p ((m.shown p.rst).mux c n).1).Simulates
      (if p.rst then d.reset c.nb else d.next c p (mux c d n).1) := by
  cases hrst : p.rst with
  | true =>
    rw [smallNext_of_reset hrst]
    exact simulates_reset h
  | false =>
    rw [← simulates_mux h hone n]
    exact simulates_next h hw hrst _

end small

/-- What a tick of either kind shows of the delay line and draws for it (R236, R237, R321). -/
theorem tick_withPorts_delay {c : Cfg} (e : Engine c) (p : Ports c.w c.hopCntW c.dataW) (r : Word c.w) :
    let v := if p.rst then e.dl.reset c.nb else e.dl
    ((e.withPorts p).tick r).outs.dlDout = dlDout c v (mux c v e.draws).1 ∧
    ((e.withPorts p).tick r).draws = (mux c v e.draws).2 := by
  cases hrst : p.rst with
  | true => rw [tick_of_reset _ r hrst]; exact ⟨rfl, rfl⟩
  | false => rw [tick_of_run _ r hrst]; exact ⟨rfl, rfl⟩

/-- Settles O56: what is shown corresponds, so the multiplexers agree, and the tick keeps the correspondence; an
operation executed is such a tick with the operation on the ports. -/
theorem smallDelayModelIsEquivalent : Obligations.SmallDelayModelIsEquivalent := by
  refine ⟨fun c d m p n hw hone hsim => ⟨?mux, fun hrst => ?next, fun hrst x => ?reset⟩,
    fun c e e' m scr i hw hone hsim hexec => ?executed⟩
  case mux => exact simulates_mux (simulates_shown hsim _) (shown_reQ_unique hone _) n
  case next =>
    rw [simulates_mux hsim hone]
    exact simulates_next hsim hw hrst _
  case reset =>
    rw [smallNext_of_reset hrst]
    exact simulates_reset hsim
  case executed =>
    obtain ⟨r, -, rfl⟩ := exec_next_engine hexec
    obtain ⟨-, -, -, -, hdl⟩ := tick_withPorts_groups e (e.ports.drive i) r
    obtain ⟨hdout, hdraws⟩ := tick_withPorts_delay e (e.ports.drive i) r
    have hshown := simulates_shown hsim (e.ports.drive i).rst
    have hmux := simulates_mux hshown (shown_reQ_unique hone _) e.draws
    refine ⟨?dout, ?draws, ?sim⟩
    case dout => rw [hdout, hmux, simulates_dout hshown]
    case draws => rw [hdraws, hmux]
    case sim => rw [hdl]; exact simulates_tick hsim hw hone e.draws

end Sys2Proof.Proofs
end

section
/-! PROOFS. Register bus: in a tick without reset an aligned operation of the bus shows the addressed word as it stands,
and the control registers take their own step (R260 to R269). -/

namespace Sys2Proof.Proofs

open Sys2Proof.Machine Sys2Proof.Laws

/-! ## The control registers after a write of a word (R262 to R264) -/

section ctrl
variable {w hw dw : Nat} (k : CtrlRegs w) (p : Ports w hw dw) (d : Nat)

theorem ctrlNext_driveBus_twMin :
    k.next (p.driveBus true 0x4 d) = ⟨0, BitVec.ofNat w d, k.twMax, k.chirpStep⟩ := rfl

theorem ctrlNext_driveBus_twMax :
    k.next (p.driveBus true 0x8 d) = ⟨0, k.twMin, BitVec.ofNat w d, k.chirpStep⟩ := rfl

theorem ctrlNext_driveBus_chirpStep :
    k.next (p.driveBus true 0xC d) = ⟨0, k.twMin, k.twMax, BitVec.ofNat w d⟩ := rfl

end ctrl

/-! ## An operation as the bus sees it -/

section bus
variable {c : Cfg} {e : Engine c} {i : Instr} {k : CtrlRegs c.w} {v : Word c.w}

/-- A word that reads at the operation's address is on `bus_rdata` in its tick, and the address is aligned (R269). -/
theorem exec_shows_word (scr : List Line) (hfit : i.operandsFit c.raw = true)
    (hrst : (e.ports.drive i).rst = false) (hctrl : e.ctrl.next (e.ports.drive i) = k)
    (hread : busRead e.ctrl e.run (e.ports.drive i).busAddr = some v) :
    ∃ e' : Engine c, exec i ⟨c, e, scr⟩ = .next ⟨c, e', scr⟩ ∧ e'.ctrl = k ∧ e'.outs.busRdata = v := by
  have haligned : wordAligned (e.ports.drive i).busAddr = true := by
    rw [← busRead_isSome e.ctrl e.run, hread, Option.isSome_some]
  obtain ⟨e', hexec, hnext, -, -, -, -, -, -, r, hshown, houts⟩ := exec_groups scr ⟨hfit, hrst, haligned⟩
  refine ⟨e', hexec, hnext.trans hctrl, ?_⟩
  rw [houts]
  exact eq_of_busRead hshown rfl hread

/-- A read leaves the three words and clears the command latch (R261). -/
theorem exec_read_shows_word (scr : List Line) (hfit : i.operandsFit c.raw = true)
    (hrst : (e.ports.drive i).rst = false) (hwe : (e.ports.drive i).busWe = false)
    (hread : busRead e.ctrl e.run (e.ports.drive i).busAddr = some v) :
    ∃ e' : Engine c, exec i ⟨c, e, scr⟩ = .next ⟨c, e', scr⟩ ∧ e'.outs.busRdata = v ∧
      e'.ctrl = ⟨0, e.ctrl.twMin, e.ctrl.twMax, e.ctrl.chirpStep⟩ := by
  obtain ⟨e', hexec, hctrl, hshown⟩ :=
    exec_shows_word scr hfit hrst (ctrlNext_of_busWe_false e.ctrl hwe) hread
  exact ⟨e', hexec, hshown, hctrl⟩

end bus

/-- Bit 0 of the status word is the run flag, the rest is 0 (R25, R265). -/
theorem statusWord_isRunning_toNat (c : Cfg) (r : RunState c.pulseCntW) :
    (statusWord c.w r.isRunning).toNat = if r.cont || r.pulse then 1 else 0 :=
  statusWord_toNat (Nat.lt_of_lt_of_le (by decide) (three_le_w c)) r.isRunning

/-! ## The operations -/

/-- Settles O20: each write replaces the word it addresses, and the read data is that word before the tick. -/
theorem busWritesStoreTheWord : Obligations.BusWritesStoreTheWord := by
  intro c e scr d hd hrst
  have hfit : fitsPort c.w d = true := fitsPort_iff.2 hd
  exact ⟨exec_shows_word scr hfit hrst (ctrlNext_driveBus_twMin _ _ _) (busRead_twMin _ _),
    exec_shows_word scr hfit hrst (ctrlNext_driveBus_twMax _ _ _) (busRead_twMax _ _),
    exec_shows_word scr hfit hrst (ctrlNext_driveBus_chirpStep _ _ _) (busRead_chirpStep _ _)⟩

/-- Settles O21: the control word is at the address of the status word, and its low bits go to the latch. -/
theorem controlWordLoadsTheCommandLatch : Obligations.ControlWordLoadsTheCommandLatch := by
  intro c e scr d hd hrst
  obtain ⟨e', hexec, hctrl, hshown⟩ := exec_shows_word (i := .wrCtrl d) scr (fitsPort_iff.2 hd) hrst
    (ctrlNext_driveBus_control e.ctrl e.ports d (three_le_w c)) (busRead_status _ _)
  exact ⟨e', hexec, hctrl, hshown ▸ statusWord_isRunning_toNat c e.run⟩

/-- Settles O24: each read shows the word at its address and writes nothing. -/
theorem busReadsShowTheWord : Obligations.BusReadsShowTheWord := by
  intro c e scr d hd hrst
  have hfit : fitsPort c.w d = true := fitsPort_iff.2 hd
  obtain ⟨e', hexec, hshown, hctrl⟩ :=
    exec_read_shows_word (i := .rdStatus d) scr hfit hrst rfl (busRead_status e.ctrl e.run)
  exact ⟨⟨e', hexec, hshown ▸ statusWord_isRunning_toNat c e.run, hctrl⟩,
    exec_read_shows_word scr hfit hrst rfl (busRead_twMin _ _),
    exec_read_shows_word scr hfit hrst rfl (busRead_twMax _ _),
    exec_read_shows_word scr hfit hrst rfl (busRead_chirpStep _ _)⟩

/-- The reset port falls back after every tick, a reset tick included (R104). -/
theorem exec_next_rst {c : Cfg} {e e' : Engine c} {i : Instr} {scr : List Line}
    (h : exec i ⟨c, e, scr⟩ = .next ⟨c, e', scr⟩) : e'.ports.rst = false := by
  obtain ⟨r, -, rfl⟩ := exec_next_engine h
  exact relax_rst _

/-- Settles O25: the write of a word followed by the read of it; a change of the ports between the two leaves the
control registers alone. -/
theorem writtenWordIsReadBackInTheNextTick : Obligations.WrittenWordIsReadBackInTheNextTick := by
  intro c e scr d x hd hx hrst
  obtain ⟨⟨e1, hexec1, hctrl1, hold1⟩, ⟨e2, hexec2, hctrl2, hold2⟩, ⟨e3, hexec3, hctrl3, hold3⟩⟩ :=
    busWritesStoreTheWord c e scr d hd hrst
  refine ⟨⟨e1, hexec1, hold1, fun p hp => ?twMin⟩, ⟨e2, hexec2, hold2, fun p hp => ?twMax⟩,
    ⟨e3, hexec3, hold3, fun p hp => ?chirpStep, exec_next_rst hexec3⟩⟩
  case twMin =>
    obtain ⟨-, ⟨e', hexec, hshown, -⟩, -⟩ := busReadsShowTheWord c (e1.withPorts p) scr x hx hp
    exact ⟨e', hexec, by rw [hshown, withPorts_ctrl, hctrl1]⟩
  case twMax =>
    obtain ⟨-, -, ⟨e', hexec, hshown, -⟩, -⟩ := busReadsShowTheWord c (e2.withPorts p) scr x hx hp
    exact ⟨e', hexec, by rw [hshown, withPorts_ctrl, hctrl2]⟩
  case chirpStep =>
    obtain ⟨-, -, -, ⟨e', hexec, hshown, -⟩⟩ := busReadsShowTheWord c (e3.withPorts p) scr x hx hp
    exact ⟨e', hexec, by rw [hshown, withPorts_ctrl, hctrl3]⟩

end Sys2Proof.Proofs
end

section
/-! PROOFS. Exceptions, construction: each configuration error is listed exactly when its constraint is broken, and
construction succeeds exactly when none is (R290 to R293). -/

namespace Sys2Proof.Proofs

section errors
variable (p : Config)

theorem ce1_mem_errors_iff : ConfigError.ce1 ∈ p.errors ↔ p.delay ≤ 0 ∨ (p.total : Int) ≤ p.delay := by
  simp [Config.errors]

theorem ce2_mem_errors_iff : ConfigError.ce2 ∈ p.errors ↔ p.lutAw < 2 := by
  simp [Config.errors]

theorem ce3_mem_errors_iff :
    ConfigError.ce3 ∈ p.errors ↔ p.w < p.lutAw ∨ p.w < 3 ∨ p.sampleW < 2 ∨ 2 ^ p.pulseCntW ≤ p.pulseLen ∨
      p.bankBits < 0 ∨ p.bankDepth < 1 ∨ p.dataW < 1 := by
  simp only [Config.errors, List.mem_append, List.mem_ite_nil_right, List.mem_singleton, reduceCtorEq, and_false,
    and_true, false_or]

end errors

theorem construct_of_errors {p : Config} (t : p.TableOk) (h : p.errors ≠ []) : construct p t = .error p.errors :=
  dif_neg h

theorem construct_of_no_error {p : Config} (t : p.TableOk) (h : p.errors = []) :
    construct p t = .ok ⟨p, h, t⟩ := dif_pos h

/-- Settles O11: the three errors one by one, and the two branches of construction. -/
theorem constructionFailsExactlyOnTheErrors : Obligations.ConstructionFailsExactlyOnTheErrors :=
  fun p t => ⟨ce1_mem_errors_iff p, ce2_mem_errors_iff p, ce3_mem_errors_iff p, construct_of_errors t,
    fun h => ⟨_, construct_of_no_error t h, rfl⟩⟩

end Sys2Proof.Proofs
end

section
/-! PROOFS. Exceptions, legal lines: a number that fits its port is an operation that fits and keeps the bus address
aligned, so the tick of a legal line runs from an aligned state (R294, R335, R338). -/

namespace Sys2Proof.Proofs

open Sys2Proof.Machine Sys2Proof.Laws

/-- An operation that meets the environment's obligations (R335, R338). -/
structure LegalOp (p : Config) (i : Instr) : Prop where
  fits : i.operandsFit p = true
  aligned : misaligned i = false

/-! ## A legal line decodes to legal operations -/

/-- What stands on the ports of one field is a legal operation. -/
def DecodesLegally (p : Config) (r : Raw) : Prop := ∃ i, decode p r = .ok i ∧ LegalOp p i

section fields
variable {p : Config}

theorem misaligned_controlWord (d : Nat) : misaligned (controlWord d) = false := by
  unfold controlWord
  split <;> rfl

theorem misaligned_alignedOp (we : Bool) (index d : Nat) : misaligned (alignedOp we index d) = false := by
  unfold alignedOp
  split
  · exact misaligned_controlWord d
  all_goals rfl

theorem busOperation_of_aligned {addr : Nat} (we : Bool) (d : Nat) (h : addr % 4 = 0) :
    busOperation we addr d = alignedOp we (addr / 4) d := by
  have heven : ¬ addr % 2 = 1 := by omega
  have htwo : ¬ addr % 4 = 2 := by omega
  rw [busOperation, if_neg heven, if_neg htwo]

theorem decodesLegally_bus {x : Nat} (hw : 3 ≤ p.w) (hfit : fitsPort (p.w + 5) x = true)
    (haligned : busAddr p.w x % 4 = 0) : DecodesLegally p (.bus x) := by
  have hdata : fitsPort p.w (busData p.w x) = true := fitsPort_iff.2 (Nat.mod_lt x (Nat.two_pow_pos p.w))
  obtain ⟨hfits, -⟩ := Bool.and_eq_true_iff.1 (alignedOp_wellFormed (we := busWe p.w x)
    (index := busAddr p.w x / 4) hw hdata)
  refine ⟨_, ?_, hfits, misaligned_alignedOp _ _ _⟩
  rw [decode_bus (fitsPort_iff.1 hfit), busOperation_of_aligned _ _ haligned]

theorem decodesLegally_mode {x : Nat} (h : fitsPort 2 x = true) : DecodesLegally p (.mode x) := by
  have hx : x < 4 := fitsPort_iff.1 h
  interval_cases x <;> exact ⟨_, rfl, rfl, rfl⟩

theorem decodesLegally_rdy {x : Nat} (h : fitsPort 1 x = true) : DecodesLegally p (.rdy x) := by
  have hx : x < 2 := fitsPort_iff.1 h
  interval_cases x <;> exact ⟨_, rfl, rfl, rfl⟩

theorem decodesLegally_rst {x : Nat} (h : fitsPort 1 x = true) : DecodesLegally p (.rst x) := by
  have hx : x < 2 := fitsPort_iff.1 h
  interval_cases x <;> exact ⟨_, rfl, rfl, rfl⟩

theorem decodesLegally_hop {x f0 f1 f2 b : Nat} (h : fitsPort 1 x = true)
    (hfit : (fitsPort p.w f0 && fitsPort p.w f1 && fitsPort p.w f2 && fitsPort p.hopCntW b) = true) :
    DecodesLegally p (.hop x f0 f1 f2 b) := by
  have hx : x < 2 := fitsPort_iff.1 h
  interval_cases x
  · exact ⟨.hopHold, if_pos hfit, rfl, rfl⟩
  · exact ⟨.hopRun f0 f1 f2 b, if_pos hfit, hfit, rfl⟩

theorem decodesLegally_dl {x d : Nat} (h : fitsPort 2 x = true) (hfit : fitsPort p.dataW d = true) :
    DecodesLegally p (.dl x d) := by
  have hx : x < 4 := fitsPort_iff.1 h
  interval_cases x
  · exact ⟨.dlIdle, if_pos hfit, rfl, rfl⟩
  · exact ⟨.dlRd, if_pos hfit, rfl, rfl⟩
  · exact ⟨.dlWr d, if_pos hfit, hfit, rfl⟩
  · exact ⟨.dlWrrd d, if_pos hfit, hfit, rfl⟩

theorem decodeAll_of_decodesLegally {rs : List Raw} (h : ∀ r ∈ rs, DecodesLegally p r) :
    ∃ is, decodeAll p rs = .ok is ∧ ∀ i ∈ is, LegalOp p i := by
  induction rs with
  | nil => exact ⟨[], rfl, by simp⟩
  | cons r rs ih =>
    obtain ⟨⟨i, hi, hlegal⟩, hrest⟩ := List.forall_mem_cons.1 h
    obtain ⟨is, his, hlegals⟩ := ih hrest
    exact ⟨i :: is, by simp only [decodeAll, hi, his], List.forall_mem_cons.2 ⟨hlegal, hlegals⟩⟩

/-- The fields that a line leaves out present nothing. -/
theorem forall_mem_toList_map {α : Type} {o : Option α} {test : α → Bool} {f : α → Raw} (h : o.all test = true)
    (hlegal : ∀ x, test x = true → DecodesLegally p (f x)) : ∀ r ∈ (o.map f).toList, DecodesLegally p r := by
  cases o with
  | none => simp
  | some x => simpa using hlegal x h

theorem decodeLine_of_legalLine {l : Line} (hw : 3 ≤ p.w) (h : legalLine p l = true) :
    ∃ is, decodeLine p l = .ok is ∧ ∀ i ∈ is, LegalOp p i := by
  simp only [legalLine, Bool.and_eq_true] at h
  obtain ⟨⟨⟨⟨⟨hbus, hmode⟩, hrdy⟩, hhop⟩, hdl⟩, hrst⟩ := h
  refine decodeAll_of_decodesLegally ?_
  simp only [Line.raws, List.forall_mem_append]
  refine ⟨⟨⟨⟨⟨forall_mem_toList_map hbus fun x hx => ?bus, forall_mem_toList_map hmode fun x => decodesLegally_mode⟩,
    forall_mem_toList_map hrdy fun x => decodesLegally_rdy⟩, forall_mem_toList_map hhop fun x hx => ?hop⟩,
    forall_mem_toList_map hdl fun x hx => ?dl⟩, forall_mem_toList_map hrst fun x => decodesLegally_rst⟩
  case bus =>
    obtain ⟨hfit, haligned⟩ := Bool.and_eq_true_iff.1 hx
    exact decodesLegally_bus hw hfit (beq_iff_eq.1 haligned)
  case hop =>
    simp only [Bool.and_eq_true] at hx
    obtain ⟨⟨⟨⟨hcode, h0⟩, h1⟩, h2⟩, hb⟩ := hx
    exact decodesLegally_hop hcode (by simp only [h0, h1, h2, hb, Bool.and_self])
  case dl =>
    obtain ⟨hcode, hdin⟩ := Bool.and_eq_true_iff.1 hx
    exact decodesLegally_dl hcode hdin

end fields

/-! ## Legal operations run -/

/-- A legal bus operation brings an aligned address, any other operation leaves the one that stands. -/
theorem LegalOp.drive_aligned {c : Config} {i : Instr} (h : LegalOp c i) {w hw dw : Nat} {p : Ports w hw dw}
    (haligned : wordAligned p.busAddr = true) : wordAligned (p.drive i).busAddr = true := by
  have hi := h.aligned
  cases i with
  | busMisalignedA | busMisalignedB => cases hi
  | wrCtrl | startCont | stopCont | startPulse | ctrlNop | rdStatus => rfl
  | wrTwmin | rdTwmin => exact (wordAligned_iff 0x4).2 (by decide)
  | wrTwmax | rdTwmax => exact (wordAligned_iff 0x8).2 (by decide)
  | wrStep | rdStep => exact (wordAligned_iff 0xC).2 (by decide)
  | _ => exact haligned

theorem LegalOp.exec_next {i : Instr} {s : State} (h : LegalOp s.cfg.raw i)
    (haligned : wordAligned s.engine.ports.busAddr = true) : ∃ e', exec i s = .next ⟨s.cfg, e', s.script⟩ := by
  obtain ⟨r, -, hexec⟩ := exec_of_fits i s.cfg s.engine s.script h.fits (h.drive_aligned haligned)
  exact ⟨_, hexec⟩

theorem runLine_of_legalOps {is : List Instr} {s : State} (h : ∀ i ∈ is, LegalOp s.cfg.raw i)
    (haligned : wordAligned s.engine.ports.busAddr = true) : ∃ e', runLine is s = .next ⟨s.cfg, e', s.script⟩ := by
  fun_induction runLine is s with
  | case1 s => exact LegalOp.exec_next ⟨rfl, rfl⟩ haligned
  | case2 s i => exact (h i (by simp)).exec_next haligned
  | case3 s i j rest ih =>
    obtain ⟨hi, hrest⟩ := List.forall_mem_cons.1 h
    exact ih hrest (hi.drive_aligned haligned)

/-- Settles O7: a legal line decodes to legal operations, and those run; a fault has no constructor (R294). -/
theorem everyLegalLineRuns : Obligations.EveryLegalLineRuns := by
  refine ⟨fun s l rest hscript hlegal haligned => ?_, fun s f => nomatch f⟩
  obtain ⟨is, hdecode, hops⟩ := decodeLine_of_legalLine (three_le_w s.cfg) hlegal
  have hfetch := fetch_cons hscript
  rw [step_of_decodeLine (by rw [hfetch]; exact hdecode), hfetch]
  exact runLine_of_legalOps (s := { s with script := rest }) hops haligned

end Sys2Proof.Proofs
end

section
/-! PROOFS. Reset and hazards: what a reset tick shows (R321, R322), what a user sees after it (R325), and that a held
reset is one reset (R320, R324). -/

namespace Sys2Proof.Proofs

open Sys2Proof.Machine Sys2Proof.Laws

/-! ## The outputs of the reset state -/

theorem tableAddr_zero (c : Cfg) : tableAddr c 0 = 0 := by
  simp [tableAddr]

/-- Phase 0 is `sin = 0` (R121 (a)). -/
theorem sinRd_zero (c : Cfg) : sinRd c 0 = 0 := by
  obtain ⟨⟨hzero, -⟩, -⟩ := tableHasTheSymmetriesOfTheSine c
  rw [sinRd, tableAddr_zero, hzero]

/-- Phase 0 is `cos = AMP` (R121 (a)). -/
theorem cosRd_zero (c : Cfg) : cosRd c 0 = c.amp := by
  obtain ⟨⟨-, hquarter, -⟩, -⟩ := tableHasTheSymmetriesOfTheSine c
  have hlt : c.size / 4 < c.size := Nat.div_lt_self (Nat.two_pow_pos c.lutAw) (by decide)
  rw [cosRd, tableAddr_zero, Nat.zero_add, Nat.mod_eq_of_lt hlt, hquarter]

/-- Two tones at phase 0 saturate at `AMP` (R187, R188). -/
theorem combine_amp (c : Cfg) : combine c.sampleW c.amp c.amp = c.amp := by
  have hamp := amp_nonneg c
  have hlow : -(2 ^ (c.sampleW - 1)) = -c.amp - 1 := by simp only [Cfg.amp, Config.amp]; ring
  have hhigh : 2 ^ (c.sampleW - 1) - 1 = c.amp := rfl
  rw [combine, sat_eq_clamp, hlow, hhigh, min_eq_left (by omega), max_eq_right (by omega)]

theorem combine_zero (c : Cfg) : combine c.sampleW 0 0 = 0 :=
  (sat_eq_self_iff _ _).2 (inSampleRange_of_abs_le (abs_zero.trans_le (amp_nonneg c)))

/-- Chirp and dual tone show `(AMP, 0)` with the accumulators at 0 (R321). -/
theorem selectSamples_reset {c : Cfg} {mode : BitVec 2} (h : mode = 1 ∨ mode = 2) :
    (selectSamples c mode (.reset c.w)).1 = c.amp ∧ (selectSamples c mode (.reset c.w)).2 = 0 := by
  have hcos : cosRd c (SynthAcc.reset c.w).phase1 = c.amp := cosRd_zero c
  have hsin : sinRd c (SynthAcc.reset c.w).phase1 = 0 := sinRd_zero c
  rcases h with rfl | rfl
  · exact ⟨hcos, hsin⟩
  · exact ⟨(congrArg₂ (combine c.sampleW) hcos hcos).trans (combine_amp c),
      (congrArg₂ (combine c.sampleW) hsin hsin).trans (combine_zero c)⟩

/-- Settles O17: the outputs are those of the reset registers in the mode on the ports; no read is pending in them, so
the delay line shows the output register's 0 or draws. -/
theorem resetTickShowsTheResetState : Obligations.ResetTickShowsTheResetState := by
  intro c e scr haligned
  have hidle : mux c (e.dl.reset c.nb) e.draws = (Config.anyMux c.dataW e.draws, e.draws + 1) :=
    mux_idle c _ _ fun b _ => reset_reQ c.nb e.dl b
  refine ⟨_, exec_of_resets (i := .reset) scr rfl rfl haligned, rfl, rfl, rfl, selectSamples_reset,
    selectSamples_of_silent _, cosRd_zero c, sinRd_zero c, dlDout_of_outReg _ _, fun hout => ?draw, rfl⟩
  case draw => rw [outputs_dlDout, dlDout_of_direct _ _ hout, hidle]

/-- Settles O18: the reset values of the registers, the bus reads of them, and the read pointer `DELAY` entries behind
pointer 0. -/
theorem stateAfterResetAsAUserSeesIt : Obligations.StateAfterResetAsAUserSeesIt := by
  intro c
  obtain ⟨hpos, hlt⟩ := delay_range c
  refine ⟨rfl, busRead_of_reset _ _, rfl, rfl, rfl, ?_⟩
  calc readPtr c 0 = (0 + (c.total - c.delay)) % c.total := readPtr_eq c 0
    _ = c.total - c.delay := by rw [Nat.zero_add, Nat.mod_eq_of_lt (by omega)]

/-! ## Reset held for many ticks -/

/-- The state a reset tick leaves when it starts from the delay line `d` and the ports `p`: the registers at their reset
values, `d`'s memory and bank outputs, and the pulse fields of `p` at rest (R104, R320, R323). -/
structure ResetFrom {c : Cfg} (d : DelayLine c.dataW) (p : Ports c.w c.hopCntW c.dataW) (e : Engine c) : Prop where
  ctrl : e.ctrl = .reset c.w
  run : e.run = .reset c.pulseCntW
  synth : e.synth = .reset c.w
  hop : e.hop = .reset c.w c.hopCntW
  dl : e.dl = d.reset c.nb
  ports : e.ports = p.relax

section held
variable {c : Cfg} {d : DelayLine c.dataW} {p : Ports c.w c.hopCntW c.dataW} {e e' : Engine c}

theorem resetFrom_afterReset (c : Cfg) :
    ResetFrom (.fresh c.nb c.dataW) (.quiet c.w c.hopCntW c.dataW) (.afterReset c) :=
  ⟨rfl, rfl, rfl, rfl, rfl, rfl⟩

theorem exec_reset (scr : List Line) (haligned : wordAligned e.ports.busAddr = true) :
    ∃ e' : Engine c, exec .reset ⟨c, e, scr⟩ = .next ⟨c, e', scr⟩ ∧ ResetFrom e.dl e.ports e' :=
  ⟨_, exec_of_resets (i := .reset) scr rfl rfl haligned, ⟨rfl, rfl, rfl, rfl, rfl, rfl⟩⟩

theorem ResetFrom.aligned (h : ResetFrom d p e) : wordAligned e.ports.busAddr = true := by
  rw [h.ports, relax_busAddr]
  rfl

/-- A reset of the reset delay line and ports at rest changes neither. -/
theorem ResetFrom.again (h : ResetFrom d p e) (h' : ResetFrom e.dl e.ports e') : ResetFrom d p e' :=
  { h' with dl := by rw [h'.dl, h.dl]; rfl, ports := by rw [h'.ports, h.ports]; rfl }

theorem ResetFrom.execTimes_reset (h : ResetFrom d p e) (scr : List Line) (n : Nat) :
    ∃ e' : Engine c, execTimes .reset n ⟨c, e, scr⟩ = .next ⟨c, e', scr⟩ ∧ ResetFrom d p e' := by
  induction n with
  | zero => exact ⟨e, rfl, h⟩
  | succ n ih =>
    obtain ⟨e₁, hexec₁, h₁⟩ := ih
    obtain ⟨e', hexec, h'⟩ := exec_reset scr h₁.aligned
    exact ⟨e', (execTimes_succ hexec₁).trans hexec, h₁.again h'⟩

theorem ResetFrom.groups_eq (h : ResetFrom d p e) (h' : ResetFrom d p e') :
    e'.ctrl = e.ctrl ∧ e'.run = e.run ∧ e'.synth = e.synth ∧ e'.hop = e.hop ∧ e'.dl = e.dl ∧ e'.ports = e.ports :=
  ⟨h'.ctrl.trans h.ctrl.symm, h'.run.trans h.run.symm, h'.synth.trans h.synth.symm, h'.hop.trans h.hop.symm,
    h'.dl.trans h.dl.symm, h'.ports.trans h.ports.symm⟩

end held

/-- Settles O19: every reset tick of the row leaves the state of a reset from the same delay line and ports, by
induction on the number of ticks; the initial state is one. -/
theorem resetHeldForManyTicksIsOneReset : Obligations.ResetHeldForManyTicksIsOneReset := by
  refine ⟨fun c e scr haligned => ?_, fun c n => ?_⟩
  · obtain ⟨e1, hexec1, h1⟩ := exec_reset scr haligned
    refine ⟨e1, hexec1, fun n => ?_⟩
    obtain ⟨e2, hexec2, h2⟩ := h1.execTimes_reset scr n
    exact ⟨e2, hexec2, h1.groups_eq h2⟩
  · obtain ⟨e', hexec, h'⟩ := (resetFrom_afterReset c).execTimes_reset [] n
    exact ⟨e', hexec, (resetFrom_afterReset c).groups_eq h'⟩

end Sys2Proof.Proofs
end
